-- ==== Sys2Proof/Word.lean ====
section
/-! DEFINITION. The word types of the engine and their plainest arithmetic (00_scope.md rules R9, R10). -/

namespace Sys2Proof

/-- A byte, bits numbered from 0 at the least significant bit (R9). -/
abbrev Byte := BitVec 8

/-- A 32-bit word: a channel request word, a host operation word, a delay count (R90, R34). -/
abbrev Word := BitVec 32

/-- `zext_32` of a byte (R9). -/
def zext32 (b : Byte) : Word := b.setWidth 32

/-- A one-bit value as a byte, `zext_8` (R9). -/
def bitByte (b : Bool) : Byte := (BitVec.ofBool b).setWidth 8

end Sys2Proof
end

