-- ==== Sys2Proof/Config.lean ====
section
/-! DEFINITION. The implementation parameters (00_scope.md rules R6, R7), the Timing Profile and its invariants
(10_state.md rules R29, R31), and the free values of the line environment (93_implementation_defined.md U1). -/

namespace Sys2Proof

/-- A Timing Profile: five durations in microseconds (R29). -/
structure Profile where
  /-- `t_bit`, the bit period. -/
  tBit  : Nat
  /-- `t_low1`, low-pulse-for-one. -/
  tLow1 : Nat
  /-- `t_low0`, low-pulse-for-zero. -/
  tLow0 : Nat
  /-- `t_rd`, read-pulse. -/
  tRd   : Nat
  /-- `t_mr`, minimum-recovery. -/
  tMr   : Nat
  deriving DecidableEq, Repr, Inhabited

/-- The profile invariants (i), (ii), (iii) of R31. -/
def Profile.wf (p : Profile) : Bool :=
  decide (p.tLow1 ≤ p.tBit) && decide (p.tLow0 ≤ p.tBit) && decide (p.tRd + p.tMr < p.tBit) &&
    decide (p.tLow1 < p.tLow0)

/-- The OPEN parameters of the table of R6: no source gives any of them a value. `DEFAULT_SPEED` is an index below
`NUM_SPEEDS` = 2 by its width. -/
structure Params where
  /-- `CYCLES_PER_US`. -/
  cyclesPerUs  : Nat
  /-- `PROFILE[0]`, "standard". -/
  profile0     : Profile
  /-- `PROFILE[1]`, "high". -/
  profile1     : Profile
  /-- `DEFAULT_SPEED`. -/
  defaultSpeed : BitVec 1
  /-- `T_DSC_START`, device startup window. -/
  tDscStart    : Nat
  /-- `T_DSC_RESET`, reset pulse. -/
  tDscReset    : Nat
  /-- `T_DSC_REC`, post-reset recovery. -/
  tDscRec      : Nat
  /-- `T_DSC_REQ`, brief drive pulse. -/
  tDscReq      : Nat
  /-- `T_DSC_SMP`, release to sample. -/
  tDscSmp      : Nat
  /-- `T_DSC_END`, trailing settle. -/
  tDscEnd      : Nat
  /-- `T_SETTLE_A`, inter-phase delay of `readByte`. -/
  tSettleA     : Nat
  /-- `T_SETTLE_B`, trailing settle delay of `readByte`. -/
  tSettleB     : Nat
  deriving DecidableEq, Repr, Inhabited

/-- The five durations of a profile. -/
def Profile.durations (p : Profile) : List Nat := [p.tBit, p.tLow1, p.tLow0, p.tRd, p.tMr]

/-- Every duration parameter (R7). -/
def Params.durations (p : Params) : List Nat :=
  p.profile0.durations ++ p.profile1.durations ++
    [p.tDscStart, p.tDscReset, p.tDscRec, p.tDscReq, p.tDscSmp, p.tDscEnd, p.tSettleA, p.tSettleB]

/-- `DLY_WIDTH` = 32 (R6, R120). -/
def dlyWidth : Nat := 32

/-- Well-formedness of a configuration (R7): both profiles meet R31, `CYCLES_PER_US` ≥ 1, and every duration times
`CYCLES_PER_US` is below 2^`DLY_WIDTH`. -/
def Params.wf (p : Params) : Bool :=
  decide (1 ≤ p.cyclesPerUs) && p.profile0.wf && p.profile1.wf &&
    p.durations.all (fun d => decide (d * p.cyclesPerUs < 2 ^ dlyWidth))

/-- A configuration carries its well-formedness as a proof, so that an ill-formed one does not exist: the refusal that
R7 and 93_implementation_defined.md U2 ask for. -/
structure Config where
  params : Params
  wf     : params.wf = true
  deriving DecidableEq, Repr

/-- The illustration `CFG_EX` of 95_test_vectors.md. Its numbers are no values of the hardware
(91_not_in_source.md N14): only the tests and witnesses use it, and `Config.hardware` where the open parameters are
ill-formed. -/
def exampleParams : Params where
  cyclesPerUs := 125
  profile0 := ⟨20, 1, 10, 1, 1⟩
  profile1 := ⟨10, 1, 6, 1, 1⟩
  defaultSpeed := 0
  tDscStart := 200
  tDscReset := 500
  tDscRec := 20
  tDscReq := 1
  tDscSmp := 2
  tDscEnd := 150
  tSettleA := 100
  tSettleB := 150

/-- `CFG_EX` as a configuration. -/
def exampleConfig : Config := ⟨exampleParams, by decide⟩

/-- FREE VALUE. The OPEN parameters of the hardware at hand (R6, 93_implementation_defined.md U16): nothing is known
of them. DESIGN CHOICE (log 2). -/
opaque Config.openParams : Params

/-- The configuration `State.reset` carries: the open parameters if they are well formed. No number of it can be
proved. -/
def Config.hardware : Config :=
  if h : Config.openParams.wf = true then ⟨Config.openParams, h⟩ else exampleConfig

/-- FREE VALUE. The level the line environment presents at the k-th sample that no scripted level answers
(93_implementation_defined.md U1; 40_timing_line.md rules R128, R129). DESIGN CHOICE (log 3). -/
opaque Config.lineFree : Nat → Bool

/-- `EEPROM_SIZE` = 128 (R6, R60). -/
def eepromSize : Nat := 128

/-- `RX_DEFAULT_ACK` = false: the host operation `receiveByte` sends NACK (R6, R223). -/
def rxDefaultAck : Bool := false

end Sys2Proof
end

