-- ==== Sys2Proof/Syntax.lean ====
section
/-! DEFINITION. The instructions: one constructor per row of spec/opcode_table.json (30_encoding.md rules R91, R101,
R105; R113 says the table holds exactly the twelve encodable items). -/

namespace Sys2Proof

/-- The twelve encodable items. A device address and a speed index stand as the byte the host field has; that only
`dev[2:0]` and `arg1[0]` name something is checked by `Instr.wf`. -/
inductive Instr where
  /-- Channel request `TransmitByte` (R202): `payload` is the byte to transmit. -/
  | chanTransmitByte (payload : Byte)
  /-- Channel request `Discovery` (R201): the payload is ignored. -/
  | chanDiscovery
  /-- Channel request `ReceiveByte` (R203): a non-zero `payload` means `sendAck`. -/
  | chanReceiveByte (payload : Byte)
  /-- Host operation `discovery` (R221). -/
  | hostDiscovery
  /-- Host operation `transmitByte byte=b` (R222). -/
  | hostTransmitByte (byte : Byte)
  /-- Host operation `receiveByte` (R223). -/
  | hostReceiveByte
  /-- Host operation `manufacturerId dev=d` (R224). -/
  | hostManufacturerId (dev : Byte)
  /-- Host operation `readBlock dev=d start=s len=n` (R225). -/
  | hostReadBlock (dev start length : Byte)
  /-- Host operation `setSpeed speed=s` (R226). -/
  | hostSetSpeed (speed : Byte)
  /-- Bus opcode byte `EEPROM_W`, EEPROM access with write intent (R105, built by R171). -/
  | busEepromW (dev : Byte)
  /-- Bus opcode byte `EEPROM_R`, EEPROM access with read intent (R105, built by R175). -/
  | busEepromR (dev : Byte)
  /-- Bus opcode byte `MFGID_R`, manufacturer-ID read (R105, built by R172). -/
  | busMfgidR (dev : Byte)
  deriving DecidableEq, Repr

end Sys2Proof
end

