-- ==== Sys2Proof/WellFormed.lean ====
section
/-! DEFINITION. What the encodings admit: device addresses 0..7 (20_memory.md rule R61) and speed indices below
`NUM_SPEEDS` = 2 (00_scope.md rule R6, 30_encoding.md rule R101). -/

namespace Sys2Proof

/-- A device address the three bits `dev[2:0]` can carry (R61). -/
def devOk (dev : Byte) : Bool := decide (dev.toNat < 8)

/-- A speed index the one bit `arg1[0]` can carry (R101). -/
def speedOk (speed : Byte) : Bool := decide (speed.toNat < 2)

/-- The operands fit the encoding. Payloads, bytes, start addresses and lengths may be any byte (R91, R101). -/
def Instr.wf : Instr → Bool
  | .chanTransmitByte _ => true
  | .chanDiscovery => true
  | .chanReceiveByte _ => true
  | .hostDiscovery => true
  | .hostTransmitByte _ => true
  | .hostReceiveByte => true
  | .hostManufacturerId dev => devOk dev
  | .hostReadBlock dev _ _ => devOk dev
  | .hostSetSpeed speed => speedOk speed
  | .busEepromW dev => devOk dev
  | .busEepromR dev => devOk dev
  | .busMfgidR dev => devOk dev

end Sys2Proof
end

