-- ==== Sys2Proof/Decode.lean ====
section
/-! DEFINITION. The decoder and the encoder, from the formats of 30_encoding.md: format C (R91, R92, R93), format R
(R94), format H (R100, R101), formats B and A (R104, R105, R106). Every format has one fixed length (R108). -/

namespace Sys2Proof

/-! ### Code values -/

/-- `OPC_TX` (R92). -/
def opcTx : Byte := 0x01
/-- `OPC_DISC` (R92). -/
def opcDisc : Byte := 0x02
/-- `OPC_RX` (R92). -/
def opcRx : Byte := 0x03

/-- `RSP_ACK` (R94). -/
def rspAck : Byte := 0x00
/-- `RSP_NACK` (R94). -/
def rspNack : Byte := 0xFF

/-- `HOP_DISCOVERY` (R100). -/
def hopDiscovery : Byte := 0x10
/-- `HOP_TXBYTE` (R100). -/
def hopTxByte : Byte := 0x11
/-- `HOP_RXBYTE` (R100). -/
def hopRxByte : Byte := 0x12
/-- `HOP_MFGID` (R100). -/
def hopMfgId : Byte := 0x13
/-- `HOP_READBLOCK` (R100). -/
def hopReadBlock : Byte := 0x14
/-- `HOP_SETSPEED` (R100). -/
def hopSetSpeed : Byte := 0x15

/-- `BUS_OPC_EEPROM` (R105; general knowledge, D14). PRESUMED (log 9). -/
def busOpcEeprom : BitVec 4 := 0xA
/-- `BUS_OPC_MFGID` (R105; general knowledge, D14). PRESUMED (log 9). -/
def busOpcMfgId : BitVec 4 := 0xC

/-! ### Assembling words -/

/-- Format C, `{opc, 0x0000, payload}` (R91). -/
def requestWord (opc payload : Byte) : Word := opc ++ 0#16 ++ payload

/-- Format H, `{hop, dev, arg1, arg2}` (R100). -/
def hostWord (hop dev arg1 arg2 : Byte) : Word := hop ++ dev ++ arg1 ++ arg2

/-- `DevByte(bopc, dev, rw)` = `{bopc[3:0], dev[2:0], rw}`; only `dev[2:0]` is used (R104, R107). -/
def devByte (bopc : BitVec 4) (dev : Byte) (rw : Bool) : Byte :=
  bopc ++ dev.extractLsb' 0 3 ++ BitVec.ofBool rw

/-! ### Fields -/

/-- Bits 31:24: `opc` of format C (R91), `hop` of format H (R100). -/
def opcodeField (w : Word) : Byte := w.extractLsb' 24 8
/-- Bits 7:0: `payload` of format C (R91), `arg2` of format H (R100). -/
def lowField (w : Word) : Byte := w.extractLsb' 0 8
/-- Bits 15:8: `arg1` of format H (R100). -/
def arg1Field (w : Word) : Byte := w.extractLsb' 8 8
/-- Bits 18:16: the used bits of `dev` of format H (R100). -/
def devField (w : Word) : Byte := (w.extractLsb' 16 3).setWidth 8
/-- Bit 8: `arg1[0]`, the speed index of `setSpeed` (R101). -/
def speedField (w : Word) : Byte := (w.extractLsb' 8 1).setWidth 8
/-- Bits 3:1 of a bus opcode byte: `da` of format B (R104). -/
def busDevField (b : Byte) : Byte := (b.extractLsb' 1 3).setWidth 8

/-! ### Decoding -/

/-- Why a word is no instruction. None of these stops the engine (R95, R102): see `Sys2Proof.Machine.step`. -/
inductive DecodeError where
  /-- Format C with `opc` not in 0x01..0x03 (R95). -/
  | unknownChannelOpcode (opc : Byte)
  /-- Format H with `hop` not in 0x10..0x15 (R102). -/
  | unknownHostOperation (hop : Byte)
  /-- A byte that is none of the three bus opcode bytes the engine builds (R105). -/
  | notABusOpcodeByte (b : Byte)
  deriving DecidableEq, Repr

/-- Format C: bits 31:24 alone select, bits 23:8 are ignored (R91, R95). -/
def decodeChan (w : Word) : Except DecodeError Instr :=
  if opcodeField w = opcTx then .ok (.chanTransmitByte (lowField w))
  else if opcodeField w = opcDisc then .ok .chanDiscovery
  else if opcodeField w = opcRx then .ok (.chanReceiveByte (lowField w))
  else .error (.unknownChannelOpcode (opcodeField w))

/-- Format H: bits 31:24 select; a field not listed for an operation is ignored (R101, R102). -/
def decodeHost (w : Word) : Except DecodeError Instr :=
  if opcodeField w = hopDiscovery then .ok .hostDiscovery
  else if opcodeField w = hopTxByte then .ok (.hostTransmitByte (arg1Field w))
  else if opcodeField w = hopRxByte then .ok .hostReceiveByte
  else if opcodeField w = hopMfgId then .ok (.hostManufacturerId (devField w))
  else if opcodeField w = hopReadBlock then
    .ok (.hostReadBlock (devField w) (arg1Field w) (lowField w))
  else if opcodeField w = hopSetSpeed then .ok (.hostSetSpeed (speedField w))
  else .error (.unknownHostOperation (opcodeField w))

/-- Format B: bits 7:4 and bit 0 select, bits 3:1 are the device address (R104, R105). -/
def decodeBus (b : Byte) : Except DecodeError Instr :=
  if b.extractLsb' 4 4 = busOpcEeprom then
    if b.getLsbD 0 then .ok (.busEepromR (busDevField b)) else .ok (.busEepromW (busDevField b))
  else if b.extractLsb' 4 4 = busOpcMfgId ∧ b.getLsbD 0 = true then .ok (.busMfgidR (busDevField b))
  else .error (.notABusOpcodeByte b)

/-- A word with the format it is read in: the place it is taken from fixes the format (R90). -/
inductive Code where
  /-- Format C, a channel request word. -/
  | chan (w : Word)
  /-- Format H, a host operation word. -/
  | host (w : Word)
  /-- Format B, a bus opcode byte. -/
  | bus (b : Byte)
  deriving DecidableEq, Repr

/-- The decoder: total, and a rejection has a name. -/
def decode : Code → Except DecodeError Instr
  | .chan w => decodeChan w
  | .host w => decodeHost w
  | .bus b => decodeBus b

/-! ### Encoding -/

/-- The words of an instruction, ignored bits written as 0 (R91, R101, R105). -/
def encode : Instr → Code
  | .chanTransmitByte payload => .chan (requestWord opcTx payload)
  | .chanDiscovery => .chan (requestWord opcDisc 0)
  | .chanReceiveByte payload => .chan (requestWord opcRx payload)
  | .hostDiscovery => .host (hostWord hopDiscovery 0 0 0)
  | .hostTransmitByte byte => .host (hostWord hopTxByte 0 byte 0)
  | .hostReceiveByte => .host (hostWord hopRxByte 0 0 0)
  | .hostManufacturerId dev => .host (hostWord hopMfgId dev 0 0)
  | .hostReadBlock dev start length => .host (hostWord hopReadBlock dev start length)
  | .hostSetSpeed speed => .host (hostWord hopSetSpeed 0 speed 0)
  | .busEepromW dev => .bus (devByte busOpcEeprom dev false)
  | .busEepromR dev => .bus (devByte busOpcEeprom dev true)
  | .busMfgidR dev => .bus (devByte busOpcMfgId dev true)

/-! ### The host's numbering -/

/-- The bits of a row of spec/opcode_table.json as the code they are: 8 bits are format B; 32 bits are format C where
bits 31:24 are a channel opcode and format H otherwise (the two code ranges are disjoint, D16). -/
def codeOfTable (nbits w : Nat) : Code :=
  if nbits ≤ 8 then .bus (BitVec.ofNat 8 w)
  else
    match decodeChan (BitVec.ofNat 32 w) with
    | .ok _ => .chan (BitVec.ofNat 32 w)
    | .error _ => .host (BitVec.ofNat 32 w)

/-- The instruction the decoder reads from the bits `w` of a row that has `nbits` bits. -/
def decodeTableWord (nbits w : Nat) : Option Instr :=
  match decode (codeOfTable nbits w) with
  | .ok i => some i
  | .error _ => none

end Sys2Proof
end

