-- ==== Sys2Proof/Machine/State.lean ====
section
/-! DEFINITION. The architectural state (10_state.md rules R20 to R42), as plain data, and its value after reset
(R41, 70_reset_and_hazards.md rule R280). -/

namespace Sys2Proof.Machine

open Sys2Proof

/-- An event of the ghost line trace (R12). Durations are nominal microseconds. -/
inductive Event where
  /-- `Low(d)`: the master drove the line low and held for `d`. -/
  | low (us : Nat)
  /-- `High(d)`: the master released the line and held for `d`. -/
  | high (us : Nat)
  /-- `Sample(b)`: the master sampled the line and saw `b`. -/
  | sample (level : Bool)
  /-- `Irq(0)`, `Irq(1)`: the executor wrote `irq_dis`. -/
  | irq (masked : Bool)
  /-- `Idle(d)`: the dispatch sequencer waited a settle delay of at least `d`. -/
  | idle (us : Nat)
  deriving DecidableEq, Repr

/-- The closed enumeration of error codes (60_exceptions.md rule R241). -/
inductive ErrCode where
  /-- `E_RANGE`: `start + length > 128`. -/
  | range
  /-- `E_NO_DEVICE`: the block's Discovery returned NACK. -/
  | noDevice
  /-- `E_BAD_ADDR`: `dataAddr > 127`. -/
  | badAddr
  /-- `E_WSEL_NACK`: the write-intent bus opcode byte was NACKed. -/
  | wselNack
  /-- `E_ADDR_NACK`: the address byte was NACKed. -/
  | addrNack
  /-- `E_RSEL_NACK`: the read-intent bus opcode byte was NACKed. -/
  | rselNack
  /-- `E_INTEGRITY`: no two of three samples agree. -/
  | integrity
  /-- `E_UNKNOWN_OP`: `hop` outside 0x10..0x15. -/
  | unknownOp
  deriving DecidableEq, Repr

/-- `Result` = `Val(b)` or `Err(e)`; equal exactly when tag and content are (R10). -/
inductive Result where
  | val (b : Byte)
  | err (e : ErrCode)
  deriving DecidableEq, Repr

/-- The executor's stage register `ex_state` (R24). -/
inductive ExState where
  /-- `EX_WAIT`: blocked until `req_slot` is full. -/
  | wait
  /-- `EX_MASK`: request popped, about to set `irq_dis`. -/
  | mask
  /-- `EX_RUN`: running the dispatched operation. -/
  | run
  /-- `EX_UNMASK`: operation finished, about to clear `irq_dis`. -/
  | unmask
  /-- `EX_PUSH`: about to push `ex_rsp`. -/
  | push
  deriving DecidableEq, Repr

/-- A line of the pseudocode of an executor operation (41_bit_codec.md, 42_byte_codec.md, 43_discovery.md; log 11). -/
inductive Act where
  /-- `driveLow()` (R126). -/
  | driveLow
  /-- `releaseHigh()` (R127). -/
  | releaseHigh
  /-- `Delay(us)`, the counter not yet loaded (R121). -/
  | delay (us : Nat)
  /-- `Delay(us)`, the counter running (R121). -/
  | counting (us : Nat)
  /-- `b <- sample()` of `readBit`, followed by `Delay(rest)` and `ackbit <- b` (R142). -/
  | sampleBit (rest : Nat)
  /-- `b <- sample(); ackbit <- b` of `discovery` (R160). -/
  | samplePresence
  /-- `ackbit <- b` (R142). -/
  | setAckbit (b : Bool)
  /-- `sh <- v`, and the bit counter to 0 (R150, R151). -/
  | loadShift (v : Byte)
  /-- `if sh[7] == 1: transmitOne() else: transmitZero()` (R150). -/
  | symbol
  /-- `sh <- trunc_8(sh << 1)` and the next loop count (R150). -/
  | shiftOut
  /-- `sh <- trunc_8(sh << 1) | b` and the next loop count (R151). -/
  | shiftIn
  /-- `ex_rsp <-` the response code of the acknowledge or presence bit (R201, R202). -/
  | respondAck
  /-- `ex_rsp <- sh` (R203). -/
  | respondByte
  /-- `ex_rsp <- RSP_NACK` (R204). -/
  | respondNack
  deriving DecidableEq, Repr

/-- The dispatch sequencer's stage register `d_state` (R25). -/
inductive DState where
  /-- `D_IDLE`: no operation; `op_ready` = 1. -/
  | idle
  /-- `D_RUN`: executing a host operation. -/
  | run
  /-- `D_WAITRSP`: a request is outstanding; blocked until `rsp_slot` is full. -/
  | waitRsp
  /-- `D_DELAY`: counting a settle delay on `dly_d`. -/
  | delay
  /-- `D_DONE`: result registers written; waits for the host to take the result. -/
  | done
  deriving DecidableEq, Repr

/-- Which element of the Read Sample Set a `readByte` is for (R23, R177). -/
inductive Pass where
  | first
  | second
  | third
  deriving DecidableEq, Repr

/-- The dispatch sequencer's sub-position `d_step`: the next line of the pseudocode of 44_protocol_ops.md and
46_host_ops.md (R25; log 11). A line that follows a `Chan` names what is done with its response. -/
inductive DStep where
  /-- The first line of the operation that `op_word` selects (R220). -/
  | entry
  /-- A one-request host operation has its response (R221, R222, R223). -/
  | primitiveRsp
  /-- `readManufacturerId`: the Discovery has its response (R172). -/
  | mfgDisc
  /-- `readManufacturerId`: `MFGID_R` has its response. -/
  | mfgOpcode
  /-- `readManufacturerId`: the response is `b0`. -/
  | mfgByte0
  /-- `readManufacturerId`: the response is `b1`. -/
  | mfgByte1 (b0 : Byte)
  /-- `readManufacturerId`: the response is `b2`. -/
  | mfgByte2 (b0 b1 : Byte)
  /-- `readBlock`: the Discovery has its response (R180). -/
  | blkDisc
  /-- `readBlock`: the test `idx < length`. -/
  | blkLoop
  /-- `loadAddress`: the check of `dataAddr` and the write-intent byte (R171). -/
  | loadAddr (k : Pass)
  /-- `loadAddress`: `EEPROM_W` has its response. -/
  | wsel (k : Pass)
  /-- `loadAddress`: the address byte has its response. -/
  | addr (k : Pass)
  /-- `readByte`: in `Delay(T_SETTLE_A)` (R175). -/
  | settleA (k : Pass)
  /-- `readByte`: the read-intent byte is next. -/
  | rselSend (k : Pass)
  /-- `readByte`: `EEPROM_R` has its response. -/
  | rsel (k : Pass)
  /-- `readByte`: the received byte is in `rsp`. -/
  | received (k : Pass)
  /-- `readByte`: in `Delay(T_SETTLE_B)`. -/
  | settleB (k : Pass)
  /-- `readByte`: `return Val(v)` with `v` in `rsp`. -/
  | returnVal (k : Pass)
  /-- One `Chan(OPC_TX, b)` alone, `b` a bus opcode byte (log 6). -/
  | select (b : Byte)
  /-- Back to `D_IDLE` with no result to write (log 6). -/
  | ret
  deriving DecidableEq, Repr

/-- What the host does at the ports, in order (R40, R220, R228, R280). -/
inductive HostInput where
  /-- Present a host operation word: `op_valid` = 1 with `op_word` = `w`, held until accepted. -/
  | op (w : Word)
  /-- Take the result of the operation that is done. -/
  | take
  /-- `rst` = 1 at one rising edge of `clk`: `n` actions of the engine run before it, counted from when every earlier
  input is done, so that it can fall anywhere in an operation (R280, log 4). -/
  | rst (n : Nat)
  deriving DecidableEq, Repr

/-- The state: the spec's own (R20), the configuration of R6 that a model takes as its argument (log 1), and the two
inputs of R21, the host's and the line environment's (logs 3 and 4). -/
structure State where
  /-- The configuration (R6, R21). No step writes it. -/
  cfg       : Config
  /-- MODEL'S OWN: the host's inputs still to come, the next one first. -/
  hostIn    : List HostInput
  /-- MODEL'S OWN: the levels the line environment presents at the coming samples, the next one first. -/
  lineIn    : List Bool
  /-- MODEL'S OWN: how many samples have been drawn, the index of the free level `Config.lineFree`. -/
  drawn     : Nat
  /-- `cur_req`, 32 bits (R22). -/
  curReq    : Word
  /-- `sh`, 8 bits (R22). -/
  sh        : Byte
  /-- `bitcnt`, 4 bits (R22). -/
  bitcnt    : BitVec 4
  /-- `ackbit`, 1 bit (R22). -/
  ackbit    : Bool
  /-- `ex_rsp`, 8 bits (R22). -/
  exRsp     : Byte
  /-- `ex_state` (R24). -/
  exState   : ExState
  /-- `ex_step`: the lines of the operation still to come, within `EX_RUN` (R24); empty outside it (log 16). -/
  exStep    : List Act
  /-- `irq_dis`, 1 bit (R26). -/
  irqDis    : Bool
  /-- `pin_dir`, 1 bit: 1 = output (R32). -/
  pinDir    : Bool
  /-- `pin_latch`, 1 bit, hardwired 0: no step writes it (R33). -/
  pinLatch  : Bool
  /-- `dly_cnt`, 32 bits (R34). -/
  dlyCnt    : Word
  /-- `op_word`, 32 bits (R23). -/
  opWord    : Word
  /-- `S[0]` (R23). -/
  samp0     : Result
  /-- `S[1]` (R23). -/
  samp1     : Result
  /-- `S[2]` (R23). -/
  samp2     : Result
  /-- `acc`, 32 bits (R23). -/
  acc       : Word
  /-- `idx`, 8 bits (R23). -/
  idx       : Byte
  /-- `cur_addr`, 8 bits (R23). -/
  curAddr   : Byte
  /-- `rsp`, 8 bits (R23). -/
  rsp       : Byte
  /-- `d_state` (R25). -/
  dState    : DState
  /-- `d_step`, within `D_RUN` (R25); in `D_WAITRSP` and `D_DELAY` the line to come, in `D_IDLE` and `D_DONE` `entry`
  (log 16). -/
  dStep     : DStep
  /-- `prof_sel`, 1 bit (R28). -/
  profSel   : BitVec 1
  /-- `dly_d`, 32 bits (R34). -/
  dlyD      : Word
  /-- `buf[0..127]`, bytes (R35), in canonical form: see `bufWf`. -/
  buf       : List Host.Cell
  /-- `res_valid`, 1 bit (R36). -/
  resValid  : Bool
  /-- `res_status`, 8 bits, two's complement (R36). -/
  resStatus : Byte
  /-- `res_data`, 32 bits (R36). -/
  resData   : Word
  /-- `res_len`, 8 bits (R36). -/
  resLen    : Byte
  /-- `req_slot`: empty, or one request word (R37). -/
  reqSlot   : Option Word
  /-- `rsp_slot`: empty, or one response byte (R37). -/
  rspSlot   : Option Byte
  /-- Ghost: the line trace, oldest event first (R12, R38). -/
  trace     : List Event
  /-- Ghost: requests pushed (R38). -/
  reqCount  : Nat
  /-- Ghost: responses popped (R38). -/
  rspCount  : Nat
  deriving DecidableEq, Repr

/-- No fault exists: "Every failure is a returned value ... never a crash or unrecoverable state" (R240), and a blocked
agent "is expected and not a fault" (R206). Nobody raises one; safe. -/
inductive Fault where
  deriving DecidableEq, Repr

/-- Why a meaning gives a run no outcome. -/
inductive Refusal where
  /-- Raised by an arm of `exec` that has no meaning yet; safe. No arm of this model is one. -/
  | notModelled (mnemonic : String)
  /-- Raised by the meaning of a host operation or a bus opcode byte started while a request is outstanding: the spec
  asks a model to refuse that run (R207, R290, R294, 93_implementation_defined.md U4). Safe. `step` never raises it. -/
  | requestOutstanding
  /-- Raised by the meaning of `setSpeed` started while a request is outstanding, a speed change concurrent with an
  operation (R290, R291, 93_implementation_defined.md U3). Safe. `step` never raises it. -/
  | speedChangeInOperation
  deriving DecidableEq, Repr

/-- The state right after reset of an engine with configuration `c` and nothing presented to it (R41). A register for
which R41 gives no value holds 0, `Val(0)` or an empty list: DESIGN CHOICE (log 5). -/
def State.resetOf (c : Config) : State where
  cfg := c
  hostIn := []
  lineIn := []
  drawn := 0
  curReq := 0
  sh := 0
  bitcnt := 0
  ackbit := false
  exRsp := 0
  exState := .wait
  exStep := []
  irqDis := false
  pinDir := false
  pinLatch := false
  dlyCnt := 0
  opWord := 0
  samp0 := .val 0
  samp1 := .val 0
  samp2 := .val 0
  acc := 0
  idx := 0
  curAddr := 0
  rsp := 0
  dState := .idle
  dStep := .entry
  profSel := c.params.defaultSpeed
  dlyD := 0
  buf := []
  resValid := false
  resStatus := 0
  resData := 0
  resLen := 0
  reqSlot := none
  rspSlot := none
  trace := []
  reqCount := 0
  rspCount := 0

/-- The machine right after reset (R41, R280), with the hardware's own, unknown configuration. -/
def State.reset : State := State.resetOf Config.hardware

end Sys2Proof.Machine
end

