-- ==== Sys2Proof/Machine/Ops.lean ====
section
/-! DEFINITION. The named operations the meanings share: the block buffer, the trace, the line driver
(40_timing_line.md), the delays, the command channel (45_channel_executor.md), the host handshake and the end of an
operation with a result or an error (46_host_ops.md rule R220, 60_exceptions.md rules R240, R255). The engine takes no
exception and no interrupt (R240, R257): `finishErr` stands where another machine enters a handler, and there is no
return from one (R256). -/

namespace Sys2Proof.Machine

open Sys2Proof

/-! ### The block buffer (R35, R62) -/

/-- What a byte of `buf` that nothing has written reads as. DESIGN CHOICE (log 5). -/
def bufDefault : Byte := 0

/-- Read of one byte, the port `buf_addr`, `buf_data` (R40). -/
def bufRead : List Host.Cell → Nat → Byte
  | [], _ => bufDefault
  | (k, v) :: rest, a => if k = a then v else bufRead rest a

/-- Write of one byte, keeping the canonical form. -/
def bufWrite : List Host.Cell → Nat → Byte → List Host.Cell
  | [], a, b => if b = bufDefault then [] else [(a, b)]
  | (k, v) :: rest, a, b =>
    if a < k then (if b = bufDefault then (k, v) :: rest else (a, b) :: (k, v) :: rest)
    else if a = k then (if b = bufDefault then rest else (a, b) :: rest)
    else (k, v) :: bufWrite rest a b

/-- Every address is at least `lo` and below 128, addresses rise strictly, no entry is the default. -/
def bufWfFrom : Nat → List Host.Cell → Bool
  | _, [] => true
  | lo, (k, v) :: rest =>
    decide (lo ≤ k) && decide (k < eepromSize) && decide (v ≠ bufDefault) && bufWfFrom (k + 1) rest

/-- The canonical form of `buf`, over the indices 0..127 of R35. -/
def bufWf (m : List Host.Cell) : Bool := bufWfFrom 0 m

/-! ### The trace and the active profile -/

/-- `emit(ev)` (R11, R12). -/
def emit (e : Event) (s : State) : State := { s with trace := s.trace ++ [e] }

/-- The active profile `P = PROFILE[prof_sel]` (R30). -/
def State.profile (s : State) : Profile :=
  if s.profSel = 1 then s.cfg.params.profile1 else s.cfg.params.profile0

/-! ### The line driver (R125 to R131) -/

/-- `driveLow()` (R126). -/
def driveLow (s : State) : State := { s with pinDir := true }

/-- `releaseHigh()` (R127). -/
def releaseHigh (s : State) : State := { s with pinDir := false }

/-- The line level, given the level `others` that everyone else and the pull-up would leave: wired-AND with the
latch while the pin drives (R42, R129). -/
def lineLevel (s : State) (others : Bool) : Bool := if s.pinDir then s.pinLatch && others else others

/-- The level the line environment presents at the next sample: the scripted one, or a free value (R128, U1). -/
def nextLevel (s : State) : Bool :=
  match s.lineIn with
  | b :: _ => b
  | [] => Config.lineFree s.drawn

/-- The environment has answered one sample. -/
def consumeLevel (s : State) : State := { s with lineIn := s.lineIn.tail, drawn := s.drawn + 1 }

/-- The bit `sample()` returns in state `s` (R128): the pin is released first. -/
def sampledBit (s : State) : Bool := lineLevel (releaseHigh s) (nextLevel s)

/-- `sample()` (R128): releases the pin, takes one level, emits `Sample(b)`. -/
def sample (s : State) : State := emit (.sample (sampledBit s)) (consumeLevel (releaseHigh s))

/-! ### Delays (R120 to R124) -/

/-- The cycle count of `Delay(us)`: the exact product `us * CYCLES_PER_US` (R122). -/
def delayCycles (c : Config) (us : Nat) : Word := BitVec.ofNat 32 (us * c.params.cyclesPerUs)

/-- The event of an executor `Delay(us)` (R130). -/
def holdEvent (s : State) (us : Nat) : Event := if s.pinDir then .low us else .high us

/-- `Delay(us)` of the executor, whole: the counter has been loaded, has run to 0 and is idle again, and the event is
emitted (R121, R124, R130). `Sys2Proof.Machine.tick` counts it cycle by cycle. -/
def delayEx (us : Nat) (s : State) : State := emit (holdEvent s us) { s with dlyCnt := 0 }

/-- `Delay(us)` of the dispatch sequencer, whole, on `dly_d` (R121, R130, R175). -/
def delayDispatch (us : Nat) (s : State) : State :=
  emit (.idle us) { s with dlyD := 0, dState := .run }

/-! ### The command channel (R205, R206) -/

/-- No request is outstanding: both slots empty and the executor in `EX_WAIT` (R37, R255). -/
def State.quiet (s : State) : Bool := s.reqSlot.isNone && s.rspSlot.isNone && decide (s.exState = .wait)

/-- The push of `Chan`, into the empty `req_slot` (R206). -/
def pushRequest (opc payload : Byte) (s : State) : State :=
  { s with reqSlot := some (requestWord opc payload), reqCount := s.reqCount + 1, dState := .waitRsp }

/-- `EX_WAIT`: pop the request, if there is one (R200). -/
def popRequest (s : State) : State :=
  match s.reqSlot with
  | some w => { s with curReq := w, reqSlot := none, exState := .mask }
  | none => s

/-- `EX_PUSH`: push the response; it waits while `rsp_slot` is full (R200, R205). -/
def pushResponse (s : State) : State :=
  match s.rspSlot with
  | some _ => s
  | none => { s with rspSlot := some s.exRsp, exState := .wait }

/-- The pop of `Chan`; it waits while `rsp_slot` is empty (R205, R206). -/
def popResponse (s : State) : State :=
  match s.rspSlot with
  | some r => { s with rsp := r, rspSlot := none, rspCount := s.rspCount + 1, dState := .run }
  | none => s

/-! ### The host handshake and the end of an operation (R220) -/

/-- The handshake accepts the word `w`: latch it, clear `res_valid`, enter `D_RUN` at the operation's first line (R25,
R220). -/
def acceptHost (w : Word) (s : State) : State :=
  { s with opWord := w, resValid := false, dState := .run, dStep := .entry, hostIn := s.hostIn.tail }

/-- Write the result registers, set `res_valid`, end the operation (R36, R220). R25 gives no `d_step` outside `D_RUN`;
that it goes back to `entry` here is the model's choice (log 16). -/
def finish (status : Byte) (data : Word) (len : Byte) (s : State) : State :=
  { s with resStatus := status, resData := data, resLen := len, resValid := true, dState := .done,
           dStep := .entry }

/-- The host takes the result: back to `D_IDLE` (R25, R40). -/
def takeResult (s : State) : State := { s with dState := .idle, hostIn := s.hostIn.tail }

/-- `rst` = 1 at a clock edge: every piece of the engine's state takes its reset value; what is outside the engine (the
configuration, the host's further inputs, the line) stays (R280, R281). -/
def resetEngine (s : State) : State :=
  { State.resetOf s.cfg with hostIn := s.hostIn.tail, lineIn := s.lineIn, drawn := s.drawn }

/-! ### The output ports (R40) -/

/-- `sio_oe`. -/
def State.sioOe (s : State) : Bool := s.pinDir
/-- `op_ready` = 1 exactly when `d_state` = `D_IDLE`. -/
def State.opReady (s : State) : Bool := decide (s.dState = .idle)
/-- `buf_data` at `buf_addr`. -/
def State.bufData (s : State) (addr : BitVec 7) : Byte := bufRead s.buf addr.toNat

/-! ### Starting a dispatch-side meaning -/

/-- A dispatch-side operation starts only while no request is outstanding; another run is refused under `why`
(R207, R290; log 14). -/
def whenQuiet (why : Refusal) (f : State → State) (s : State) : Host.Outcome State Fault Refusal :=
  if s.quiet then .next (f s) else .refused why

end Sys2Proof.Machine
end

