-- ==== Sys2Proof/Machine/Operands.lean ====
section
/-! DEFINITION. The operand assemblies (30_encoding.md rule R107) that are not a word format of Decode.lean, and the
presentation of error codes (60_exceptions.md rule R241). -/

namespace Sys2Proof.Machine

open Sys2Proof

/-- `sendAck` = (`payload` ≠ 0) (R93). -/
def sendAckOf (payload : Byte) : Bool := decide (payload ≠ 0)

/-- The payload the dispatch sequencer sends for `sendAck` (R93). -/
def ackPayload (sendAck : Bool) : Byte := if sendAck then 0x01 else 0x00

/-- The manufacturer id `{0x00, b0, b1, b2}` (R65, R107). -/
def packId (b0 b1 b2 : Byte) : Word := 0#8 ++ b0 ++ b1 ++ b2

/-- The block address `start + idx` (R107). The sum is exact: it is at most 127 wherever `readBlock` forms it (R181). -/
def blockAddr (start idx : Byte) : Byte := start + idx

/-- The range check of a block: the exact sum `start + length` exceeds 128 (R181). -/
def blockOutOfRange (start length : Byte) : Bool := decide (start.toNat + length.toNat > eepromSize)

/-- The range check of `loadAddress` (R171, 90_conflicts.md C1). -/
def addrOutOfRange (dataAddr : Byte) : Bool := decide (dataAddr.toNat > 127)

/-- `sh <- trunc_8(sh << 1)` (R13(c)). -/
def shiftLeft (sh : Byte) : Byte := sh <<< 1

/-- `trunc_8(sh << 1) | bit` (R13(d)). -/
def shiftInBit (sh : Byte) (b : Bool) : Byte := shiftLeft sh ||| bitByte b

/-- The error codes as integers (R241). -/
def ErrCode.number : ErrCode → Int
  | .range => -1
  | .noDevice => -2
  | .badAddr => -3
  | .wselNack => -4
  | .addrNack => -5
  | .rselNack => -6
  | .integrity => -7
  | .unknownOp => -8

/-- `res_status` of an error: its code in 8-bit two's complement (R36, R241). -/
def ErrCode.status (e : ErrCode) : Byte := BitVec.ofInt 8 e.number

/-- `finish` with an error: `res_status` = e, `res_data` = 0, `res_len` = 0 (R103, R255). -/
def finishErr (e : ErrCode) (s : State) : State := finish e.status 0 0 s

/-- Write one element of the Read Sample Set (R23, R177). -/
def setSample (k : Pass) (r : Result) (s : State) : State :=
  match k with
  | .first => { s with samp0 := r }
  | .second => { s with samp1 := r }
  | .third => { s with samp2 := r }

end Sys2Proof.Machine
end

