-- ==== Sys2Proof/Machine/Flags.lean ====
section
/-! DEFINITION. The flag-like values (10_state.md rules R26, R27): `irq_dis`, `ackbit`, and the acknowledge coding of a
line bit (00_scope.md rule R10). The engine has no arithmetic condition codes. -/

namespace Sys2Proof.Machine

open Sys2Proof

/-- `Ack` (R10). -/
inductive Ack where
  | ack
  | nack
  deriving DecidableEq, Repr

/-- As a line bit ACK is 0 and NACK is 1 (R10, R143). -/
def ackOfBit (b : Bool) : Ack := if b then .nack else .ack

/-- As a response byte ACK is `RSP_ACK` and NACK is `RSP_NACK` (R10, R94). -/
def rspOfAck : Ack → Byte
  | .ack => rspAck
  | .nack => rspNack

/-- `ackbit <- b` (R142, R160). -/
def setAckbit (b : Bool) (s : State) : State := { s with ackbit := b }

/-- `ex_rsp <- r` (R200). -/
def setResponse (r : Byte) (s : State) : State := { s with exRsp := r }

/-- `EX_MASK`: `irq_dis <- 1; emit(Irq(1))`, unconditionally (R26, R200). -/
def maskIrq (s : State) : State := emit (.irq true) { s with irqDis := true, exState := .run }

/-- `EX_UNMASK`: `irq_dis <- 0; emit(Irq(0))` (R26, R200). R24 gives no `ex_step` outside `EX_RUN`; that it is empty
there is the model's choice (log 16). -/
def unmaskIrq (s : State) : State :=
  emit (.irq false) { s with irqDis := false, exState := .push, exStep := [] }

end Sys2Proof.Machine
end

