-- ==== Sys2Proof/Machine/Codec.lean ====
section
/-! DEFINITION. The bit codec (41_bit_codec.md), the byte codec (42_byte_codec.md) and discovery (43_discovery.md), each
as the whole effect of its pseudocode. They run in the executor only. A procedure that returns a bit or a byte leaves
it in `ackbit` or `sh`, the register its rule writes. -/

namespace Sys2Proof.Machine

open Sys2Proof

/-! ### Bits -/

/-- `transmitOne()` (R140). -/
def transmitOne (s : State) : State :=
  delayEx (s.profile.tBit - s.profile.tLow1) (releaseHigh (delayEx s.profile.tLow1 (driveLow s)))

/-- `transmitZero()` (R141). -/
def transmitZero (s : State) : State :=
  delayEx (s.profile.tBit - s.profile.tLow0) (releaseHigh (delayEx s.profile.tLow0 (driveLow s)))

/-- The remainder of the bit period after a read pulse and the recovery (R142). -/
def readRest (p : Profile) : Nat := p.tBit - p.tRd - p.tMr

/-- The state of `readBit()` at the sample instant (R142). -/
def beforeSample (s : State) : State :=
  delayEx s.profile.tMr (releaseHigh (delayEx s.profile.tRd (driveLow s)))

/-- `readBit()` (R142): the bit is in `ackbit`. -/
def readBit (s : State) : State :=
  setAckbit (sampledBit (beforeSample s)) (delayEx (readRest s.profile) (sample (beforeSample s)))

/-- `readAckNack()` (R143): one `readBit()`; the acknowledge is `ackOfBit` of `ackbit`. -/
def readAckNack (s : State) : State := readBit s

/-! ### Bytes -/

/-- `sh <- v` before the loop over `bitcnt` (R150, R151). -/
def loadShift (v : Byte) (s : State) : State := { s with sh := v, bitcnt := 0 }

/-- `if sh[7] == 1: transmitOne() else: transmitZero()` (R150). -/
def transmitSymbol (s : State) : State := if s.sh.msb then transmitOne s else transmitZero s

/-- `sh <- trunc_8(sh << 1)`, next loop count (R150). -/
def shiftOut (s : State) : State := { s with sh := shiftLeft s.sh, bitcnt := s.bitcnt + 1 }

/-- `sh <- trunc_8(sh << 1) | b`, next loop count (R151). -/
def shiftIn (s : State) : State := { s with sh := shiftInBit s.sh s.ackbit, bitcnt := s.bitcnt + 1 }

/-- `n` turns of the loop of `transmitByte` (R150). -/
def transmitBits : Nat → State → State
  | 0, s => s
  | n + 1, s => transmitBits n (shiftOut (transmitSymbol s))

/-- `transmitByte(byte)` (R150): the acknowledge is `ackOfBit` of `ackbit`. -/
def transmitByte (byte : Byte) (s : State) : State := readAckNack (transmitBits 8 (loadShift byte s))

/-- `n` turns of the loop of `receiveByte` (R151). -/
def receiveBits : Nat → State → State
  | 0, s => s
  | n + 1, s => receiveBits n (shiftIn (readBit s))

/-- The acknowledge symbol the reader sends: zero for ACK, one for NACK (R151). -/
def sendAckSymbol (sendAck : Bool) (s : State) : State := if sendAck then transmitZero s else transmitOne s

/-- `receiveByte(sendAck)` (R151): the byte is in `sh`. -/
def receiveByte (sendAck : Bool) (s : State) : State :=
  sendAckSymbol sendAck (receiveBits 8 (loadShift 0 s))

/-! ### Discovery -/

/-- The state of `discovery()` at the sample instant (R160). -/
def beforePresence (s : State) : State :=
  delayEx s.cfg.params.tDscSmp (releaseHigh
    (delayEx s.cfg.params.tDscReq (driveLow
      (delayEx s.cfg.params.tDscRec (releaseHigh
        (delayEx s.cfg.params.tDscReset (driveLow
          (delayEx s.cfg.params.tDscStart (releaseHigh s)))))))))

/-- `discovery()` (R160): the presence bit is in `ackbit`, 0 = a device answered. -/
def discovery (s : State) : State :=
  delayEx s.cfg.params.tDscEnd (setAckbit (sampledBit (beforePresence s)) (sample (beforePresence s)))

end Sys2Proof.Machine
end

