-- ==== Sys2Proof/Machine/Executor.lean ====
section
/-! DEFINITION. The executor loop and the three channel requests (45_channel_executor.md rules R200 to R204). A meaning
`execChan…` starts at `EX_MASK`, the request word already popped into `cur_req`. -/

namespace Sys2Proof.Machine

open Sys2Proof

/-- The response code of the acknowledge or presence bit (R201, R202). -/
def respondAck (s : State) : State := setResponse (rspOfAck (ackOfBit s.ackbit)) s

/-- The response of a received byte is the byte (R203). -/
def respondByte (s : State) : State := setResponse s.sh s

/-- `TransmitByte` in `EX_RUN` (R202). -/
def runTransmitByte (payload : Byte) (s : State) : State := respondAck (transmitByte payload s)

/-- `Discovery` in `EX_RUN` (R201). -/
def runDiscovery (s : State) : State := respondAck (discovery s)

/-- `ReceiveByte` in `EX_RUN` (R203). -/
def runReceiveByte (payload : Byte) (s : State) : State := respondByte (receiveByte (sendAckOf payload) s)

/-- An unknown channel opcode in `EX_RUN`: `ex_rsp <- RSP_NACK`, no line action (R95, R204). -/
def runUnknown (s : State) : State := setResponse rspNack s

/-- `EX_MASK`, `EX_RUN` with `body`, `EX_UNMASK`, `EX_PUSH`, in that order (R200). -/
def serve (body : State → State) (s : State) : State := pushResponse (unmaskIrq (body (maskIrq s)))

/-- The `case` of `EX_RUN`: the opcode of `cur_req` alone selects (R91, R200). -/
def runRequest (s : State) : State :=
  if opcodeField s.curReq = opcTx then runTransmitByte (lowField s.curReq) s
  else if opcodeField s.curReq = opcDisc then runDiscovery s
  else if opcodeField s.curReq = opcRx then runReceiveByte (lowField s.curReq) s
  else runUnknown s

/-- One turn of the executor's loop, from `EX_WAIT` with a request to `EX_WAIT` (R200, R211). -/
def executorTurn (s : State) : State := serve runRequest (popRequest s)

/-- `TransmitByte` (R202). -/
def execChanTransmitByte (payload : Byte) (s : State) : Host.Outcome State Fault Refusal :=
  .next (serve (runTransmitByte payload) s)

/-- `Discovery` (R201). -/
def execChanDiscovery (s : State) : Host.Outcome State Fault Refusal := .next (serve runDiscovery s)

/-- `ReceiveByte` (R203). -/
def execChanReceiveByte (payload : Byte) (s : State) : Host.Outcome State Fault Refusal :=
  .next (serve (runReceiveByte payload) s)

/-- A request word that is no instruction (R95, R204). -/
def execChanUnknown (s : State) : Host.Outcome State Fault Refusal := .next (serve runUnknown s)

end Sys2Proof.Machine
end

