-- ==== Sys2Proof/Machine/Protocol.lean ====
section
/-! DEFINITION. The protocol procedures of the dispatch sequencer (44_protocol_ops.md), which reach the wire only
through `chan` (45_channel_executor.md rule R206), and the three bus opcode bytes they build. A procedure that can fail
answers `some e` for `Err(e)` and `none` for `Ok`. -/

namespace Sys2Proof.Machine

open Sys2Proof

/-- `Chan(opc, payload)`: push, one executor turn, pop; the response is in `rsp` (R206, R211). -/
def chan (opc payload : Byte) (s : State) : State := popResponse (executorTurn (pushRequest opc payload s))

/-- `Chan(OPC_TX, EEPROM_W)` (R105, R171). -/
def sendEepromW (dev : Byte) (s : State) : State := chan opcTx (devByte busOpcEeprom dev false) s

/-- `Chan(OPC_TX, EEPROM_R)` (R105, R175). -/
def sendEepromR (dev : Byte) (s : State) : State := chan opcTx (devByte busOpcEeprom dev true) s

/-- `Chan(OPC_TX, MFGID_R)` (R105, R172). -/
def sendMfgidR (dev : Byte) (s : State) : State := chan opcTx (devByte busOpcMfgId dev true) s

/-- `loadAddress(dev, dataAddr)` (R171). -/
def loadAddress (dev dataAddr : Byte) (s : State) : Option ErrCode × State :=
  if addrOutOfRange dataAddr then (some .badAddr, s)
  else
    let s1 := sendEepromW dev s
    if s1.rsp ≠ rspAck then (some .wselNack, s1)
    else
      let s2 := chan opcTx dataAddr s1
      if s2.rsp ≠ rspAck then (some .addrNack, s2) else (none, s2)

/-- `readByte(dev, dataAddr)` (R175). -/
def readByte (dev dataAddr : Byte) (s : State) : Result × State :=
  match loadAddress dev dataAddr s with
  | (some e, s1) => (.err e, s1)
  | (none, s1) =>
    let s2 := sendEepromR dev (delayDispatch s1.cfg.params.tSettleA s1)
    if s2.rsp ≠ rspAck then (.err .rselNack, s2)
    else
      let s3 := chan opcRx (ackPayload false) s2
      (.val s3.rsp, delayDispatch s3.cfg.params.tSettleB s3)

/-- `S[k] <- readByte(dev, dataAddr)` (R177). -/
def takeSample (k : Pass) (dev dataAddr : Byte) (s : State) : State :=
  setSample k (readByte dev dataAddr s).1 (readByte dev dataAddr s).2

/-- The vote over three samples, of which the first two differ (R177). -/
def voteThird (s : State) : Result :=
  if s.samp0 = s.samp2 then s.samp0 else if s.samp1 = s.samp2 then s.samp1 else .err .integrity

/-- `verifiedRead(dev, dataAddr)` (R177). -/
def verifiedRead (dev dataAddr : Byte) (s : State) : Result × State :=
  let s2 := takeSample .second dev dataAddr (takeSample .first dev dataAddr s)
  if s2.samp0 = s2.samp1 then (s2.samp0, s2)
  else
    let s3 := takeSample .third dev dataAddr s2
    (voteThird s3, s3)

/-- `buf[idx] <- b; idx <- idx + 1` (R180). -/
def storeByte (b : Byte) (s : State) : State :=
  { s with buf := bufWrite s.buf s.idx.toNat b, idx := s.idx + 1 }

/-- `cur_addr <- start + idx` (R180). -/
def setCurAddr (start : Byte) (s : State) : State := { s with curAddr := blockAddr start s.idx }

/-- `idx <- 0` (R180). -/
def clearIdx (s : State) : State := { s with idx := 0 }

/-- The block loop with `n` addresses to go (R180). -/
def blockLoop (dev start : Byte) : Nat → State → Option ErrCode × State
  | 0, s => (none, s)
  | n + 1, s =>
    match verifiedRead dev (setCurAddr start s).curAddr (setCurAddr start s) with
    | (.err e, s1) => (some e, s1)
    | (.val b, s1) => blockLoop dev start n (storeByte b s1)

/-- `readBlock(dev, start, length)` (R180). -/
def readBlock (dev start length : Byte) (s : State) : Option ErrCode × State :=
  if blockOutOfRange start length then (some .range, s)
  else
    let s1 := chan opcDisc 0 s
    if s1.rsp ≠ rspAck then (some .noDevice, s1)
    else blockLoop dev start length.toNat (clearIdx s1)

/-- `acc <- {0x00, b0, b1, b2}` (R172). -/
def setAcc (b0 b1 b2 : Byte) (s : State) : State := { s with acc := packId b0 b1 b2 }

/-- The three bytes of a manufacturer id, acknowledged ACK, ACK, NACK, packed into `acc` (R172). -/
def receiveId (s : State) : State :=
  let s1 := chan opcRx (ackPayload true) s
  let s2 := chan opcRx (ackPayload true) s1
  let s3 := chan opcRx (ackPayload false) s2
  setAcc s1.rsp s2.rsp s3.rsp s3

/-- `readManufacturerId(dev)` (R172): the id, 0 where the Discovery or the opcode byte is NACKed. -/
def readManufacturerId (dev : Byte) (s : State) : Word × State :=
  let s1 := chan opcDisc 0 s
  if s1.rsp ≠ rspAck then (0, s1)
  else
    let s2 := sendMfgidR dev s1
    if s2.rsp ≠ rspAck then (0, s2) else ((receiveId s2).acc, receiveId s2)

/-- `EEPROM_W` (R105, R171): the dispatch sequencer sends the byte; the response is in `rsp` (log 6). -/
def execBusEepromW (dev : Byte) (s : State) : Host.Outcome State Fault Refusal :=
  whenQuiet .requestOutstanding (sendEepromW dev) s

/-- `EEPROM_R` (R105, R175; log 6). -/
def execBusEepromR (dev : Byte) (s : State) : Host.Outcome State Fault Refusal :=
  whenQuiet .requestOutstanding (sendEepromR dev) s

/-- `MFGID_R` (R105, R172; log 6). -/
def execBusMfgidR (dev : Byte) (s : State) : Host.Outcome State Fault Refusal :=
  whenQuiet .requestOutstanding (sendMfgidR dev) s

/-- A raw byte the engine does not build, sent as it is (R63; log 6). -/
def execBusRaw (b : Byte) (s : State) : Host.Outcome State Fault Refusal :=
  whenQuiet .requestOutstanding (chan opcTx b) s

end Sys2Proof.Machine
end

