-- ==== Sys2Proof/Machine/HostOps.lean ====
section
/-! DEFINITION. The six host operations (46_host_ops.md rules R221 to R227). A meaning starts with the word accepted
(`acceptHost`) and ends with the result registers written and `res_valid` set. -/

namespace Sys2Proof.Machine

open Sys2Proof

/-- A host operation that is one channel request: its result is the response (R221, R222, R223). -/
def singleRequest (opc payload : Byte) (s : State) : State :=
  finish 0 (zext32 (chan opc payload s).rsp) 0 (chan opc payload s)

/-- The end of `manufacturerId` (R224). -/
def finishManufacturerId (dev : Byte) (s : State) : State :=
  finish 0 (readManufacturerId dev s).1 0 (readManufacturerId dev s).2

/-- The end of a block read: `Ok` gives the length, `Err(e)` the code (R225). -/
def finishBlock (length : Byte) : Option ErrCode × State → State
  | (none, s) => finish 0 0 length s
  | (some e, s) => finishErr e s

/-- `prof_sel <- speed[0]` (R226). -/
def setSpeed (speed : Byte) (s : State) : State := { s with profSel := speed.extractLsb' 0 1 }

/-- `discovery` (R221). -/
def execHostDiscovery (s : State) : Host.Outcome State Fault Refusal :=
  whenQuiet .requestOutstanding (singleRequest opcDisc 0) s

/-- `transmitByte byte=b` (R222). -/
def execHostTransmitByte (byte : Byte) (s : State) : Host.Outcome State Fault Refusal :=
  whenQuiet .requestOutstanding (singleRequest opcTx byte) s

/-- `receiveByte` (R223). -/
def execHostReceiveByte (s : State) : Host.Outcome State Fault Refusal :=
  whenQuiet .requestOutstanding (singleRequest opcRx (ackPayload rxDefaultAck)) s

/-- `manufacturerId dev=d` (R224). -/
def execHostManufacturerId (dev : Byte) (s : State) : Host.Outcome State Fault Refusal :=
  whenQuiet .requestOutstanding (finishManufacturerId dev) s

/-- `readBlock dev=d start=s len=n` (R225). -/
def execHostReadBlock (dev start length : Byte) (s : State) : Host.Outcome State Fault Refusal :=
  whenQuiet .requestOutstanding (fun s => finishBlock length (readBlock dev start length s)) s

/-- `setSpeed speed=s` (R226). -/
def execHostSetSpeed (speed : Byte) (s : State) : Host.Outcome State Fault Refusal :=
  whenQuiet .speedChangeInOperation (fun s => finish 0 0 0 (setSpeed speed s)) s

/-- A host word that is no operation (R102, R227). -/
def execHostUnknown (s : State) : Host.Outcome State Fault Refusal := .next (finishErr .unknownOp s)

end Sys2Proof.Machine
end

