-- ==== Sys2Proof/Machine/Dispatch.lean ====
section
/-! DEFINITION. The dispatch of an instruction to its meaning: one arm per constructor of Instr. -/

namespace Sys2Proof.Machine

open Sys2Proof

def exec (i : Instr) (s : State) : Host.Outcome State Fault Refusal :=
  match i with
  | .chanTransmitByte payload => Sys2Proof.Machine.execChanTransmitByte payload s
  | .chanDiscovery => Sys2Proof.Machine.execChanDiscovery s
  | .chanReceiveByte payload => Sys2Proof.Machine.execChanReceiveByte payload s
  | .hostDiscovery => Sys2Proof.Machine.execHostDiscovery s
  | .hostTransmitByte byte => Sys2Proof.Machine.execHostTransmitByte byte s
  | .hostReceiveByte => Sys2Proof.Machine.execHostReceiveByte s
  | .hostManufacturerId dev => Sys2Proof.Machine.execHostManufacturerId dev s
  | .hostReadBlock dev start length => Sys2Proof.Machine.execHostReadBlock dev start length s
  | .hostSetSpeed speed => Sys2Proof.Machine.execHostSetSpeed speed s
  | .busEepromW dev => Sys2Proof.Machine.execBusEepromW dev s
  | .busEepromR dev => Sys2Proof.Machine.execBusEepromR dev s
  | .busMfgidR dev => Sys2Proof.Machine.execBusMfgidR dev s

end Sys2Proof.Machine
end

