-- ==== Sys2Proof/Machine/Tick.lean ====
section
/-! DEFINITION. The engine action by action: the executor (10_state.md rule R24, 45_channel_executor.md rule R200) and
the dispatch sequencer (10_state.md rule R25, 44_protocol_ops.md, 46_host_ops.md) as the two state machines they are,
one pseudocode line or one clock cycle of a delay at a time. `step` runs a whole instruction where one starts and
otherwise one `tick` (log 8); 45_channel_executor.md rule R211 is why the two views agree, and the obligations say that
they do. -/

namespace Sys2Proof.Machine

open Sys2Proof

/-! ### The lines of the executor operations -/

/-- `transmitOne()` and `transmitZero()` (R140, R141). -/
def symbolActs (p : Profile) (bit : Bool) : List Act :=
  if bit then [.driveLow, .delay p.tLow1, .releaseHigh, .delay (p.tBit - p.tLow1)]
  else [.driveLow, .delay p.tLow0, .releaseHigh, .delay (p.tBit - p.tLow0)]

/-- `readBit()` (R142). -/
def readBitActs (p : Profile) : List Act :=
  [.driveLow, .delay p.tRd, .releaseHigh, .delay p.tMr, .sampleBit (readRest p)]

/-- `n` copies of a loop body. -/
def repeatActs (body : List Act) : Nat → List Act
  | 0 => []
  | n + 1 => body ++ repeatActs body n

/-- `TransmitByte` (R150, R202). -/
def transmitByteActs (p : Profile) (byte : Byte) : List Act :=
  .loadShift byte :: (repeatActs [.symbol, .shiftOut] 8 ++ (readBitActs p ++ [.respondAck]))

/-- `ReceiveByte` (R151, R203). -/
def receiveByteActs (p : Profile) (sendAck : Bool) : List Act :=
  .loadShift 0 :: (repeatActs (readBitActs p ++ [.shiftIn]) 8 ++ (symbolActs p (!sendAck) ++ [.respondByte]))

/-- `Discovery` (R160, R201). -/
def discoveryActs (c : Params) : List Act :=
  [.releaseHigh, .delay c.tDscStart, .driveLow, .delay c.tDscReset, .releaseHigh, .delay c.tDscRec,
   .driveLow, .delay c.tDscReq, .releaseHigh, .delay c.tDscSmp, .samplePresence, .delay c.tDscEnd, .respondAck]

/-- The operation that the opcode of `cur_req` selects (R200); the profile is read here, once (R145). -/
def requestActs (s : State) : List Act :=
  if opcodeField s.curReq = opcTx then transmitByteActs s.profile (lowField s.curReq)
  else if opcodeField s.curReq = opcDisc then discoveryActs s.cfg.params
  else if opcodeField s.curReq = opcRx then receiveByteActs s.profile (sendAckOf (lowField s.curReq))
  else [.respondNack]

/-! ### One action of the executor -/

/-- Put lines before the ones still to come. -/
def pushActs (l : List Act) (s : State) : State := { s with exStep := l ++ s.exStep }

/-- One line, already taken off `ex_step`. A running delay takes one cycle a tick and gives way to the next line when
its counter is 0 (R121). -/
def doAct : Act → State → State
  | .driveLow, s => driveLow s
  | .releaseHigh, s => releaseHigh s
  | .delay us, s => pushActs [.counting us] { s with dlyCnt := delayCycles s.cfg us }
  | .counting us, s =>
    if s.dlyCnt = 0 then emit (holdEvent s us) s
    else pushActs [.counting us] { s with dlyCnt := s.dlyCnt - 1 }
  | .sampleBit rest, s => pushActs [.delay rest, .setAckbit (sampledBit s)] (sample s)
  | .samplePresence, s => setAckbit (sampledBit s) (sample s)
  | .setAckbit b, s => setAckbit b s
  | .loadShift v, s => loadShift v s
  | .symbol, s => pushActs (symbolActs s.profile s.sh.msb) s
  | .shiftOut, s => shiftOut s
  | .shiftIn, s => shiftIn s
  | .respondAck, s => respondAck s
  | .respondByte, s => respondByte s
  | .respondNack, s => setResponse rspNack s

/-- `EX_RUN`: the next line, or the end of the operation (R24). -/
def runLine (s : State) : State :=
  match s.exStep with
  | [] => { s with exState := .unmask }
  | a :: rest => doAct a { s with exStep := rest }

/-- One action of the executor, by stage (R200). -/
def tickExecutor (s : State) : State :=
  match s.exState with
  | .wait => popRequest s
  | .mask => { maskIrq s with exStep := requestActs s }
  | .run => runLine s
  | .unmask => unmaskIrq s
  | .push => pushResponse s

/-- The executor is not blocked: in `EX_WAIT` it needs a request, in `EX_PUSH` an empty slot (R205). -/
def executorReady (s : State) : Bool :=
  match s.exState with
  | .wait => s.reqSlot.isSome
  | .mask => true
  | .run => true
  | .unmask => true
  | .push => s.rspSlot.isNone

/-! ### One action of the dispatch sequencer -/

/-- Go to a line. While a request is outstanding or a settle delay runs, `d_step` holds the line to come (log 16). -/
def goto (d : DStep) (s : State) : State := { s with dStep := d }

/-- The push of a `Chan` whose response `next` handles; it waits while `req_slot` is full (R205, R206). -/
def request (opc payload : Byte) (next : DStep) (s : State) : State :=
  match s.reqSlot with
  | some _ => s
  | none => pushRequest opc payload (goto next s)

/-- Start a settle delay on `dly_d` (R121, R175). -/
def startSettle (us : Nat) (d : DStep) (s : State) : State :=
  { s with dlyD := delayCycles s.cfg us, dState := .delay, dStep := d }

/-- The first line of the operation `op_word` selects (R220, R227). -/
def startOperation (s : State) : State :=
  match decodeHost s.opWord with
  | .ok .hostDiscovery => request opcDisc 0 .primitiveRsp s
  | .ok (.hostTransmitByte byte) => request opcTx byte .primitiveRsp s
  | .ok .hostReceiveByte => request opcRx (ackPayload rxDefaultAck) .primitiveRsp s
  | .ok (.hostManufacturerId _) => request opcDisc 0 .mfgDisc s
  | .ok (.hostReadBlock _ start length) =>
    if blockOutOfRange start length then finishErr .range s else request opcDisc 0 .blkDisc s
  | .ok (.hostSetSpeed speed) => finish 0 0 0 (setSpeed speed s)
  | _ => finishErr .unknownOp s

/-- `verifiedRead` returns to the block loop (R177, R180). -/
def endVerified (r : Result) (s : State) : State :=
  match r with
  | .err e => finishErr e s
  | .val b => goto .blkLoop (storeByte b s)

/-- `readByte` returns `r` as element `k` of the sample set (R177). -/
def endRead (k : Pass) (r : Result) (s : State) : State :=
  match k with
  | .first => goto (.loadAddr .second) (setSample .first r s)
  | .second =>
    if (setSample .second r s).samp0 = (setSample .second r s).samp1 then
      endVerified (setSample .second r s).samp0 (setSample .second r s)
    else goto (.loadAddr .third) (setSample .second r s)
  | .third => endVerified (voteThird (setSample .third r s)) (setSample .third r s)

/-- The line `d_step` names, in `D_RUN`. The device, start address and length are the fields of `op_word`. -/
def runDispatchLine (s : State) : State :=
  match s.dStep with
  | .entry => startOperation s
  | .primitiveRsp => finish 0 (zext32 s.rsp) 0 s
  | .mfgDisc =>
    if s.rsp ≠ rspAck then finish 0 0 0 s
    else request opcTx (devByte busOpcMfgId (devField s.opWord) true) .mfgOpcode s
  | .mfgOpcode => if s.rsp ≠ rspAck then finish 0 0 0 s else request opcRx (ackPayload true) .mfgByte0 s
  | .mfgByte0 => request opcRx (ackPayload true) (.mfgByte1 s.rsp) s
  | .mfgByte1 b0 => request opcRx (ackPayload false) (.mfgByte2 b0 s.rsp) s
  | .mfgByte2 b0 b1 => finish 0 (setAcc b0 b1 s.rsp s).acc 0 (setAcc b0 b1 s.rsp s)
  | .blkDisc => if s.rsp ≠ rspAck then finishErr .noDevice s else goto .blkLoop (clearIdx s)
  | .blkLoop =>
    if s.idx.toNat < (lowField s.opWord).toNat then
      goto (.loadAddr .first) (setCurAddr (arg1Field s.opWord) s)
    else finish 0 0 (lowField s.opWord) s
  | .loadAddr k =>
    if addrOutOfRange s.curAddr then endRead k (.err .badAddr) s
    else request opcTx (devByte busOpcEeprom (devField s.opWord) false) (.wsel k) s
  | .wsel k => if s.rsp ≠ rspAck then endRead k (.err .wselNack) s else request opcTx s.curAddr (.addr k) s
  | .addr k =>
    if s.rsp ≠ rspAck then endRead k (.err .addrNack) s
    else startSettle s.cfg.params.tSettleA (.settleA k) s
  | .rselSend k => request opcTx (devByte busOpcEeprom (devField s.opWord) true) (.rsel k) s
  | .rsel k =>
    if s.rsp ≠ rspAck then endRead k (.err .rselNack) s
    else request opcRx (ackPayload false) (.received k) s
  | .received k => startSettle s.cfg.params.tSettleB (.settleB k) s
  | .returnVal k => endRead k (.val s.rsp) s
  | .select b => request opcTx b .ret s
  | .ret => { s with dState := .idle, dStep := .entry }
  | .settleA _ => s
  | .settleB _ => s

/-- The settle delay has run out: emit `Idle` and go on (R121, R130). -/
def endSettle (us : Nat) (d : DStep) (s : State) : State := goto d (delayDispatch us s)

/-- One cycle of a settle delay on `dly_d` (R121). -/
def countSettle (s : State) : State :=
  if s.dlyD = 0 then
    match s.dStep with
    | .settleA k => endSettle s.cfg.params.tSettleA (.rselSend k) s
    | .settleB k => endSettle s.cfg.params.tSettleB (.returnVal k) s
    | _ => s
  else { s with dlyD := s.dlyD - 1 }

/-- One action of the dispatch sequencer, by stage (R25). In `D_IDLE` it waits for a host word, in `D_DONE` for the
host to take the result (R220). -/
def tickDispatch (s : State) : State :=
  match s.dState with
  | .idle =>
    match s.hostIn with
    | .op w :: _ => acceptHost w s
    | .take :: _ => takeResult s
    | _ => s
  | .run => runDispatchLine s
  | .waitRsp => popResponse s
  | .delay => countSettle s
  | .done =>
    match s.hostIn with
    | .take :: _ => takeResult s
    | _ => s

/-- One action of one of the sequencers: the executor if it can move, else the dispatch sequencer. Under the alternation
of R207 at most one of the two can. Where neither can, the engine waits (R206, U17). -/
def tickSequencers (s : State) : State := if executorReady s then tickExecutor s else tickDispatch s

/-- The host's inputs with one action less before the reset that is next. -/
def countDown : List HostInput → List HostInput
  | .rst (n + 1) :: rest => .rst n :: rest
  | l => l

/-- `rst` = 1 at this edge. -/
def resetNow (s : State) : Bool := decide (s.hostIn.head? = some (.rst 0))

/-- One action of the engine: reset first, whatever the sequencers are doing (R280), else one action of theirs. -/
def tick (s : State) : State :=
  if resetNow s then resetEngine s else tickSequencers { s with hostIn := countDown s.hostIn }

/-- `n` ticks. -/
def ticks : Nat → State → State
  | 0, s => s
  | n + 1, s => ticks n (tick s)

end Sys2Proof.Machine
end

