-- ==== Sys2Proof/Machine/Fetch.lean ====
section
/-! DEFINITION. Where the next instruction stands: a request word in `req_slot` for the executor (R200), a bus opcode
byte on the dispatch sequencer's line `select`, a host word presented while `op_ready` = 1 (R220). -/

namespace Sys2Proof.Machine

open Sys2Proof

/-- The next of these inputs is a reset, at this edge or some actions from now. -/
def resetNext : List HostInput → Bool
  | .rst _ :: _ => true
  | _ => false

/-- A reset is the host's next input. Until it falls the engine runs action by action (R280, log 4). -/
def resetAwaited (s : State) : Bool := resetNext s.hostIn

/-- The host word that the handshake accepts now: `op_valid` = 1 and `op_ready` = 1, nothing outstanding (R220). Where a
reset follows it, the operation does not run whole: `tick` accepts the word and takes the actions before the reset
(R280). -/
def presentedWord (s : State) : Option Word :=
  match s.hostIn with
  | .op w :: rest => if s.dState = .idle ∧ s.quiet = true ∧ resetNext rest = false then some w else none
  | _ => none

/-- The bus opcode byte that the dispatch sequencer sends now. -/
def selectByte (s : State) : Option Byte :=
  match s.dStep with
  | .select b => if s.dState = .run ∧ s.quiet = true then some b else none
  | _ => none

/-- The request word that the executor pops now (R200). -/
def pendingRequest (s : State) : Option Word := if s.exState = .wait then s.reqSlot else none

/-- The instruction that starts now, and the state in which its meaning starts. None starts while a reset is awaited: it
may fall within the instruction (R280). -/
def fetch (s : State) : Option (Code × State) :=
  if resetAwaited s then none
  else
    match pendingRequest s with
    | some w => some (.chan w, popRequest s)
    | none =>
      match selectByte s with
      | some b => some (.bus b, goto .ret s)
      | none =>
        match presentedWord s with
        | some w => some (.host w, acceptHost w s)
        | none => none

/-- What the engine does with a word that is no instruction: it goes on (R95, R102, R204, R227). -/
def runUnknownCode (c : Code) (s : State) : Host.Outcome State Fault Refusal :=
  match c with
  | .chan _ => execChanUnknown s
  | .host _ => execHostUnknown s
  | .bus b => execBusRaw b s

/-- The host's inputs without the resets it presents first. -/
def withoutResets : List HostInput → List HostInput
  | .rst _ :: rest => withoutResets rest
  | l => l

/-- The state with code `c` where `fetch` finds it. A host word is presented while `op_ready` = 1; a request word is
outstanding, as the dispatch sequencer's push leaves it; a bus opcode byte is on the sequencer's line (log 7). -/
def placeCode (c : Code) (s : State) : State :=
  match c with
  | .chan w =>
    { s with hostIn := withoutResets s.hostIn, reqSlot := some w, rspSlot := none, exState := .wait,
             dState := .waitRsp, dStep := .ret, reqCount := s.reqCount + 1 }
  | .host w =>
    { s with hostIn := .op w :: withoutResets s.hostIn, reqSlot := none, rspSlot := none, exState := .wait,
             dState := .idle, dStep := .entry }
  | .bus b =>
    { s with hostIn := withoutResets s.hostIn, reqSlot := none, rspSlot := none, exState := .wait,
             dState := .run, dStep := .select b }

end Sys2Proof.Machine
end

