-- ==== Sys2Proof/Machine/Step.lean ====
section
/-! DEFINITION. One step of the engine: the whole instruction where one starts, otherwise one tick. -/

namespace Sys2Proof.Machine

open Sys2Proof

/-- Where an instruction starts (`fetch`), it runs whole (R211, R220); a word that is no instruction has the effect the
spec gives it (R204, R227); where none starts, the engine takes one action of `tick`. -/
def step (s : State) : Host.Outcome State Fault Refusal :=
  match fetch s with
  | some (c, s') =>
    match decode c with
    | .ok i => exec i s'
    | .error _ => runUnknownCode c s'
  | none => .next (tick s)

/-- `s` with the bits `w` of an opcode-table row placed where `step` fetches next. -/
def State.withFetchWord (s : State) (nbits w : Nat) : State := placeCode (codeOfTable nbits w) s

end Sys2Proof.Machine
end

