-- ==== Sys2Proof/Safety.lean ====
section
/-! DEFINITION. What a safe run keeps: the invariant of the engine (10_state.md rules R23 to R38,
45_channel_executor.md rules R207, R208), the quiescent states of 46_host_ops.md rule R229, the masking discipline of
the trace (70_reset_and_hazards.md rule R292) and nominal time (rule R300). -/

namespace Sys2Proof.Machine

open Sys2Proof

/-- The pin is released when the lines `l` are done, if its direction is `dir` before them. -/
def endsReleased : Bool → List Act → Bool
  | dir, [] => !dir
  | _, .driveLow :: l => endsReleased true l
  | _, .releaseHigh :: l => endsReleased false l
  | _, .sampleBit _ :: l => endsReleased false l
  | _, .samplePresence :: l => endsReleased false l
  | _, .symbol :: l => endsReleased false l
  | dir, .delay _ :: l => endsReleased dir l
  | dir, .counting _ :: l => endsReleased dir l
  | dir, .setAckbit _ :: l => endsReleased dir l
  | dir, .loadShift _ :: l => endsReleased dir l
  | dir, .shiftOut :: l => endsReleased dir l
  | dir, .shiftIn :: l => endsReleased dir l
  | dir, .respondAck :: l => endsReleased dir l
  | dir, .respondByte :: l => endsReleased dir l
  | dir, .respondNack :: l => endsReleased dir l

/-- The first line still to come is a running delay. -/
def countingNext : List Act → Bool
  | .counting _ :: _ => true
  | _ => false

/-- How many of these hold: `req_slot` full, the executor between pop and push, `rsp_slot` full (R37). -/
def State.outstanding (s : State) : Nat :=
  s.reqSlot.isSome.toNat + (decide (s.exState ≠ .wait)).toNat + s.rspSlot.isSome.toNat

/-- One while the dispatch sequencer waits for a response, else none (R38). -/
def State.waiting (s : State) : Nat := (decide (s.dState = .waitRsp)).toNat

/-- A line of `readBlock` or of a procedure it calls, after the range check. -/
def DStep.inBlock : DStep → Bool
  | .blkDisc => true
  | .blkLoop => true
  | .loadAddr _ => true
  | .wsel _ => true
  | .addr _ => true
  | .settleA _ => true
  | .rselSend _ => true
  | .rsel _ => true
  | .received _ => true
  | .settleB _ => true
  | .returnVal _ => true
  | _ => false

/-- A line inside the verified read of one address. -/
def DStep.inRead : DStep → Bool
  | .blkDisc => false
  | .blkLoop => false
  | d => d.inBlock

/-- The start address field of the operation being executed. -/
def State.opStart (s : State) : Nat := (arg1Field s.opWord).toNat
/-- The length field of the operation being executed. -/
def State.opLength (s : State) : Nat := (lowField s.opWord).toNat

/-- The invariant of the engine. -/
structure EngineInv (s : State) : Prop where
  /-- `pin_latch` is hardwired 0 (R33). -/
  latchZero : s.pinLatch = false
  /-- `buf` keeps its canonical form, indices 0..127 (R35). -/
  bufCanonical : bufWf s.buf = true
  /-- The pin is released whenever `ex_state` is not `EX_RUN` (R208). -/
  releasedOutside : s.exState ≠ .run → s.pinDir = false
  /-- The operation being executed ends with the pin released (R208). -/
  endsReleased : s.exState = .run → endsReleased s.pinDir s.exStep = true
  /-- `ex_step` is a sub-position of `EX_RUN` (R24), empty outside it by the model's choice (log 16). -/
  stepsInRun : s.exState ≠ .run → s.exStep = []
  /-- Interrupts are masked exactly from before the first line to after the last (R26). -/
  maskInRun : s.irqDis = decide (s.exState = .run ∨ s.exState = .unmask)
  /-- `dly_cnt` is idle outside a `Delay` of the executor (R124). -/
  counterIdle : s.dlyCnt ≠ 0 → s.exState = .run ∧ countingNext s.exStep = true
  /-- `dly_d` is idle outside `D_DELAY` (R124). -/
  settleIdle : s.dlyD ≠ 0 → s.dState = .delay
  /-- At most one request is outstanding, and one exactly while the dispatch sequencer waits (R37, R207). -/
  alternation : s.outstanding = s.waiting
  /-- The counts of requests and responses (R38). -/
  counts : s.reqCount = s.rspCount + s.waiting
  /-- `res_valid` is cleared when an operation is accepted (R220). -/
  validAtRest : s.resValid = true → s.dState = .idle ∨ s.dState = .done
  /-- `D_DONE` is entered with the result registers written (R25). -/
  doneIsValid : s.dState = .done → s.resValid = true
  /-- `acc[31:24]` is always 0 (R23). -/
  accTopZero : opcodeField s.acc = 0
  /-- `res_len` is 0..128 (R36). -/
  lengthBound : s.resLen.toNat ≤ 128
  /-- Past its range check a block lies within the device (R181). -/
  blockInRange : s.dStep.inBlock = true → s.opStart + s.opLength ≤ 128
  /-- `idx` is 0..length (R23). -/
  idxBound : s.dStep = .blkLoop → s.idx.toNat ≤ s.opLength
  /-- In a verified read `idx` is below the length and `cur_addr` is `start + idx` (R23). -/
  addrInBlock : s.dStep.inRead = true → s.idx.toNat < s.opLength ∧ s.curAddr.toNat = s.opStart + s.idx.toNat

/-- The engine between operations (R229, R255): nothing in flight, the mask open, the pin released, both counters 0,
as many responses as requests. -/
structure Quiescent (s : State) : Prop where
  channelEmpty : s.quiet = true
  maskOpen : s.irqDis = false
  pinReleased : s.pinDir = false
  countersZero : s.dlyCnt = 0 ∧ s.dlyD = 0
  countsEqual : s.reqCount = s.rspCount

/-- One event under the mask `m`: the mask after it, or none where the event is not allowed there. A low pulse, a hold
and a sample belong to an executor operation, a settle delay lies outside one (R74, R292). -/
def maskAfter (m : Bool) : Event → Option Bool
  | .irq on => if m = on then none else some on
  | .low _ => if m then some m else none
  | .high _ => if m then some m else none
  | .sample _ => if m then some m else none
  | .idle _ => if m then none else some m

/-- The mask after a whole trace that starts open, if the trace keeps the discipline. -/
def maskOfTrace : Bool → List Event → Option Bool
  | m, [] => some m
  | m, e :: l =>
    match maskAfter m e with
    | some m' => maskOfTrace m' l
    | none => none

/-- Everything the line saw happened under the mask, and the mask stands as `irq_dis` says (R26, R292). -/
def MaskedTrace (s : State) : Prop := maskOfTrace false s.trace = some s.irqDis

/-! ### Expected traces -/

/-- The events of a transmit symbol (R140, R141). -/
def symbolEvents (p : Profile) (bit : Bool) : List Event :=
  if bit then [.low p.tLow1, .high (p.tBit - p.tLow1)] else [.low p.tLow0, .high (p.tBit - p.tLow0)]

/-- The events of a read symbol that sees `b` (R142). -/
def readEvents (p : Profile) (b : Bool) : List Event :=
  [.low p.tRd, .high p.tMr, .sample b, .high (p.tBit - p.tRd - p.tMr)]

/-- Eight transmit symbols in the order bit 7, 6, ..., 0 of `v` (R64, R150). -/
def byteEvents (p : Profile) (v : Byte) : List Event :=
  (List.range 8).flatMap fun k => symbolEvents p (v.getLsbD (7 - k))

/-- The events of `transmitByte(v)` that sees `a` as its acknowledge (R150). -/
def transmitEvents (p : Profile) (v : Byte) (a : Bool) : List Event := byteEvents p v ++ readEvents p a

/-- The events of `receiveByte(sendAck)` that sees the bits `f 0`, ..., `f 7` (R151). -/
def receiveEvents (p : Profile) (f : Nat → Bool) (sendAck : Bool) : List Event :=
  ((List.range 8).flatMap fun k => readEvents p (f k)) ++ symbolEvents p (!sendAck)

/-- The events of `discovery()` that sees `b` (R160). -/
def discoveryEvents (c : Params) (b : Bool) : List Event :=
  [.high c.tDscStart, .low c.tDscReset, .high c.tDscRec, .low c.tDscReq, .high c.tDscSmp, .sample b,
   .high c.tDscEnd]

/-- An executor operation's events between `Irq(1)` and `Irq(0)` (R200). -/
def underMask (l : List Event) : List Event := .irq true :: (l ++ [.irq false])

/-- The byte whose bits, most significant first, are `f 0`, ..., `f 7` (R64). -/
def byteMsbFirst (f : Nat → Bool) : Byte :=
  BitVec.ofBoolListBE [f 0, f 1, f 2, f 3, f 4, f 5, f 6, f 7]

/-- The level the line environment presents at the `k`-th sample from now: scripted, or free (R128, U1). -/
def levelAt (s : State) (k : Nat) : Bool := (s.lineIn[k]?).getD (Config.lineFree (s.drawn + k))

/-- The response code of a sampled acknowledge or presence bit (R94, R143, R160). -/
def rspOfLevel (b : Bool) : Byte := if b then rspNack else rspAck

/-! ### Expected results -/

/-- `s` after an executor operation that took `n` samples, added the events `l` to the line trace and answered `r`: back
in `EX_WAIT`, mask open, pin released, counter idle, the response in `rsp_slot` (R200, R208), `ex_step`
empty (log 16). -/
def answered (s : State) (n : Nat) (l : List Event) (r : Byte) : State :=
  { s with exState := .wait, exStep := [], irqDis := false, pinDir := false, dlyCnt := 0, exRsp := r,
           rspSlot := some r, lineIn := s.lineIn.drop n, drawn := s.drawn + n, trace := s.trace ++ underMask l }

/-- `s` after a whole `Chan` that pushed `w` and popped `r`, the executor operation between as in `answered`
(R206, R207). -/
def roundTrip (s : State) (w : Word) (n : Nat) (l : List Event) (r : Byte) : State :=
  { s with curReq := w, exStep := [], irqDis := false, pinDir := false, dlyCnt := 0, exRsp := r, rsp := r,
           dState := .run, lineIn := s.lineIn.drop n, drawn := s.drawn + n, trace := s.trace ++ underMask l,
           reqCount := s.reqCount + 1, rspCount := s.rspCount + 1 }

/-- `Chan(OPC_TX, b)`: the acknowledge is the next level (R202, R206). `n` is what the bit counter is left at. -/
def txTrip (n : BitVec 4) (b : Byte) (s : State) : State :=
  { roundTrip s (requestWord opcTx b) 1 (transmitEvents s.profile b (levelAt s 0)) (rspOfLevel (levelAt s 0)) with
    sh := 0, bitcnt := n, ackbit := levelAt s 0 }

/-- `Chan(OPC_RX, sendAck)`: the byte is the next eight levels (R203, R206). -/
def rxTrip (n : BitVec 4) (sendAck : Bool) (s : State) : State :=
  { roundTrip s (requestWord opcRx (if sendAck then 0x01 else 0x00)) 8
      (receiveEvents s.profile (levelAt s) sendAck) (byteMsbFirst (levelAt s)) with
    sh := byteMsbFirst (levelAt s), bitcnt := n, ackbit := levelAt s 7 }

/-- `Chan(OPC_DISC, 0x00)`: the presence bit is the next level (R201, R206). -/
def discTrip (s : State) : State :=
  { roundTrip s (requestWord opcDisc 0) 1 (discoveryEvents s.cfg.params (levelAt s 0)) (rspOfLevel (levelAt s 0)) with
    ackbit := levelAt s 0 }

/-- A whole settle delay of the dispatch sequencer (R121, R130). -/
def idleFor (us : Nat) (s : State) : State :=
  { s with dlyD := 0, dState := .run, trace := s.trace ++ [.idle us] }

/-- `s` with the result registers written and `res_valid` set (R36, R220), in `D_DONE` as R25 says (log 4). That
`d_step` is `entry` there is the model's choice (log 16). -/
def withResult (s : State) (status : Byte) (data : Word) (len : Byte) : State :=
  { s with resStatus := status, resData := data, resLen := len, resValid := true, dState := .done,
           dStep := .entry }

/-- `s` with the manufacturer id `id` in `acc` (R172). -/
def withAcc (id : Word) (s : State) : State := { s with acc := id }

/-- What no host operation but `setSpeed` touches. -/
structure OperationFrame (s t : State) : Prop where
  cfg      : t.cfg = s.cfg
  hostIn   : t.hostIn = s.hostIn
  pinLatch : t.pinLatch = s.pinLatch
  opWord   : t.opWord = s.opWord
  profSel  : t.profSel = s.profSel

/-- The levels from the `base`-th sample on are those of one single-byte read that the device answers with `d`: three
acknowledges, then the bits of `d`, most significant first (R175). -/
def ReadsAs (s : State) (base : Nat) (d : Byte) : Prop :=
  (∀ j < 3, levelAt s (base + j) = false) ∧ ∀ j < 8, levelAt s (base + 3 + j) = d.getLsbD (7 - j)

/-- The events of a `readByte(dev, a)` that succeeds with `d` (R175). -/
def readByteEvents (c : Params) (p : Profile) (dev a d : Byte) : List Event :=
  underMask (transmitEvents p (devByte busOpcEeprom dev false) false) ++ underMask (transmitEvents p a false) ++
    [.idle c.tSettleA] ++ underMask (transmitEvents p (devByte busOpcEeprom dev true) false) ++
    underMask (receiveEvents p (fun j => d.getLsbD (7 - j)) false) ++ [.idle c.tSettleB]

/-- The stage after `x` in the executor's cycle (R24, R200). -/
def ExState.succ : ExState → ExState
  | .wait => .mask
  | .mask => .run
  | .run => .unmask
  | .unmask => .push
  | .push => .wait

/-! ### Time -/

/-- The nominal duration of an event in microseconds (R123). -/
def Event.time : Event → Nat
  | .low us => us
  | .high us => us
  | .idle us => us
  | .sample _ => 0
  | .irq _ => 0

/-- The nominal duration of a trace (R300). -/
def traceTime : List Event → Nat
  | [] => 0
  | e :: l => e.time + traceTime l

/-- The clocked machine gets from `s` to `t`. -/
def Reaches (s t : State) : Prop := ∃ n, ticks n s = t

end Sys2Proof.Machine
end

