-- ==== Sys2Proof/Certificates/Slice0/Obligations.lean ====
section
/-! DEFINITION. The statements for the provers, in the order of the spec's files. Where a register's value after an
operation is not said by a rule (`bitcnt`), the statement leaves it open. -/

open Sys2Proof Sys2Proof.Machine

/-! ### Encodings (30_encoding.md) -/

/-- R91, R100, R101, R104, R105: decoding the words of a well-formed instruction gives it back. -/
def Obligations.DecodeOfEncodeIsTheInstruction : Prop :=
  ∀ i : Instr, i.wf = true → decode (encode i) = .ok i

/-- R61, R101: what the decoder answers fits the encoding. -/
def Obligations.DecodedInstructionIsWellFormed : Prop :=
  ∀ (c : Code) (i : Instr), decode c = .ok i → i.wf = true

/-- R105: the bus opcode bytes are exactly the ones the three bus items encode to. -/
def Obligations.BusByteDecodesExactly : Prop :=
  ∀ (b : Byte) (i : Instr), decodeBus b = .ok i ↔ (i.wf = true ∧ encode i = .bus b)

/-- R95, R102: a request word decodes exactly for the opcodes 0x01..0x03, a host word exactly for 0x10..0x15. -/
def Obligations.ReservedWordsDecodeToNothing : Prop :=
  ∀ w : Word,
    ((∃ i, decodeChan w = .ok i) ↔ 0x01 ≤ (w.extractLsb' 24 8).toNat ∧ (w.extractLsb' 24 8).toNat ≤ 0x03) ∧
    ((∃ i, decodeHost w = .ok i) ↔ 0x10 ≤ (w.extractLsb' 24 8).toNat ∧ (w.extractLsb' 24 8).toNat ≤ 0x15)

/-- R91, R102: bits 23:8 of a request word, bits 23:19 of a host word and all but bit 8 below `hop` of a `setSpeed` word
do not matter. -/
def Obligations.IgnoredBitsDoNotMatter : Prop :=
  ∀ w v : Word, w.extractLsb' 24 8 = v.extractLsb' 24 8 →
    (w.extractLsb' 0 8 = v.extractLsb' 0 8 → decodeChan w = decodeChan v) ∧
    (w.extractLsb' 0 19 = v.extractLsb' 0 19 → decodeHost w = decodeHost v) ∧
    (w.extractLsb' 24 8 = 0x15 → w.getLsbD 8 = v.getLsbD 8 → decodeHost w = decodeHost v)

/-- Words written out in 30_encoding.md and 95_test_vectors.md (V-EN1, V-EN3, V-EN6, V-HW2, V-HW5, V-HW7, V-HW12, V-DB4,
V-DB6) decode to what they stand for, and V-EN9 to nothing. A sanity statement. -/
def Obligations.WordsOfTheSpecDecode : Prop :=
  decodeTableWord 32 0x010000A0 = some (.chanTransmitByte 0xA0) ∧
  decodeTableWord 32 0x03000001 = some (.chanReceiveByte 0x01) ∧
  decodeTableWord 32 0x01ABCDA0 = some (.chanTransmitByte 0xA0) ∧
  decodeTableWord 32 0x1100A000 = some (.hostTransmitByte 0xA0) ∧
  decodeTableWord 32 0x13030000 = some (.hostManufacturerId 3) ∧
  decodeTableWord 32 0x14011001 = some (.hostReadBlock 1 0x10 0x01) ∧
  decodeTableWord 32 0x15FFFF00 = some (.hostSetSpeed 1) ∧
  decodeTableWord 8 0xAA = some (.busEepromW 5) ∧
  decodeTableWord 8 0xCF = some (.busMfgidR 7) ∧
  decodeTableWord 32 0x7F000012 = none

/-! ### Line driver and delays (40_timing_line.md) -/

/-- R126: `driveLow` turns the pin to output and so forces the line low whatever others do; it writes nothing else. -/
def Obligations.DriveLowForcesTheLineLow : Prop :=
  ∀ s : State, s.pinLatch = false →
    driveLow s = { s with pinDir := true } ∧ (driveLow s).sioOe = true ∧
    (∀ others, lineLevel (driveLow s) others = false) ∧ (s.pinDir = true → driveLow s = s)

/-- R127: `releaseHigh` turns the pin to input and leaves the level to the environment; it writes nothing else. -/
def Obligations.ReleaseHighLeavesTheLineToOthers : Prop :=
  ∀ s : State,
    releaseHigh s = { s with pinDir := false } ∧ (releaseHigh s).sioOe = false ∧
    (∀ others, lineLevel (releaseHigh s) others = others) ∧ (s.pinDir = false → releaseHigh s = s)

/-- R128: `sample` releases the pin, takes the level the environment presents, whatever the pin did before, and emits
it. The next level is the model's input (log 3). -/
def Obligations.SampleReleasesThenReads : Prop :=
  ∀ s : State,
    sampledBit s = levelAt s 0 ∧
    sample s = { s with pinDir := false, lineIn := s.lineIn.drop 1, drawn := s.drawn + 1,
                        trace := s.trace ++ [.sample (levelAt s 0)] }

/-- R121, R122: a delay of `us` microseconds takes exactly `us * CYCLES_PER_US` cycles of the clocked machine, beside one
tick that loads the counter and one that emits the event (log 8); the pin does not move, and the rest of the state stays.
For the executor and for both settle delays of the dispatch sequencer, with no reset awaited: `AResetLandsOnItsEdge` says
the rest. -/
def Obligations.DelayCountsExactly : Prop :=
  (∀ (s : State) (us : Nat) (l : List Act), s.exState = .run → s.exStep = .delay us :: l →
    resetAwaited s = false → us * s.cfg.params.cyclesPerUs < 2 ^ 32 →
    (∀ k ≤ us * s.cfg.params.cyclesPerUs,
      ticks (1 + k) s = { s with exStep := .counting us :: l,
                                 dlyCnt := BitVec.ofNat 32 (us * s.cfg.params.cyclesPerUs - k) }) ∧
    ticks (us * s.cfg.params.cyclesPerUs + 2) s =
      { s with exStep := l, dlyCnt := 0,
               trace := s.trace ++ [if s.pinDir then .low us else .high us] }) ∧
  (∀ (s : State) (us : Nat) (d d' : DStep), s.dState = .run → s.quiet = true → resetAwaited s = false →
    ((∃ k, s.dStep = .addr k ∧ s.rsp = rspAck ∧ us = s.cfg.params.tSettleA ∧ d = .settleA k ∧ d' = .rselSend k) ∨
      ∃ k, s.dStep = .received k ∧ us = s.cfg.params.tSettleB ∧ d = .settleB k ∧ d' = .returnVal k) →
    (∀ k ≤ us * s.cfg.params.cyclesPerUs,
      ticks (1 + k) s = { s with dState := .delay, dStep := d,
                                 dlyD := BitVec.ofNat 32 (us * s.cfg.params.cyclesPerUs - k) }) ∧
    ticks (us * s.cfg.params.cyclesPerUs + 2) s =
      { s with dlyD := 0, dStep := d', trace := s.trace ++ [.idle us] })

/-! ### Bit codec (41_bit_codec.md) -/

/-- R140, R141: the two transmit symbols under the active profile; the frame is in the record. -/
def Obligations.TransmitSymbolShapes : Prop :=
  ∀ s : State,
    transmitOne s = { s with
      pinDir := false, dlyCnt := 0,
      trace := s.trace ++ [.low s.profile.tLow1, .high (s.profile.tBit - s.profile.tLow1)] } ∧
    transmitZero s = { s with
      pinDir := false, dlyCnt := 0,
      trace := s.trace ++ [.low s.profile.tLow0, .high (s.profile.tBit - s.profile.tLow0)] }

/-- R142, R143: the read symbol; the sampled bit is in `ackbit`, and as an acknowledge 0 is ACK, 1 is NACK. -/
def Obligations.ReadBitShape : Prop :=
  ∀ s : State,
    readBit s = { s with
      pinDir := false, dlyCnt := 0, ackbit := levelAt s 0, lineIn := s.lineIn.drop 1,
      drawn := s.drawn + 1,
      trace := s.trace ++ [.low s.profile.tRd, .high s.profile.tMr, .sample (levelAt s 0),
        .high (s.profile.tBit - s.profile.tRd - s.profile.tMr)] } ∧
    readAckNack s = readBit s ∧ ackOfBit false = .ack ∧ ackOfBit true = .nack

/-- R144: every bit codec operation takes one bit period and ends with the pin released. -/
def Obligations.EverySymbolLastsOneBitPeriod : Prop :=
  ∀ s : State, ∀ f ∈ [transmitOne, transmitZero, readBit, readAckNack],
    traceTime (f s).trace = traceTime s.trace + s.profile.tBit ∧ (f s).pinDir = false

/-! ### Byte codec (42_byte_codec.md) and discovery (43_discovery.md) -/

/-- R150: eight symbols of `b`, bit 7 first, then one read symbol, whose bit is left in `ackbit`; `sh` is 0 after it; nine
bit periods. -/
def Obligations.TransmitByteShape : Prop :=
  ∀ (b : Byte) (s : State),
    (∃ n, transmitByte b s = { s with
        sh := 0, bitcnt := n, ackbit := levelAt s 0, pinDir := false, dlyCnt := 0,
        lineIn := s.lineIn.drop 1, drawn := s.drawn + 1,
        trace := s.trace ++ ((List.range 8).flatMap fun k => symbolEvents s.profile (b.getLsbD (7 - k))) ++
          readEvents s.profile (levelAt s 0) }) ∧
    traceTime (transmitByte b s).trace = traceTime s.trace + 9 * s.profile.tBit

/-- R151: eight read symbols, the first the most significant bit of the result, then the acknowledge symbol; nine bit
periods; a device that sends the bits of `v` is reproduced. -/
def Obligations.ReceiveByteShape : Prop :=
  ∀ (sendAck : Bool) (s : State),
    (∃ n, receiveByte sendAck s = { s with
        sh := byteMsbFirst (levelAt s), bitcnt := n, ackbit := levelAt s 7,
        pinDir := false, dlyCnt := 0, lineIn := s.lineIn.drop 8, drawn := s.drawn + 8,
        trace := s.trace ++ ((List.range 8).flatMap fun k => readEvents s.profile (levelAt s k)) ++
          symbolEvents s.profile (!sendAck) }) ∧
    traceTime (receiveByte sendAck s).trace = traceTime s.trace + 9 * s.profile.tBit ∧
    ∀ v : Byte, (∀ j < 8, levelAt s j = v.getLsbD (7 - j)) → (receiveByte sendAck s).sh = v

/-- R160: the seven events of discovery in both outcomes, the presence bit in `ackbit`, 0 read as 0x00 and 1 as 0xFF. -/
def Obligations.DiscoveryShape : Prop :=
  ∀ s : State,
    discovery s = { s with
      ackbit := levelAt s 0, pinDir := false, dlyCnt := 0, lineIn := s.lineIn.drop 1,
      drawn := s.drawn + 1,
      trace := s.trace ++ [.high s.cfg.params.tDscStart, .low s.cfg.params.tDscReset, .high s.cfg.params.tDscRec,
        .low s.cfg.params.tDscReq, .high s.cfg.params.tDscSmp, .sample (levelAt s 0),
        .high s.cfg.params.tDscEnd] } ∧
    (runDiscovery s).exRsp = (if levelAt s 0 then 0xFF else 0x00)

/-- R300: how much nominal time each request, an unknown request word, a `loadAddress` that succeeds and a `readByte` that
succeeds put into the trace, whatever the line does, in every configuration and under either profile. -/
def Obligations.NominalDurations : Prop :=
  ∀ s : State,
    (∃ t, exec .chanDiscovery s = .next t ∧
      traceTime t.trace = traceTime s.trace + (s.cfg.params.tDscStart + s.cfg.params.tDscReset +
        s.cfg.params.tDscRec + s.cfg.params.tDscReq + s.cfg.params.tDscSmp + s.cfg.params.tDscEnd)) ∧
    (∀ payload, ∃ t, exec (.chanTransmitByte payload) s = .next t ∧
      traceTime t.trace = traceTime s.trace + 9 * s.profile.tBit) ∧
    (∀ payload, ∃ t, exec (.chanReceiveByte payload) s = .next t ∧
      traceTime t.trace = traceTime s.trace + 9 * s.profile.tBit) ∧
    (∀ w : Word, w.extractLsb' 24 8 ∉ [(0x01 : Byte), 0x02, 0x03] → s.exState = .wait → s.reqSlot = some w →
      resetAwaited s = false → ∃ t, step s = .next t ∧ traceTime t.trace = traceTime s.trace) ∧
    (∀ dev a, s.quiet = true → (loadAddress dev a s).1 = none →
      traceTime (loadAddress dev a s).2.trace = traceTime s.trace + 18 * s.profile.tBit) ∧
    (∀ dev a v, s.quiet = true → (readByte dev a s).1 = .val v →
      traceTime (readByte dev a s).2.trace =
        traceTime s.trace + (36 * s.profile.tBit + s.cfg.params.tSettleA + s.cfg.params.tSettleB))

/-! ### Channel and executor (45_channel_executor.md) -/

/-- R201: a word with opcode 0x02 is `Discovery`, and it completes: the presence bit is answered as 0x00 or 0xFF, with
interrupts masked around it; nothing else changes. -/
def Obligations.ChanDiscoveryAnswersPresence : Prop :=
  ∀ (w : Word) (s : State), w.extractLsb' 24 8 = 0x02 → s.rspSlot = none →
    decode (.chan w) = .ok .chanDiscovery ∧
    exec .chanDiscovery s = .next { answered s 1 (discoveryEvents s.cfg.params (levelAt s 0))
      (if levelAt s 0 then 0xFF else 0x00) with ackbit := levelAt s 0 }

/-- R202: a word with opcode 0x01 is `TransmitByte` of its low byte, bits 23:8 ignored, and it completes: the acknowledge
is answered as 0x00 or 0xFF; nothing else changes. -/
def Obligations.ChanTransmitByteAnswersAcknowledge : Prop :=
  ∀ (w : Word) (s : State), w.extractLsb' 24 8 = 0x01 → s.rspSlot = none →
    decode (.chan w) = .ok (.chanTransmitByte (w.extractLsb' 0 8)) ∧
    ∃ n, exec (.chanTransmitByte (w.extractLsb' 0 8)) s = .next
      { answered s 1 (transmitEvents s.profile (w.extractLsb' 0 8) (levelAt s 0))
          (if levelAt s 0 then 0xFF else 0x00) with sh := 0, bitcnt := n, ackbit := levelAt s 0 }

/-- R203: a word with opcode 0x03 is `ReceiveByte`, `sendAck` where its low byte is not 0, and it completes: the response
is the byte received; nothing else changes. -/
def Obligations.ChanReceiveByteAnswersTheByte : Prop :=
  ∀ (w : Word) (s : State), w.extractLsb' 24 8 = 0x03 → s.rspSlot = none →
    decode (.chan w) = .ok (.chanReceiveByte (w.extractLsb' 0 8)) ∧
    ∃ n, exec (.chanReceiveByte (w.extractLsb' 0 8)) s = .next
      { answered s 8 (receiveEvents s.profile (levelAt s) (decide (w.extractLsb' 0 8 ≠ 0)))
          (byteMsbFirst (levelAt s)) with
        sh := byteMsbFirst (levelAt s), bitcnt := n, ackbit := levelAt s 7 }

/-- R95, R204: an unknown request word is popped and answered 0xFF, with the mask opened and closed and no line action. -/
def Obligations.UnknownRequestAnswersNack : Prop :=
  ∀ (w : Word) (s : State), w.extractLsb' 24 8 ∉ [(0x01 : Byte), 0x02, 0x03] → s.exState = .wait →
    s.reqSlot = some w → s.rspSlot = none → resetAwaited s = false →
    step s = .next { s with curReq := w, reqSlot := none, exRsp := 0xFF, rspSlot := some 0xFF, exStep := [],
                            irqDis := false, trace := s.trace ++ [.irq true, .irq false] }

/-- R205: with `rsp_slot` full an executor operation ends before its push and the slot keeps its byte; with both slots
empty and the executor waiting, a pop waits. -/
def Obligations.PushAndPopWait : Prop :=
  (∀ (i : Instr) (s : State) (r : Byte), s.rspSlot = some r →
    (i = .chanDiscovery ∨ ∃ p, i = .chanTransmitByte p ∨ i = .chanReceiveByte p) →
    ∃ t, exec i s = .next t ∧ t.exState = .push ∧ t.rspSlot = some r) ∧
  (∀ s : State, s.dState = .waitRsp → s.quiet = true → resetAwaited s = false → step s = .next s)

/-- R24, R200: in every action of the engine but a reset the executor's stage stays or moves on in the cyclic order wait,
mask, run, unmask, push. -/
def Obligations.ExecutorStagesInOrder : Prop :=
  ∀ s : State, resetNow s = false →
    (tick s).exState = s.exState ∨ (tick s).exState = s.exState.succ

/-- R206, R207, R208: a `Chan` of any opcode comes back with its response, the channel empty, one request and one
response more, the mask open, the pin released and the sequencer running. -/
def Obligations.ChanCompletesAndAlternates : Prop :=
  ∀ (opc payload : Byte) (s : State), s.quiet = true → s.pinDir = false →
    (chan opc payload s).quiet = true ∧ (chan opc payload s).reqCount = s.reqCount + 1 ∧
    (chan opc payload s).rspCount = s.rspCount + 1 ∧ (chan opc payload s).dState = .run ∧
    (chan opc payload s).curReq = opc ++ 0#16 ++ payload ∧
    (chan opc payload s).rsp = (chan opc payload s).exRsp ∧
    (chan opc payload s).irqDis = false ∧ (chan opc payload s).pinDir = false

/-- R37, R205: a request is immutable once enqueued, a response too: a tick leaves a full slot alone or empties it. -/
def Obligations.SlotsAreImmutableWhileFull : Prop :=
  ∀ s : State,
    (∀ w, s.reqSlot = some w → (tick s).reqSlot = some w ∨ (tick s).reqSlot = none) ∧
    (∀ r, s.rspSlot = some r → (tick s).rspSlot = some r ∨ (tick s).rspSlot = none)

/-! ### Protocol procedures (44_protocol_ops.md) -/

/-- R171: `loadAddress` tests the address, the write-intent byte and the address byte in this order, and ends at the first
that fails; the registers after it are those of the round trips made. -/
def Obligations.LoadAddressOutcomes : Prop :=
  ∀ (dev a : Byte) (s : State), s.quiet = true → ∃ n,
    loadAddress dev a s =
      if 127 < a.toNat then (some .badAddr, s)
      else if levelAt s 0 then (some .wselNack, txTrip n (devByte busOpcEeprom dev false) s)
      else if levelAt s 1 then (some .addrNack, txTrip n a (txTrip n (devByte busOpcEeprom dev false) s))
      else (none, txTrip n a (txTrip n (devByte busOpcEeprom dev false) s))

/-- R175: `readByte` makes four round trips with the settle delays between and after them; an error of `loadAddress` is
passed through, a NACK of the read-intent byte is its own error, and a failing call skips every later step. -/
def Obligations.ReadByteOutcomes : Prop :=
  ∀ (dev a : Byte) (s : State), s.quiet = true → ∃ n,
    readByte dev a s =
      let s1 := txTrip n (devByte busOpcEeprom dev false) s
      let s2 := txTrip n a s1
      let s3 := txTrip n (devByte busOpcEeprom dev true) (idleFor s.cfg.params.tSettleA s2)
      if 127 < a.toNat then (.err .badAddr, s)
      else if levelAt s 0 then (.err .wselNack, s1)
      else if levelAt s 1 then (.err .addrNack, s2)
      else if levelAt s 2 then (.err .rselNack, s3)
      else (.val (byteMsbFirst fun j => levelAt s (3 + j)), idleFor s.cfg.params.tSettleB (rxTrip n false s3))

/-- R177, R178: the vote of `verifiedRead` over the results of its two or three `readByte`s. -/
def Obligations.VerifiedReadVotes : Prop :=
  ∀ (dev a : Byte) (s : State), s.quiet = true → s.dState = .run →
    let r0 := (readByte dev a s).1
    let s1 := { (readByte dev a s).2 with samp0 := r0 }
    let r1 := (readByte dev a s1).1
    let s2 := { (readByte dev a s1).2 with samp1 := r1 }
    let r2 := (readByte dev a s2).1
    let s3 := { (readByte dev a s2).2 with samp2 := r2 }
    (r0 = r1 → verifiedRead dev a s = (r0, s2)) ∧
    (r0 ≠ r1 → r0 = r2 → verifiedRead dev a s = (r0, s3)) ∧
    (r0 ≠ r1 → r1 = r2 → verifiedRead dev a s = (r1, s3)) ∧
    (r0 ≠ r1 → r0 ≠ r2 → r1 ≠ r2 → verifiedRead dev a s = (.err .integrity, s3))

/-- R105 and log 6: the three bus opcode bytes, each sent alone as the dispatch sequencer sends it, complete with the
acknowledge in `rsp`; nothing but that round trip happens. -/
def Obligations.BusOpcodeBytesComplete : Prop :=
  ∀ (dev : Byte) (s : State), s.quiet = true → ∃ n,
    exec (.busEepromW dev) s = .next (txTrip n (0b1010#4 ++ dev.extractLsb' 0 3 ++ 0#1) s) ∧
    exec (.busEepromR dev) s = .next (txTrip n (0b1010#4 ++ dev.extractLsb' 0 3 ++ 1#1) s) ∧
    exec (.busMfgidR dev) s = .next (txTrip n (0b1100#4 ++ dev.extractLsb' 0 3 ++ 1#1) s)

/-- R172, R224: `manufacturerId` completes in each of its three cases, with the id big-endian in bits 23:0 or 0; the
records are the whole of what changes. The end in `D_DONE` (R25; R220 says `D_IDLE`) and `d_step` there are the model's
choice (logs 4, 16). -/
def Obligations.ManufacturerIdOutcomes : Prop :=
  ∀ (w : Word) (s : State), w.extractLsb' 24 8 = 0x13 → s.quiet = true →
    let dev : Byte := (w.extractLsb' 16 3).setWidth 8
    decode (.host w) = .ok (.hostManufacturerId dev) ∧ ∃ n,
    exec (.hostManufacturerId dev) s = .next (
      let s1 := discTrip s
      let s2 := txTrip n (devByte busOpcMfgId dev true) s1
      let s5 := rxTrip n false (rxTrip n true (rxTrip n true s2))
      let id : Word := 0#8 ++ byteMsbFirst (fun j => levelAt s (2 + j)) ++
        byteMsbFirst (fun j => levelAt s (10 + j)) ++ byteMsbFirst (fun j => levelAt s (18 + j))
      if levelAt s 0 then withResult s1 0 0 0
      else if levelAt s 1 then withResult s2 0 0 0
      else withResult (withAcc id s5) 0 id 0)

/-- R181, R243: a block whose exact sum exceeds 128 is rejected with `E_RANGE` and nothing else happens. The end in
`D_DONE` (R25; R220 and R255 say `D_IDLE`) and `d_step` there are the model's choice (logs 4, 16). -/
def Obligations.BlockOutOfRangeIsRejected : Prop :=
  ∀ (dev start length : Byte) (s : State), s.quiet = true → 128 < start.toNat + length.toNat →
    exec (.hostReadBlock dev start length) s = .next (withResult s 0xFF 0 0)

/-- R180, R244: with no answer to its Discovery a block in range ends with `E_NO_DEVICE` after exactly one request, also
when its length is 0. The end in `D_DONE` (R25; R220 and R255 say `D_IDLE`) and `d_step` there are the model's choice
(logs 4, 16). -/
def Obligations.BlockWithoutDeviceStops : Prop :=
  ∀ (dev start length : Byte) (s : State), s.quiet = true → start.toNat + length.toNat ≤ 128 →
    levelAt s 0 = true →
    exec (.hostReadBlock dev start length) s = .next (withResult (discTrip s) 0xFE 0 0)

/-- R180, R225: a block over a device that answers the same data in both samples of every address succeeds with exactly
these data in ascending order, two reads per address, the trace being the Discovery and those reads; for every device
address, start, length in range and data. And a block all of whose `verifiedRead`s return a byte, from two samples or from
three (program P3a), succeeds: `u k` is the state in which address `start + k` is begun, as in
`BlockAbortsAtTheFirstFailure`; the whole next state is `u length` with the length as the result, the bytes voted for are
in `buf` and no other byte of it changes. The end in `D_DONE` (R25; R220 says `D_IDLE`) and `d_step` there are the model's
choice (logs 4, 16). -/
def Obligations.BlockOverConsistentDeviceSucceeds : Prop :=
  (∀ (dev start length : Byte) (data : Nat → Byte) (s : State), s.quiet = true → bufWf s.buf = true →
    start.toNat + length.toNat ≤ 128 → levelAt s 0 = false →
    (∀ k < length.toNat, ReadsAs s (1 + 22 * k) (data k) ∧ ReadsAs s (12 + 22 * k) (data k)) →
    ∃ t, exec (.hostReadBlock dev start length) s = .next t ∧
      t.resValid = true ∧ t.resStatus = 0 ∧ t.resData = 0 ∧ t.resLen = length ∧ t.dState = .done ∧
      (∀ k < length.toNat, bufRead t.buf k = data k) ∧
      (∀ k, length.toNat ≤ k → bufRead t.buf k = bufRead s.buf k) ∧
      t.reqCount = s.reqCount + 1 + 8 * length.toNat ∧ t.rspCount = s.rspCount + 1 + 8 * length.toNat ∧
      t.drawn = s.drawn + 1 + 22 * length.toNat ∧
      t.trace = s.trace ++ underMask (discoveryEvents s.cfg.params false) ++
        (List.range length.toNat).flatMap fun k =>
          readByteEvents s.cfg.params s.profile dev (BitVec.ofNat 8 (start.toNat + k)) (data k) ++
          readByteEvents s.cfg.params s.profile dev (BitVec.ofNat 8 (start.toNat + k)) (data k)) ∧
  (∀ (dev start length : Byte) (u : Nat → State) (d : Nat → Byte) (s : State),
    s.quiet = true → start.toNat + length.toNat ≤ 128 → levelAt s 0 = false →
    u 0 = { discTrip s with idx := 0 } →
    (∀ k < length.toNat, ∃ v,
      verifiedRead dev (BitVec.ofNat 8 (start.toNat + k))
        { u k with curAddr := BitVec.ofNat 8 (start.toNat + k) } = (.val (d k), v) ∧
      u (k + 1) = { v with buf := bufWrite v.buf k (d k), idx := BitVec.ofNat 8 (k + 1) }) →
    exec (.hostReadBlock dev start length) s = .next (withResult (u length.toNat) 0 0 length) ∧
    (bufWf s.buf = true →
      (∀ k < length.toNat, bufRead (u length.toNat).buf k = d k) ∧
      ∀ k, length.toNat ≤ k → bufRead (u length.toNat).buf k = bufRead s.buf k))

/-- R180, R182, R225: the first `verifiedRead` that returns an error ends the block at once with that error, whichever of
its errors it is and however many samples it took. `u k` is the state in which address `start + k` is begun: the Discovery
answered and `idx` 0 for the first, one byte stored and `idx` one more for each that follows. The whole next state is the
one the failing read leaves, with the error as the result: later addresses are not read. For every position `m`. The end
in `D_DONE` (R25; R220 and R255 say `D_IDLE`) and `d_step` there are the model's choice (logs 4, 16). -/
def Obligations.BlockAbortsAtTheFirstFailure : Prop :=
  ∀ (dev start length : Byte) (m : Nat) (u : Nat → State) (d : Nat → Byte) (e : ErrCode) (s t : State),
    s.quiet = true → start.toNat + length.toNat ≤ 128 → m < length.toNat → levelAt s 0 = false →
    u 0 = { discTrip s with idx := 0 } →
    (∀ k < m, ∃ v,
      verifiedRead dev (BitVec.ofNat 8 (start.toNat + k))
        { u k with curAddr := BitVec.ofNat 8 (start.toNat + k) } = (.val (d k), v) ∧
      u (k + 1) = { v with buf := bufWrite v.buf k (d k), idx := BitVec.ofNat 8 (k + 1) }) →
    verifiedRead dev (BitVec.ofNat 8 (start.toNat + m))
      { u m with curAddr := BitVec.ofNat 8 (start.toNat + m) } = (.err e, t) →
    exec (.hostReadBlock dev start length) s = .next (withResult t e.status 0 0)

/-- R191, R225, R245: whatever the line does, a `readBlock` completes: success with the length, or one of six errors, never
`E_BAD_ADDR`, with length 0; at most 1 + 12 * length requests, each answered; bytes of `buf` outside the block, `acc` and
what no block touches stay. The end in `D_DONE` is the model's choice (R25, log 4). -/
def Obligations.BlockCompletesWhateverTheLineDoes : Prop :=
  ∀ (w : Word) (s : State), w.extractLsb' 24 8 = 0x14 → s.quiet = true → bufWf s.buf = true →
    let dev : Byte := (w.extractLsb' 16 3).setWidth 8
    let length : Byte := w.extractLsb' 0 8
    decode (.host w) = .ok (.hostReadBlock dev (w.extractLsb' 8 8) length) ∧
    ∃ t, exec (.hostReadBlock dev (w.extractLsb' 8 8) length) s = .next t ∧
      t.resValid = true ∧ t.resData = 0 ∧ t.dState = .done ∧
      ((t.resStatus = 0 ∧ t.resLen = length) ∨
        (t.resStatus ∈ [(0xFF : Byte), 0xFE, 0xFC, 0xFB, 0xFA, 0xF9] ∧ t.resLen = 0)) ∧
      t.reqCount ≤ s.reqCount + 1 + 12 * length.toNat ∧ t.reqCount + s.rspCount = s.reqCount + t.rspCount ∧
      t.quiet = true ∧ t.acc = s.acc ∧ OperationFrame s t ∧ bufWf t.buf = true ∧
      ∀ k, length.toNat ≤ k → bufRead t.buf k = bufRead s.buf k

/-! ### Host operations (46_host_ops.md) -/

/-- R221: `discovery` completes with the presence in `res_data`; one round trip and nothing else. The end in
`D_DONE` (R25; R220 says `D_IDLE`) and `d_step` there are the model's choice (logs 4, 16). -/
def Obligations.HostDiscoveryCompletes : Prop :=
  ∀ (w : Word) (s : State), w.extractLsb' 24 8 = 0x10 → s.quiet = true →
    decode (.host w) = .ok .hostDiscovery ∧
    exec .hostDiscovery s = .next (withResult (discTrip s) 0 (if levelAt s 0 then 0xFF else 0x00) 0)

/-- R222: `transmitByte` sends bits 15:8 of its word and completes with the acknowledge in `res_data`; one round trip and
nothing else. The end in `D_DONE` (R25; R220 says `D_IDLE`) and `d_step` there are the model's choice (logs 4, 16). -/
def Obligations.HostTransmitByteCompletes : Prop :=
  ∀ (w : Word) (s : State), w.extractLsb' 24 8 = 0x11 → s.quiet = true →
    decode (.host w) = .ok (.hostTransmitByte (w.extractLsb' 8 8)) ∧ ∃ n,
    exec (.hostTransmitByte (w.extractLsb' 8 8)) s =
      .next (withResult (txTrip n (w.extractLsb' 8 8) s) 0 (if levelAt s 0 then 0xFF else 0x00) 0)

/-- R223: `receiveByte` answers NACK after the byte and completes with the byte, zero-extended, in `res_data`; one round
trip and nothing else. The end in `D_DONE` (R25; R220 says `D_IDLE`) and `d_step` there are the model's choice (logs 4,
16). -/
def Obligations.HostReceiveByteCompletes : Prop :=
  ∀ (w : Word) (s : State), w.extractLsb' 24 8 = 0x12 → s.quiet = true →
    decode (.host w) = .ok .hostReceiveByte ∧ ∃ n,
    exec .hostReceiveByte s =
      .next (withResult (rxTrip n false s) 0 (0#24 ++ byteMsbFirst (levelAt s)) 0)

/-- R226: `setSpeed` writes bit 8 of its word to `prof_sel` and completes; nothing else changes. That it pushes no request
and emits no event is the spec's decision D24 alone (log 10), on which U21 asks a claim not to rest: those two clauses are
the model's choice with it. So are the end in `D_DONE` (R25; R220 says `D_IDLE`) and `d_step` there (logs 4, 16). -/
def Obligations.HostSetSpeedSelectsTheProfile : Prop :=
  ∀ (w : Word) (s : State), w.extractLsb' 24 8 = 0x15 → s.quiet = true →
    decode (.host w) = .ok (.hostSetSpeed ((w.extractLsb' 8 1).setWidth 8)) ∧
    exec (.hostSetSpeed ((w.extractLsb' 8 1).setWidth 8)) s =
      .next (withResult { s with profSel := w.extractLsb' 8 1 } 0 0 0)

/-- R227: a word presented to an idle engine whose `hop` is none of the six ends with `E_UNKNOWN_OP`, without a request or
an event; nothing but `op_word`, the input and the result registers changes. The end in `D_DONE` (R25; R220 and R255 say
`D_IDLE`) and `d_step` there are the model's choice (logs 4, 16). -/
def Obligations.UnknownHostOperationIsAnError : Prop :=
  ∀ (w : Word) (rest : List HostInput) (s : State),
    (w.extractLsb' 24 8).toNat < 0x10 ∨ 0x15 < (w.extractLsb' 24 8).toNat →
    s.hostIn = .op w :: rest → resetNext rest = false → s.dState = .idle → s.quiet = true →
    step s = .next (withResult { s with opWord := w, hostIn := rest } 0xF8 0 0)

/-- R207, R290, R291, R294: a host operation or a bus opcode byte started while a request is outstanding is refused, as the
spec asks. No word of the host gets there: see `StepNeverStops`. -/
def Obligations.OperationOnABusyChannelIsRefused : Prop :=
  ∀ (s : State) (dev start length b : Byte), s.quiet = false →
    (∀ i ∈ [Instr.hostDiscovery, .hostTransmitByte b, .hostReceiveByte, .hostManufacturerId dev,
        .hostReadBlock dev start length, .busEepromW dev, .busEepromR dev, .busMfgidR dev],
      exec i s = .refused .requestOutstanding) ∧
    exec (.hostSetSpeed b) s = .refused .speedChangeInOperation

/-- R229, R255: every host operation that starts in a quiescent engine completes, and the engine is quiescent again, with
a result. That it then stands in `D_DONE`, waiting for the host to take the result, is R25's reading: R220 and R255 say
`D_IDLE`, R229 allows either, and the clause `t.dState = .done` is the model's choice (log 4). -/
def Obligations.HostOperationsEndQuiescent : Prop :=
  ∀ (s : State) (dev start length b : Byte), Quiescent s →
    ∀ i ∈ [Instr.hostDiscovery, .hostTransmitByte b, .hostReceiveByte, .hostManufacturerId dev,
        .hostReadBlock dev start length, .hostSetSpeed b],
      ∃ t, exec i s = .next t ∧ Quiescent t ∧ t.resValid = true ∧ t.dState = .done

/-- R220: while an operation runs no word is accepted, and one that is presented stays. That this holds also while a result
waits in `D_DONE`, and that the engine is free once the host takes it, follows R25 and R40 where R220 returns to `D_IDLE`
at the end of the operation: the model's choice (log 4). -/
def Obligations.OneHostOperationAtATime : Prop :=
  (∀ (s t : State) (w : Word) (rest : List HostInput), s.hostIn = .op w :: rest → s.dState ≠ .idle →
    step s = .next t → t.hostIn = s.hostIn) ∧
  (∀ (s : State) (rest : List HostInput), s.hostIn = .take :: rest → s.dState = .done → s.quiet = true →
    step s = .next { s with dState := .idle, hostIn := rest })

/-! ### Errors and contexts (60_exceptions.md) -/

/-- R241: the eight codes have the `res_status` of the table, as two's complement all are negative, and they are pairwise
different. -/
def Obligations.ErrorCodesAreDistinctAndNegative : Prop :=
  ErrCode.range.status = 0xFF ∧ ErrCode.noDevice.status = 0xFE ∧ ErrCode.badAddr.status = 0xFD ∧
  ErrCode.wselNack.status = 0xFC ∧ ErrCode.addrNack.status = 0xFB ∧ ErrCode.rselNack.status = 0xFA ∧
  ErrCode.integrity.status = 0xF9 ∧ ErrCode.unknownOp.status = 0xF8 ∧
  (∀ e : ErrCode, e.status.toInt < 0) ∧ ∀ e e' : ErrCode, e.status = e'.status → e = e'

/-- R240: no state stops the engine: a step always has a next state. -/
def Obligations.StepNeverStops : Prop :=
  ∀ s : State, ∃ t, step s = .next t

/-- R209, R260: the executor's actions leave the dispatch context's registers alone, and the dispatch sequencer's actions
leave the executor's registers, the pin and the mask alone. -/
def Obligations.ContextsWriteTheirOwnRegisters : Prop :=
  ∀ s : State,
    ((tickExecutor s).profSel = s.profSel ∧ (tickExecutor s).samp0 = s.samp0 ∧ (tickExecutor s).samp1 = s.samp1 ∧
      (tickExecutor s).samp2 = s.samp2 ∧ (tickExecutor s).acc = s.acc ∧ (tickExecutor s).idx = s.idx ∧
      (tickExecutor s).curAddr = s.curAddr ∧ (tickExecutor s).buf = s.buf ∧ (tickExecutor s).dlyD = s.dlyD ∧
      (tickExecutor s).opWord = s.opWord ∧ (tickExecutor s).rsp = s.rsp ∧ (tickExecutor s).dState = s.dState ∧
      (tickExecutor s).dStep = s.dStep ∧ (tickExecutor s).resValid = s.resValid ∧
      (tickExecutor s).resStatus = s.resStatus ∧ (tickExecutor s).resData = s.resData ∧
      (tickExecutor s).resLen = s.resLen) ∧
    ((tickDispatch s).pinDir = s.pinDir ∧ (tickDispatch s).pinLatch = s.pinLatch ∧
      (tickDispatch s).dlyCnt = s.dlyCnt ∧ (tickDispatch s).irqDis = s.irqDis ∧ (tickDispatch s).sh = s.sh ∧
      (tickDispatch s).bitcnt = s.bitcnt ∧ (tickDispatch s).ackbit = s.ackbit ∧
      (tickDispatch s).curReq = s.curReq ∧ (tickDispatch s).exRsp = s.exRsp ∧
      (tickDispatch s).exState = s.exState ∧ (tickDispatch s).exStep = s.exStep ∧
      (tickDispatch s).lineIn = s.lineIn ∧ (tickDispatch s).drawn = s.drawn)

/-! ### The machine (10_state.md, 70_reset_and_hazards.md) -/

/-- The step runs the decoded instruction. A request word in `req_slot` is popped and run by the executor (R200); a host
word presented to an idle engine is latched, `res_valid` cleared, and run (R220); a bus opcode byte on the dispatch
sequencer's line is sent (log 6). `exec` does the rest. -/
def Obligations.StepRunsTheDecodedInstruction : Prop :=
  (∀ (s : State) (w : Word) (i : Instr), resetAwaited s = false → s.exState = .wait → s.reqSlot = some w →
    decode (.chan w) = .ok i →
    step s = exec i { s with curReq := w, reqSlot := none, exState := .mask }) ∧
  (∀ (s : State) (w : Word) (rest : List HostInput) (i : Instr), s.hostIn = .op w :: rest →
    resetNext rest = false → s.dState = .idle → s.quiet = true → decode (.host w) = .ok i →
    step s = exec i { s with opWord := w, resValid := false, dState := .run, dStep := .entry, hostIn := rest }) ∧
  (∀ (s : State) (b : Byte) (i : Instr), resetAwaited s = false → s.dState = .run → s.dStep = .select b →
    s.quiet = true → decode (.bus b) = .ok i → step s = exec i { s with dStep := .ret })

/-- R211: a step is a run of the clocked machine, whose actions are the lines of the pseudocode and the cycles of the
delays; so the granularity of whole operations shows nothing the clocked machine does not do. For every state. -/
def Obligations.StepIsARunOfTheClockedMachine : Prop :=
  ∀ s t : State, step s = .next t → Reaches s t

/-- R280: `rst` at a clock edge puts every register at its reset value, in whatever the engine is doing; the configuration,
the host's later inputs and the line are outside the engine. The values R41 leaves unspecified are the model's (log 5). -/
def Obligations.ResetAbandonsEverything : Prop :=
  ∀ (s : State) (rest : List HostInput), s.hostIn = .rst 0 :: rest →
    step s = .next { State.resetOf s.cfg with hostIn := rest, lineIn := s.lineIn, drawn := s.drawn }

/-- R41, R280: the values the table "Reset values" states. -/
def Obligations.ResetValuesAreTheSpecs : Prop :=
  ∀ c : Config,
    (State.resetOf c).cfg = c ∧ (State.resetOf c).profSel = c.params.defaultSpeed ∧
    (State.resetOf c).pinLatch = false ∧
    (State.resetOf c).pinDir = false ∧ (State.resetOf c).dlyCnt = 0 ∧ (State.resetOf c).dlyD = 0 ∧
    (State.resetOf c).irqDis = false ∧ (State.resetOf c).exState = .wait ∧ (State.resetOf c).dState = .idle ∧
    (State.resetOf c).reqSlot = none ∧ (State.resetOf c).rspSlot = none ∧ (State.resetOf c).resValid = false ∧
    (State.resetOf c).trace = [] ∧ (State.resetOf c).reqCount = 0 ∧ (State.resetOf c).rspCount = 0 ∧
    State.reset = State.resetOf Config.hardware

/-- The invariant, the masking discipline and quiescence hold at reset. For `acc` (R23), `res_len` (R36) and `ex_step`
(R24), which R41 leaves unspecified at reset, the clauses `accTopZero`, `lengthBound` and `stepsInRun` hold by the
model's choice of 0 and empty (log 5). -/
def Obligations.InvariantHoldsAtReset : Prop :=
  EngineInv State.reset ∧ MaskedTrace State.reset ∧ Quiescent State.reset

/-- Every step keeps the invariant: the latch 0 (R33), the pin released outside `EX_RUN` (R208), the mask exactly around
an operation (R26), one outstanding request at most and exactly while the sequencer waits (R37, R38, R207), the counters
idle (R124), the bounds of R23, R36 and R181, and the canonical form of `buf`. Where the step is a reset (R280), the
clauses on `acc`, `res_len` and `ex_step` hold by the model's reset values (log 5). -/
def Obligations.EveryStepKeepsTheInvariant : Prop :=
  ∀ s t : State, EngineInv s → step s = .next t → EngineInv t

/-- R292, R74: every step keeps the discipline of the trace: low pulses, holds and samples only under the mask, settle
delays only outside it, the mask opened and closed in turn. -/
def Obligations.EveryStepKeepsTheMaskingDiscipline : Prop :=
  ∀ s t : State, EngineInv s → MaskedTrace s → step s = .next t → MaskedTrace t

/-- R21, R29: no step changes the configuration. -/
def Obligations.ConfigurationNeverChanges : Prop :=
  ∀ s t : State, step s = .next t → t.cfg = s.cfg

/-- R28, R291: from a state that meets the invariant only a reset or a `setSpeed` changes `prof_sel`, and a `setSpeed` only
with nothing outstanding, to the speed its word names. -/
def Obligations.OnlySetSpeedChangesTheProfile : Prop :=
  ∀ s t : State, EngineInv s → step s = .next t → t.profSel ≠ s.profSel →
    (resetNow s = true ∧ t.profSel = s.cfg.params.defaultSpeed) ∨
    (s.quiet = true ∧ ∃ w : Word, w.extractLsb' 24 8 = 0x15 ∧ t.profSel = w.extractLsb' 8 1 ∧
      ((s.dState = .idle ∧ s.hostIn.head? = some (.op w)) ∨
        (s.dState = .run ∧ s.dStep = .entry ∧ s.opWord = w)))

/-- R282, U17: with nothing presented the engine after reset waits, and goes on waiting. -/
def Obligations.IdleEngineWaits : Prop :=
  ∀ s : State, s.hostIn = [] → s.dState = .idle → s.quiet = true → step s = .next s

/-! ### More of 44_protocol_ops.md and 70_reset_and_hazards.md -/

/-- R300: how much nominal time a `verifiedRead` whose reads all succeed (two or three), a manufacturer id read that
succeeds, and an operation without bus activity put into the trace. For `setSpeed` the 0 rests on D24 (log 10). -/
def Obligations.NominalDurationsOfProcedures : Prop :=
  (∀ (dev a v0 v1 : Byte) (s : State), s.quiet = true → s.dState = .run →
    let read := 36 * s.profile.tBit + s.cfg.params.tSettleA + s.cfg.params.tSettleB
    let s1 := takeSample .first dev a s
    let s2 := takeSample .second dev a s1
    (readByte dev a s).1 = .val v0 → (readByte dev a s1).1 = .val v1 →
    (v0 = v1 → traceTime (verifiedRead dev a s).2.trace = traceTime s.trace + 2 * read) ∧
    (∀ v2, v0 ≠ v1 → (readByte dev a s2).1 = .val v2 →
      traceTime (verifiedRead dev a s).2.trace = traceTime s.trace + 3 * read)) ∧
  (∀ (dev : Byte) (s : State), s.quiet = true → levelAt s 0 = false → levelAt s 1 = false →
    ∃ t, exec (.hostManufacturerId dev) s = .next t ∧
      traceTime t.trace = traceTime s.trace + (s.cfg.params.tDscStart + s.cfg.params.tDscReset +
        s.cfg.params.tDscRec + s.cfg.params.tDscReq + s.cfg.params.tDscSmp + s.cfg.params.tDscEnd) +
        36 * s.profile.tBit) ∧
  (∀ (dev start length speed : Byte) (s : State), s.quiet = true →
    (∃ t, exec (.hostSetSpeed speed) s = .next t ∧ traceTime t.trace = traceTime s.trace) ∧
    (128 < start.toNat + length.toNat →
      ∃ t, exec (.hostReadBlock dev start length) s = .next t ∧ traceTime t.trace = traceTime s.trace)) ∧
  (∀ (w : Word) (rest : List HostInput) (s : State),
    (w.extractLsb' 24 8).toNat < 0x10 ∨ 0x15 < (w.extractLsb' 24 8).toNat →
    s.hostIn = .op w :: rest → resetNext rest = false → s.dState = .idle → s.quiet = true →
    ∃ t, step s = .next t ∧ traceTime t.trace = traceTime s.trace)

/-- R182, R225: a device that answers consistently up to address `start + m` and whose write-intent select is NACKed twice
there ends the block at once with `E_WSEL_NACK` (two equal errors agree, D19): later addresses are not read, nothing is
stored at or after `m`, the result has no length. For every position `m` in every block in range. The end in
`D_DONE` is the model's choice (R25, log 4). -/
def Obligations.BlockStopsWhereTheSelectIsNackedTwice : Prop :=
  ∀ (dev start length : Byte) (m : Nat) (data : Nat → Byte) (s : State), s.quiet = true → bufWf s.buf = true →
    start.toNat + length.toNat ≤ 128 → m < length.toNat → levelAt s 0 = false →
    (∀ k < m, ReadsAs s (1 + 22 * k) (data k) ∧ ReadsAs s (12 + 22 * k) (data k)) →
    levelAt s (1 + 22 * m) = true → levelAt s (2 + 22 * m) = true →
    ∃ t, exec (.hostReadBlock dev start length) s = .next t ∧
      t.resValid = true ∧ t.resStatus = 0xFC ∧ t.resData = 0 ∧ t.resLen = 0 ∧ t.dState = .done ∧
      (∀ k, m ≤ k → bufRead t.buf k = bufRead s.buf k) ∧
      t.reqCount = s.reqCount + 3 + 8 * m ∧ t.rspCount = s.rspCount + 3 + 8 * m ∧
      t.drawn = s.drawn + 3 + 22 * m

/-- R280, U18: a reset that falls `n` actions from now lets the engine take exactly these `n` actions, as if none were
coming, one a step, and falls at the edge after them, in whatever operation the engine is then: everything takes its reset
value but the configuration, the line and the host's later inputs (R281). Behind a word that an idle engine is presented
(R220) it lets the word be accepted first, and no more in that step; the operation is abandoned without a result. For every
state and every `n` (logs 4, 5). -/
def Obligations.AResetLandsOnItsEdge : Prop :=
  (∀ (s : State) (n : Nat) (rest : List HostInput), s.hostIn = .rst n :: rest →
    (∀ k ≤ n, step (ticks k s) = .next (ticks (k + 1) s) ∧
      ticks k s = { ticks k { s with hostIn := [] } with hostIn := .rst (n - k) :: rest }) ∧
    ticks (n + 1) s = { State.resetOf s.cfg with
      hostIn := rest, lineIn := (ticks n { s with hostIn := [] }).lineIn,
      drawn := (ticks n { s with hostIn := [] }).drawn }) ∧
  (∀ (s : State) (w : Word) (n : Nat) (rest : List HostInput), s.hostIn = .op w :: .rst n :: rest →
    s.dState = .idle → s.quiet = true →
    step s = .next { s with opWord := w, resValid := false, dState := .run, dStep := .entry, hostIn := .rst n :: rest } ∧
    (∀ k ≤ n + 1, step (ticks k s) = .next (ticks (k + 1) s)) ∧
    (ticks (n + 2) s).resValid = false ∧ (ticks (n + 2) s).dState = .idle ∧ (ticks (n + 2) s).exState = .wait ∧
    (ticks (n + 2) s).pinDir = false ∧ (ticks (n + 2) s).trace = [] ∧ (ticks (n + 2) s).hostIn = rest)

/-- R24, R25, R280: from reset, by the host's inputs alone, a reset can fall in every stage of either sequencer: in
`D_IDLE` and `EX_WAIT` where it is the first input, however late, and for each of the other stages there are a word, levels
and a number of actions after which the engine is in that stage with `rst` = 1 at the next edge. In every configuration.
That a reset is an input `rst n`, counted in actions of the clocked machine, is the model's choice (logs 4, 8). -/
def Obligations.EveryStageCanBeReset : Prop :=
  ∀ c : Config,
    let atRest := fun (levels : List Bool) (n : Nat) =>
      ticks n { State.resetOf c with hostIn := [.rst n], lineIn := levels }
    let atEdge := fun (w : Word) (levels : List Bool) (n : Nat) =>
      ticks (n + 1) { State.resetOf c with hostIn := [.op w, .rst n], lineIn := levels }
    (∀ levels n, (atRest levels n).dState = .idle ∧ (atRest levels n).exState = .wait ∧
      resetNow (atRest levels n) = true) ∧
    (∀ d ∈ [DState.run, .waitRsp, .delay, .done], ∃ w levels n,
      (atEdge w levels n).dState = d ∧ resetNow (atEdge w levels n) = true) ∧
    (∀ x ∈ [ExState.wait, .mask, .run, .unmask, .push], ∃ w levels n,
      (atEdge w levels n).exState = x ∧ resetNow (atEdge w levels n) = true)
end

