-- ==== Sys2Proof/Laws/Buffer.lean ====
section
/-! SUPPORT. The laws of the block buffer: a read after a write, and the canonical form. -/

namespace Sys2Proof.Machine

open Sys2Proof

@[simp] theorem bufRead_nil (a : Nat) : bufRead [] a = bufDefault := rfl

theorem bufRead_cons (k : Nat) (v : Byte) (m : List Host.Cell) (a : Nat) :
    bufRead ((k, v) :: m) a = if k = a then v else bufRead m a := rfl

theorem bufWfFrom_cons (lo k : Nat) (v : Byte) (m : List Host.Cell) :
    bufWfFrom lo ((k, v) :: m) = true ↔
      lo ≤ k ∧ k < eepromSize ∧ v ≠ bufDefault ∧ bufWfFrom (k + 1) m = true := by
  simp [bufWfFrom, and_assoc]

/-- The bound below the first address may be lowered. -/
theorem bufWfFrom_mono {lo lo' : Nat} (h : lo' ≤ lo) {m : List Host.Cell} (hw : bufWfFrom lo m = true) :
    bufWfFrom lo' m = true := by
  cases m with
  | nil => rfl
  | cons c m =>
    obtain ⟨k, v⟩ := c
    rw [bufWfFrom_cons] at hw ⊢
    exact ⟨by omega, hw.2⟩

/-- Below its first address a canonical buffer reads as the default. -/
theorem bufRead_below {lo a : Nat} {m : List Host.Cell} (hw : bufWfFrom lo m = true) (ha : a < lo) :
    bufRead m a = bufDefault := by
  induction m generalizing lo with
  | nil => rfl
  | cons c m ih =>
    obtain ⟨k, v⟩ := c
    rw [bufWfFrom_cons] at hw
    rw [bufRead_cons, if_neg (by omega)]
    exact ih hw.2.2.2 (by omega)

/-- Writing at an address at or above the bound keeps the form. -/
theorem bufWrite_wfFrom {lo a : Nat} {m : List Host.Cell} {b : Byte} (hw : bufWfFrom lo m = true)
    (hlo : lo ≤ a) (ha : a < eepromSize) : bufWfFrom lo (bufWrite m a b) = true := by
  induction m generalizing lo with
  | nil =>
    by_cases hb : b = bufDefault <;> simp [bufWrite, hb, bufWfFrom, hlo, ha]
  | cons c m ih =>
    obtain ⟨k, v⟩ := c
    have hc := (bufWfFrom_cons lo k v m).1 hw
    unfold bufWrite
    split
    · split
      · exact hw
      · exact (bufWfFrom_cons ..).2 ⟨hlo, ha, ‹_›, (bufWfFrom_cons ..).2 ⟨by omega, hc.2⟩⟩
    · split
      · split
        · exact bufWfFrom_mono (by omega) hc.2.2.2
        · exact (bufWfFrom_cons ..).2 ⟨hlo, ha, ‹_›, ‹a = k› ▸ hc.2.2.2⟩
      · exact (bufWfFrom_cons ..).2 ⟨hc.1, hc.2.1, hc.2.2.1, ih hc.2.2.2 (by omega)⟩

/-- A write inside the device's 128 bytes keeps the canonical form. -/
theorem bufWrite_wf {a : Nat} {m : List Host.Cell} {b : Byte} (hw : bufWf m = true) (ha : a < eepromSize) :
    bufWf (bufWrite m a b) = true := bufWrite_wfFrom hw (Nat.zero_le _) ha

/-- Read after write, from a canonical buffer. -/
theorem bufRead_bufWrite {lo : Nat} {m : List Host.Cell} (hw : bufWfFrom lo m = true) (a a' : Nat) (b : Byte) :
    bufRead (bufWrite m a b) a' = if a = a' then b else bufRead m a' := by
  induction m generalizing lo with
  | nil => by_cases hb : b = bufDefault <;> simp [bufWrite, hb, bufRead_cons]
  | cons c m ih =>
    obtain ⟨k, v⟩ := c
    have hc := (bufWfFrom_cons lo k v m).1 hw
    unfold bufWrite
    split
    · rename_i hak
      split
      · rename_i hb
        subst hb
        split
        · subst a'
          exact bufRead_below (lo := a + 1) ((bufWfFrom_cons ..).2 ⟨by omega, hc.2⟩) (by omega)
        · rfl
      · exact bufRead_cons ..
    · split
      · rename_i hak
        subst hak
        split
        · rename_i hb
          subst hb
          rw [bufRead_cons]
          split
          · subst a'
            exact bufRead_below hc.2.2.2 (by omega)
          · rfl
        · rw [bufRead_cons, bufRead_cons]
          split <;> rfl
      · rw [bufRead_cons, bufRead_cons, ih hc.2.2.2]
        by_cases h1 : k = a' <;> by_cases h2 : a = a' <;> simp_all

/-- A write changes one byte. -/
theorem bufRead_bufWrite_ne {a a' : Nat} (h : a ≠ a') (m : List Host.Cell) (b : Byte) (hw : bufWf m = true) :
    bufRead (bufWrite m a b) a' = bufRead m a' := by
  rw [bufRead_bufWrite hw, if_neg h]

/-- A write is read back. -/
theorem bufRead_bufWrite_same (m : List Host.Cell) (a : Nat) (b : Byte) (hw : bufWf m = true) :
    bufRead (bufWrite m a b) a = b := by
  rw [bufRead_bufWrite hw, if_pos rfl]

end Sys2Proof.Machine
end

