-- ==== Sys2Proof/Laws/State.lean ====
section
/-! SUPPORT. One lemma per field per update: what each named update of the state writes, and that it leaves every other
field alone. All are true by rfl and are simp lemmas, so that no later proof unfolds a record update. -/

namespace Sys2Proof.Machine

open Sys2Proof

/-! ### emit -/

@[simp] theorem emit_cfg (e : Event) (s : State) :
    (emit e s).cfg = s.cfg := rfl
@[simp] theorem emit_hostIn (e : Event) (s : State) :
    (emit e s).hostIn = s.hostIn := rfl
@[simp] theorem emit_lineIn (e : Event) (s : State) :
    (emit e s).lineIn = s.lineIn := rfl
@[simp] theorem emit_drawn (e : Event) (s : State) :
    (emit e s).drawn = s.drawn := rfl
@[simp] theorem emit_curReq (e : Event) (s : State) :
    (emit e s).curReq = s.curReq := rfl
@[simp] theorem emit_sh (e : Event) (s : State) :
    (emit e s).sh = s.sh := rfl
@[simp] theorem emit_bitcnt (e : Event) (s : State) :
    (emit e s).bitcnt = s.bitcnt := rfl
@[simp] theorem emit_ackbit (e : Event) (s : State) :
    (emit e s).ackbit = s.ackbit := rfl
@[simp] theorem emit_exRsp (e : Event) (s : State) :
    (emit e s).exRsp = s.exRsp := rfl
@[simp] theorem emit_exState (e : Event) (s : State) :
    (emit e s).exState = s.exState := rfl
@[simp] theorem emit_exStep (e : Event) (s : State) :
    (emit e s).exStep = s.exStep := rfl
@[simp] theorem emit_irqDis (e : Event) (s : State) :
    (emit e s).irqDis = s.irqDis := rfl
@[simp] theorem emit_pinDir (e : Event) (s : State) :
    (emit e s).pinDir = s.pinDir := rfl
@[simp] theorem emit_pinLatch (e : Event) (s : State) :
    (emit e s).pinLatch = s.pinLatch := rfl
@[simp] theorem emit_dlyCnt (e : Event) (s : State) :
    (emit e s).dlyCnt = s.dlyCnt := rfl
@[simp] theorem emit_opWord (e : Event) (s : State) :
    (emit e s).opWord = s.opWord := rfl
@[simp] theorem emit_samp0 (e : Event) (s : State) :
    (emit e s).samp0 = s.samp0 := rfl
@[simp] theorem emit_samp1 (e : Event) (s : State) :
    (emit e s).samp1 = s.samp1 := rfl
@[simp] theorem emit_samp2 (e : Event) (s : State) :
    (emit e s).samp2 = s.samp2 := rfl
@[simp] theorem emit_acc (e : Event) (s : State) :
    (emit e s).acc = s.acc := rfl
@[simp] theorem emit_idx (e : Event) (s : State) :
    (emit e s).idx = s.idx := rfl
@[simp] theorem emit_curAddr (e : Event) (s : State) :
    (emit e s).curAddr = s.curAddr := rfl
@[simp] theorem emit_rsp (e : Event) (s : State) :
    (emit e s).rsp = s.rsp := rfl
@[simp] theorem emit_dState (e : Event) (s : State) :
    (emit e s).dState = s.dState := rfl
@[simp] theorem emit_dStep (e : Event) (s : State) :
    (emit e s).dStep = s.dStep := rfl
@[simp] theorem emit_profSel (e : Event) (s : State) :
    (emit e s).profSel = s.profSel := rfl
@[simp] theorem emit_dlyD (e : Event) (s : State) :
    (emit e s).dlyD = s.dlyD := rfl
@[simp] theorem emit_buf (e : Event) (s : State) :
    (emit e s).buf = s.buf := rfl
@[simp] theorem emit_resValid (e : Event) (s : State) :
    (emit e s).resValid = s.resValid := rfl
@[simp] theorem emit_resStatus (e : Event) (s : State) :
    (emit e s).resStatus = s.resStatus := rfl
@[simp] theorem emit_resData (e : Event) (s : State) :
    (emit e s).resData = s.resData := rfl
@[simp] theorem emit_resLen (e : Event) (s : State) :
    (emit e s).resLen = s.resLen := rfl
@[simp] theorem emit_reqSlot (e : Event) (s : State) :
    (emit e s).reqSlot = s.reqSlot := rfl
@[simp] theorem emit_rspSlot (e : Event) (s : State) :
    (emit e s).rspSlot = s.rspSlot := rfl
@[simp] theorem emit_trace (e : Event) (s : State) :
    (emit e s).trace = s.trace ++ [e] := rfl
@[simp] theorem emit_reqCount (e : Event) (s : State) :
    (emit e s).reqCount = s.reqCount := rfl
@[simp] theorem emit_rspCount (e : Event) (s : State) :
    (emit e s).rspCount = s.rspCount := rfl

/-! ### driveLow -/

@[simp] theorem driveLow_cfg (s : State) :
    (driveLow s).cfg = s.cfg := rfl
@[simp] theorem driveLow_hostIn (s : State) :
    (driveLow s).hostIn = s.hostIn := rfl
@[simp] theorem driveLow_lineIn (s : State) :
    (driveLow s).lineIn = s.lineIn := rfl
@[simp] theorem driveLow_drawn (s : State) :
    (driveLow s).drawn = s.drawn := rfl
@[simp] theorem driveLow_curReq (s : State) :
    (driveLow s).curReq = s.curReq := rfl
@[simp] theorem driveLow_sh (s : State) :
    (driveLow s).sh = s.sh := rfl
@[simp] theorem driveLow_bitcnt (s : State) :
    (driveLow s).bitcnt = s.bitcnt := rfl
@[simp] theorem driveLow_ackbit (s : State) :
    (driveLow s).ackbit = s.ackbit := rfl
@[simp] theorem driveLow_exRsp (s : State) :
    (driveLow s).exRsp = s.exRsp := rfl
@[simp] theorem driveLow_exState (s : State) :
    (driveLow s).exState = s.exState := rfl
@[simp] theorem driveLow_exStep (s : State) :
    (driveLow s).exStep = s.exStep := rfl
@[simp] theorem driveLow_irqDis (s : State) :
    (driveLow s).irqDis = s.irqDis := rfl
@[simp] theorem driveLow_pinDir (s : State) :
    (driveLow s).pinDir = true := rfl
@[simp] theorem driveLow_pinLatch (s : State) :
    (driveLow s).pinLatch = s.pinLatch := rfl
@[simp] theorem driveLow_dlyCnt (s : State) :
    (driveLow s).dlyCnt = s.dlyCnt := rfl
@[simp] theorem driveLow_opWord (s : State) :
    (driveLow s).opWord = s.opWord := rfl
@[simp] theorem driveLow_samp0 (s : State) :
    (driveLow s).samp0 = s.samp0 := rfl
@[simp] theorem driveLow_samp1 (s : State) :
    (driveLow s).samp1 = s.samp1 := rfl
@[simp] theorem driveLow_samp2 (s : State) :
    (driveLow s).samp2 = s.samp2 := rfl
@[simp] theorem driveLow_acc (s : State) :
    (driveLow s).acc = s.acc := rfl
@[simp] theorem driveLow_idx (s : State) :
    (driveLow s).idx = s.idx := rfl
@[simp] theorem driveLow_curAddr (s : State) :
    (driveLow s).curAddr = s.curAddr := rfl
@[simp] theorem driveLow_rsp (s : State) :
    (driveLow s).rsp = s.rsp := rfl
@[simp] theorem driveLow_dState (s : State) :
    (driveLow s).dState = s.dState := rfl
@[simp] theorem driveLow_dStep (s : State) :
    (driveLow s).dStep = s.dStep := rfl
@[simp] theorem driveLow_profSel (s : State) :
    (driveLow s).profSel = s.profSel := rfl
@[simp] theorem driveLow_dlyD (s : State) :
    (driveLow s).dlyD = s.dlyD := rfl
@[simp] theorem driveLow_buf (s : State) :
    (driveLow s).buf = s.buf := rfl
@[simp] theorem driveLow_resValid (s : State) :
    (driveLow s).resValid = s.resValid := rfl
@[simp] theorem driveLow_resStatus (s : State) :
    (driveLow s).resStatus = s.resStatus := rfl
@[simp] theorem driveLow_resData (s : State) :
    (driveLow s).resData = s.resData := rfl
@[simp] theorem driveLow_resLen (s : State) :
    (driveLow s).resLen = s.resLen := rfl
@[simp] theorem driveLow_reqSlot (s : State) :
    (driveLow s).reqSlot = s.reqSlot := rfl
@[simp] theorem driveLow_rspSlot (s : State) :
    (driveLow s).rspSlot = s.rspSlot := rfl
@[simp] theorem driveLow_trace (s : State) :
    (driveLow s).trace = s.trace := rfl
@[simp] theorem driveLow_reqCount (s : State) :
    (driveLow s).reqCount = s.reqCount := rfl
@[simp] theorem driveLow_rspCount (s : State) :
    (driveLow s).rspCount = s.rspCount := rfl

/-! ### releaseHigh -/

@[simp] theorem releaseHigh_cfg (s : State) :
    (releaseHigh s).cfg = s.cfg := rfl
@[simp] theorem releaseHigh_hostIn (s : State) :
    (releaseHigh s).hostIn = s.hostIn := rfl
@[simp] theorem releaseHigh_lineIn (s : State) :
    (releaseHigh s).lineIn = s.lineIn := rfl
@[simp] theorem releaseHigh_drawn (s : State) :
    (releaseHigh s).drawn = s.drawn := rfl
@[simp] theorem releaseHigh_curReq (s : State) :
    (releaseHigh s).curReq = s.curReq := rfl
@[simp] theorem releaseHigh_sh (s : State) :
    (releaseHigh s).sh = s.sh := rfl
@[simp] theorem releaseHigh_bitcnt (s : State) :
    (releaseHigh s).bitcnt = s.bitcnt := rfl
@[simp] theorem releaseHigh_ackbit (s : State) :
    (releaseHigh s).ackbit = s.ackbit := rfl
@[simp] theorem releaseHigh_exRsp (s : State) :
    (releaseHigh s).exRsp = s.exRsp := rfl
@[simp] theorem releaseHigh_exState (s : State) :
    (releaseHigh s).exState = s.exState := rfl
@[simp] theorem releaseHigh_exStep (s : State) :
    (releaseHigh s).exStep = s.exStep := rfl
@[simp] theorem releaseHigh_irqDis (s : State) :
    (releaseHigh s).irqDis = s.irqDis := rfl
@[simp] theorem releaseHigh_pinDir (s : State) :
    (releaseHigh s).pinDir = false := rfl
@[simp] theorem releaseHigh_pinLatch (s : State) :
    (releaseHigh s).pinLatch = s.pinLatch := rfl
@[simp] theorem releaseHigh_dlyCnt (s : State) :
    (releaseHigh s).dlyCnt = s.dlyCnt := rfl
@[simp] theorem releaseHigh_opWord (s : State) :
    (releaseHigh s).opWord = s.opWord := rfl
@[simp] theorem releaseHigh_samp0 (s : State) :
    (releaseHigh s).samp0 = s.samp0 := rfl
@[simp] theorem releaseHigh_samp1 (s : State) :
    (releaseHigh s).samp1 = s.samp1 := rfl
@[simp] theorem releaseHigh_samp2 (s : State) :
    (releaseHigh s).samp2 = s.samp2 := rfl
@[simp] theorem releaseHigh_acc (s : State) :
    (releaseHigh s).acc = s.acc := rfl
@[simp] theorem releaseHigh_idx (s : State) :
    (releaseHigh s).idx = s.idx := rfl
@[simp] theorem releaseHigh_curAddr (s : State) :
    (releaseHigh s).curAddr = s.curAddr := rfl
@[simp] theorem releaseHigh_rsp (s : State) :
    (releaseHigh s).rsp = s.rsp := rfl
@[simp] theorem releaseHigh_dState (s : State) :
    (releaseHigh s).dState = s.dState := rfl
@[simp] theorem releaseHigh_dStep (s : State) :
    (releaseHigh s).dStep = s.dStep := rfl
@[simp] theorem releaseHigh_profSel (s : State) :
    (releaseHigh s).profSel = s.profSel := rfl
@[simp] theorem releaseHigh_dlyD (s : State) :
    (releaseHigh s).dlyD = s.dlyD := rfl
@[simp] theorem releaseHigh_buf (s : State) :
    (releaseHigh s).buf = s.buf := rfl
@[simp] theorem releaseHigh_resValid (s : State) :
    (releaseHigh s).resValid = s.resValid := rfl
@[simp] theorem releaseHigh_resStatus (s : State) :
    (releaseHigh s).resStatus = s.resStatus := rfl
@[simp] theorem releaseHigh_resData (s : State) :
    (releaseHigh s).resData = s.resData := rfl
@[simp] theorem releaseHigh_resLen (s : State) :
    (releaseHigh s).resLen = s.resLen := rfl
@[simp] theorem releaseHigh_reqSlot (s : State) :
    (releaseHigh s).reqSlot = s.reqSlot := rfl
@[simp] theorem releaseHigh_rspSlot (s : State) :
    (releaseHigh s).rspSlot = s.rspSlot := rfl
@[simp] theorem releaseHigh_trace (s : State) :
    (releaseHigh s).trace = s.trace := rfl
@[simp] theorem releaseHigh_reqCount (s : State) :
    (releaseHigh s).reqCount = s.reqCount := rfl
@[simp] theorem releaseHigh_rspCount (s : State) :
    (releaseHigh s).rspCount = s.rspCount := rfl

/-! ### consumeLevel -/

@[simp] theorem consumeLevel_cfg (s : State) :
    (consumeLevel s).cfg = s.cfg := rfl
@[simp] theorem consumeLevel_hostIn (s : State) :
    (consumeLevel s).hostIn = s.hostIn := rfl
@[simp] theorem consumeLevel_lineIn (s : State) :
    (consumeLevel s).lineIn = s.lineIn.tail := rfl
@[simp] theorem consumeLevel_drawn (s : State) :
    (consumeLevel s).drawn = s.drawn + 1 := rfl
@[simp] theorem consumeLevel_curReq (s : State) :
    (consumeLevel s).curReq = s.curReq := rfl
@[simp] theorem consumeLevel_sh (s : State) :
    (consumeLevel s).sh = s.sh := rfl
@[simp] theorem consumeLevel_bitcnt (s : State) :
    (consumeLevel s).bitcnt = s.bitcnt := rfl
@[simp] theorem consumeLevel_ackbit (s : State) :
    (consumeLevel s).ackbit = s.ackbit := rfl
@[simp] theorem consumeLevel_exRsp (s : State) :
    (consumeLevel s).exRsp = s.exRsp := rfl
@[simp] theorem consumeLevel_exState (s : State) :
    (consumeLevel s).exState = s.exState := rfl
@[simp] theorem consumeLevel_exStep (s : State) :
    (consumeLevel s).exStep = s.exStep := rfl
@[simp] theorem consumeLevel_irqDis (s : State) :
    (consumeLevel s).irqDis = s.irqDis := rfl
@[simp] theorem consumeLevel_pinDir (s : State) :
    (consumeLevel s).pinDir = s.pinDir := rfl
@[simp] theorem consumeLevel_pinLatch (s : State) :
    (consumeLevel s).pinLatch = s.pinLatch := rfl
@[simp] theorem consumeLevel_dlyCnt (s : State) :
    (consumeLevel s).dlyCnt = s.dlyCnt := rfl
@[simp] theorem consumeLevel_opWord (s : State) :
    (consumeLevel s).opWord = s.opWord := rfl
@[simp] theorem consumeLevel_samp0 (s : State) :
    (consumeLevel s).samp0 = s.samp0 := rfl
@[simp] theorem consumeLevel_samp1 (s : State) :
    (consumeLevel s).samp1 = s.samp1 := rfl
@[simp] theorem consumeLevel_samp2 (s : State) :
    (consumeLevel s).samp2 = s.samp2 := rfl
@[simp] theorem consumeLevel_acc (s : State) :
    (consumeLevel s).acc = s.acc := rfl
@[simp] theorem consumeLevel_idx (s : State) :
    (consumeLevel s).idx = s.idx := rfl
@[simp] theorem consumeLevel_curAddr (s : State) :
    (consumeLevel s).curAddr = s.curAddr := rfl
@[simp] theorem consumeLevel_rsp (s : State) :
    (consumeLevel s).rsp = s.rsp := rfl
@[simp] theorem consumeLevel_dState (s : State) :
    (consumeLevel s).dState = s.dState := rfl
@[simp] theorem consumeLevel_dStep (s : State) :
    (consumeLevel s).dStep = s.dStep := rfl
@[simp] theorem consumeLevel_profSel (s : State) :
    (consumeLevel s).profSel = s.profSel := rfl
@[simp] theorem consumeLevel_dlyD (s : State) :
    (consumeLevel s).dlyD = s.dlyD := rfl
@[simp] theorem consumeLevel_buf (s : State) :
    (consumeLevel s).buf = s.buf := rfl
@[simp] theorem consumeLevel_resValid (s : State) :
    (consumeLevel s).resValid = s.resValid := rfl
@[simp] theorem consumeLevel_resStatus (s : State) :
    (consumeLevel s).resStatus = s.resStatus := rfl
@[simp] theorem consumeLevel_resData (s : State) :
    (consumeLevel s).resData = s.resData := rfl
@[simp] theorem consumeLevel_resLen (s : State) :
    (consumeLevel s).resLen = s.resLen := rfl
@[simp] theorem consumeLevel_reqSlot (s : State) :
    (consumeLevel s).reqSlot = s.reqSlot := rfl
@[simp] theorem consumeLevel_rspSlot (s : State) :
    (consumeLevel s).rspSlot = s.rspSlot := rfl
@[simp] theorem consumeLevel_trace (s : State) :
    (consumeLevel s).trace = s.trace := rfl
@[simp] theorem consumeLevel_reqCount (s : State) :
    (consumeLevel s).reqCount = s.reqCount := rfl
@[simp] theorem consumeLevel_rspCount (s : State) :
    (consumeLevel s).rspCount = s.rspCount := rfl

/-! ### sample -/

@[simp] theorem sample_cfg (s : State) :
    (sample s).cfg = s.cfg := rfl
@[simp] theorem sample_hostIn (s : State) :
    (sample s).hostIn = s.hostIn := rfl
@[simp] theorem sample_lineIn (s : State) :
    (sample s).lineIn = s.lineIn.tail := rfl
@[simp] theorem sample_drawn (s : State) :
    (sample s).drawn = s.drawn + 1 := rfl
@[simp] theorem sample_curReq (s : State) :
    (sample s).curReq = s.curReq := rfl
@[simp] theorem sample_sh (s : State) :
    (sample s).sh = s.sh := rfl
@[simp] theorem sample_bitcnt (s : State) :
    (sample s).bitcnt = s.bitcnt := rfl
@[simp] theorem sample_ackbit (s : State) :
    (sample s).ackbit = s.ackbit := rfl
@[simp] theorem sample_exRsp (s : State) :
    (sample s).exRsp = s.exRsp := rfl
@[simp] theorem sample_exState (s : State) :
    (sample s).exState = s.exState := rfl
@[simp] theorem sample_exStep (s : State) :
    (sample s).exStep = s.exStep := rfl
@[simp] theorem sample_irqDis (s : State) :
    (sample s).irqDis = s.irqDis := rfl
@[simp] theorem sample_pinDir (s : State) :
    (sample s).pinDir = false := rfl
@[simp] theorem sample_pinLatch (s : State) :
    (sample s).pinLatch = s.pinLatch := rfl
@[simp] theorem sample_dlyCnt (s : State) :
    (sample s).dlyCnt = s.dlyCnt := rfl
@[simp] theorem sample_opWord (s : State) :
    (sample s).opWord = s.opWord := rfl
@[simp] theorem sample_samp0 (s : State) :
    (sample s).samp0 = s.samp0 := rfl
@[simp] theorem sample_samp1 (s : State) :
    (sample s).samp1 = s.samp1 := rfl
@[simp] theorem sample_samp2 (s : State) :
    (sample s).samp2 = s.samp2 := rfl
@[simp] theorem sample_acc (s : State) :
    (sample s).acc = s.acc := rfl
@[simp] theorem sample_idx (s : State) :
    (sample s).idx = s.idx := rfl
@[simp] theorem sample_curAddr (s : State) :
    (sample s).curAddr = s.curAddr := rfl
@[simp] theorem sample_rsp (s : State) :
    (sample s).rsp = s.rsp := rfl
@[simp] theorem sample_dState (s : State) :
    (sample s).dState = s.dState := rfl
@[simp] theorem sample_dStep (s : State) :
    (sample s).dStep = s.dStep := rfl
@[simp] theorem sample_profSel (s : State) :
    (sample s).profSel = s.profSel := rfl
@[simp] theorem sample_dlyD (s : State) :
    (sample s).dlyD = s.dlyD := rfl
@[simp] theorem sample_buf (s : State) :
    (sample s).buf = s.buf := rfl
@[simp] theorem sample_resValid (s : State) :
    (sample s).resValid = s.resValid := rfl
@[simp] theorem sample_resStatus (s : State) :
    (sample s).resStatus = s.resStatus := rfl
@[simp] theorem sample_resData (s : State) :
    (sample s).resData = s.resData := rfl
@[simp] theorem sample_resLen (s : State) :
    (sample s).resLen = s.resLen := rfl
@[simp] theorem sample_reqSlot (s : State) :
    (sample s).reqSlot = s.reqSlot := rfl
@[simp] theorem sample_rspSlot (s : State) :
    (sample s).rspSlot = s.rspSlot := rfl
@[simp] theorem sample_trace (s : State) :
    (sample s).trace = s.trace ++ [.sample (sampledBit s)] := rfl
@[simp] theorem sample_reqCount (s : State) :
    (sample s).reqCount = s.reqCount := rfl
@[simp] theorem sample_rspCount (s : State) :
    (sample s).rspCount = s.rspCount := rfl

/-! ### delayEx -/

@[simp] theorem delayEx_cfg (us : Nat) (s : State) :
    (delayEx us s).cfg = s.cfg := rfl
@[simp] theorem delayEx_hostIn (us : Nat) (s : State) :
    (delayEx us s).hostIn = s.hostIn := rfl
@[simp] theorem delayEx_lineIn (us : Nat) (s : State) :
    (delayEx us s).lineIn = s.lineIn := rfl
@[simp] theorem delayEx_drawn (us : Nat) (s : State) :
    (delayEx us s).drawn = s.drawn := rfl
@[simp] theorem delayEx_curReq (us : Nat) (s : State) :
    (delayEx us s).curReq = s.curReq := rfl
@[simp] theorem delayEx_sh (us : Nat) (s : State) :
    (delayEx us s).sh = s.sh := rfl
@[simp] theorem delayEx_bitcnt (us : Nat) (s : State) :
    (delayEx us s).bitcnt = s.bitcnt := rfl
@[simp] theorem delayEx_ackbit (us : Nat) (s : State) :
    (delayEx us s).ackbit = s.ackbit := rfl
@[simp] theorem delayEx_exRsp (us : Nat) (s : State) :
    (delayEx us s).exRsp = s.exRsp := rfl
@[simp] theorem delayEx_exState (us : Nat) (s : State) :
    (delayEx us s).exState = s.exState := rfl
@[simp] theorem delayEx_exStep (us : Nat) (s : State) :
    (delayEx us s).exStep = s.exStep := rfl
@[simp] theorem delayEx_irqDis (us : Nat) (s : State) :
    (delayEx us s).irqDis = s.irqDis := rfl
@[simp] theorem delayEx_pinDir (us : Nat) (s : State) :
    (delayEx us s).pinDir = s.pinDir := rfl
@[simp] theorem delayEx_pinLatch (us : Nat) (s : State) :
    (delayEx us s).pinLatch = s.pinLatch := rfl
@[simp] theorem delayEx_dlyCnt (us : Nat) (s : State) :
    (delayEx us s).dlyCnt = 0 := rfl
@[simp] theorem delayEx_opWord (us : Nat) (s : State) :
    (delayEx us s).opWord = s.opWord := rfl
@[simp] theorem delayEx_samp0 (us : Nat) (s : State) :
    (delayEx us s).samp0 = s.samp0 := rfl
@[simp] theorem delayEx_samp1 (us : Nat) (s : State) :
    (delayEx us s).samp1 = s.samp1 := rfl
@[simp] theorem delayEx_samp2 (us : Nat) (s : State) :
    (delayEx us s).samp2 = s.samp2 := rfl
@[simp] theorem delayEx_acc (us : Nat) (s : State) :
    (delayEx us s).acc = s.acc := rfl
@[simp] theorem delayEx_idx (us : Nat) (s : State) :
    (delayEx us s).idx = s.idx := rfl
@[simp] theorem delayEx_curAddr (us : Nat) (s : State) :
    (delayEx us s).curAddr = s.curAddr := rfl
@[simp] theorem delayEx_rsp (us : Nat) (s : State) :
    (delayEx us s).rsp = s.rsp := rfl
@[simp] theorem delayEx_dState (us : Nat) (s : State) :
    (delayEx us s).dState = s.dState := rfl
@[simp] theorem delayEx_dStep (us : Nat) (s : State) :
    (delayEx us s).dStep = s.dStep := rfl
@[simp] theorem delayEx_profSel (us : Nat) (s : State) :
    (delayEx us s).profSel = s.profSel := rfl
@[simp] theorem delayEx_dlyD (us : Nat) (s : State) :
    (delayEx us s).dlyD = s.dlyD := rfl
@[simp] theorem delayEx_buf (us : Nat) (s : State) :
    (delayEx us s).buf = s.buf := rfl
@[simp] theorem delayEx_resValid (us : Nat) (s : State) :
    (delayEx us s).resValid = s.resValid := rfl
@[simp] theorem delayEx_resStatus (us : Nat) (s : State) :
    (delayEx us s).resStatus = s.resStatus := rfl
@[simp] theorem delayEx_resData (us : Nat) (s : State) :
    (delayEx us s).resData = s.resData := rfl
@[simp] theorem delayEx_resLen (us : Nat) (s : State) :
    (delayEx us s).resLen = s.resLen := rfl
@[simp] theorem delayEx_reqSlot (us : Nat) (s : State) :
    (delayEx us s).reqSlot = s.reqSlot := rfl
@[simp] theorem delayEx_rspSlot (us : Nat) (s : State) :
    (delayEx us s).rspSlot = s.rspSlot := rfl
@[simp] theorem delayEx_trace (us : Nat) (s : State) :
    (delayEx us s).trace = s.trace ++ [holdEvent s us] := rfl
@[simp] theorem delayEx_reqCount (us : Nat) (s : State) :
    (delayEx us s).reqCount = s.reqCount := rfl
@[simp] theorem delayEx_rspCount (us : Nat) (s : State) :
    (delayEx us s).rspCount = s.rspCount := rfl

/-! ### delayDispatch -/

@[simp] theorem delayDispatch_cfg (us : Nat) (s : State) :
    (delayDispatch us s).cfg = s.cfg := rfl
@[simp] theorem delayDispatch_hostIn (us : Nat) (s : State) :
    (delayDispatch us s).hostIn = s.hostIn := rfl
@[simp] theorem delayDispatch_lineIn (us : Nat) (s : State) :
    (delayDispatch us s).lineIn = s.lineIn := rfl
@[simp] theorem delayDispatch_drawn (us : Nat) (s : State) :
    (delayDispatch us s).drawn = s.drawn := rfl
@[simp] theorem delayDispatch_curReq (us : Nat) (s : State) :
    (delayDispatch us s).curReq = s.curReq := rfl
@[simp] theorem delayDispatch_sh (us : Nat) (s : State) :
    (delayDispatch us s).sh = s.sh := rfl
@[simp] theorem delayDispatch_bitcnt (us : Nat) (s : State) :
    (delayDispatch us s).bitcnt = s.bitcnt := rfl
@[simp] theorem delayDispatch_ackbit (us : Nat) (s : State) :
    (delayDispatch us s).ackbit = s.ackbit := rfl
@[simp] theorem delayDispatch_exRsp (us : Nat) (s : State) :
    (delayDispatch us s).exRsp = s.exRsp := rfl
@[simp] theorem delayDispatch_exState (us : Nat) (s : State) :
    (delayDispatch us s).exState = s.exState := rfl
@[simp] theorem delayDispatch_exStep (us : Nat) (s : State) :
    (delayDispatch us s).exStep = s.exStep := rfl
@[simp] theorem delayDispatch_irqDis (us : Nat) (s : State) :
    (delayDispatch us s).irqDis = s.irqDis := rfl
@[simp] theorem delayDispatch_pinDir (us : Nat) (s : State) :
    (delayDispatch us s).pinDir = s.pinDir := rfl
@[simp] theorem delayDispatch_pinLatch (us : Nat) (s : State) :
    (delayDispatch us s).pinLatch = s.pinLatch := rfl
@[simp] theorem delayDispatch_dlyCnt (us : Nat) (s : State) :
    (delayDispatch us s).dlyCnt = s.dlyCnt := rfl
@[simp] theorem delayDispatch_opWord (us : Nat) (s : State) :
    (delayDispatch us s).opWord = s.opWord := rfl
@[simp] theorem delayDispatch_samp0 (us : Nat) (s : State) :
    (delayDispatch us s).samp0 = s.samp0 := rfl
@[simp] theorem delayDispatch_samp1 (us : Nat) (s : State) :
    (delayDispatch us s).samp1 = s.samp1 := rfl
@[simp] theorem delayDispatch_samp2 (us : Nat) (s : State) :
    (delayDispatch us s).samp2 = s.samp2 := rfl
@[simp] theorem delayDispatch_acc (us : Nat) (s : State) :
    (delayDispatch us s).acc = s.acc := rfl
@[simp] theorem delayDispatch_idx (us : Nat) (s : State) :
    (delayDispatch us s).idx = s.idx := rfl
@[simp] theorem delayDispatch_curAddr (us : Nat) (s : State) :
    (delayDispatch us s).curAddr = s.curAddr := rfl
@[simp] theorem delayDispatch_rsp (us : Nat) (s : State) :
    (delayDispatch us s).rsp = s.rsp := rfl
@[simp] theorem delayDispatch_dState (us : Nat) (s : State) :
    (delayDispatch us s).dState = .run := rfl
@[simp] theorem delayDispatch_dStep (us : Nat) (s : State) :
    (delayDispatch us s).dStep = s.dStep := rfl
@[simp] theorem delayDispatch_profSel (us : Nat) (s : State) :
    (delayDispatch us s).profSel = s.profSel := rfl
@[simp] theorem delayDispatch_dlyD (us : Nat) (s : State) :
    (delayDispatch us s).dlyD = 0 := rfl
@[simp] theorem delayDispatch_buf (us : Nat) (s : State) :
    (delayDispatch us s).buf = s.buf := rfl
@[simp] theorem delayDispatch_resValid (us : Nat) (s : State) :
    (delayDispatch us s).resValid = s.resValid := rfl
@[simp] theorem delayDispatch_resStatus (us : Nat) (s : State) :
    (delayDispatch us s).resStatus = s.resStatus := rfl
@[simp] theorem delayDispatch_resData (us : Nat) (s : State) :
    (delayDispatch us s).resData = s.resData := rfl
@[simp] theorem delayDispatch_resLen (us : Nat) (s : State) :
    (delayDispatch us s).resLen = s.resLen := rfl
@[simp] theorem delayDispatch_reqSlot (us : Nat) (s : State) :
    (delayDispatch us s).reqSlot = s.reqSlot := rfl
@[simp] theorem delayDispatch_rspSlot (us : Nat) (s : State) :
    (delayDispatch us s).rspSlot = s.rspSlot := rfl
@[simp] theorem delayDispatch_trace (us : Nat) (s : State) :
    (delayDispatch us s).trace = s.trace ++ [.idle us] := rfl
@[simp] theorem delayDispatch_reqCount (us : Nat) (s : State) :
    (delayDispatch us s).reqCount = s.reqCount := rfl
@[simp] theorem delayDispatch_rspCount (us : Nat) (s : State) :
    (delayDispatch us s).rspCount = s.rspCount := rfl

/-! ### pushRequest -/

@[simp] theorem pushRequest_cfg (opc payload : Byte) (s : State) :
    (pushRequest opc payload s).cfg = s.cfg := rfl
@[simp] theorem pushRequest_hostIn (opc payload : Byte) (s : State) :
    (pushRequest opc payload s).hostIn = s.hostIn := rfl
@[simp] theorem pushRequest_lineIn (opc payload : Byte) (s : State) :
    (pushRequest opc payload s).lineIn = s.lineIn := rfl
@[simp] theorem pushRequest_drawn (opc payload : Byte) (s : State) :
    (pushRequest opc payload s).drawn = s.drawn := rfl
@[simp] theorem pushRequest_curReq (opc payload : Byte) (s : State) :
    (pushRequest opc payload s).curReq = s.curReq := rfl
@[simp] theorem pushRequest_sh (opc payload : Byte) (s : State) :
    (pushRequest opc payload s).sh = s.sh := rfl
@[simp] theorem pushRequest_bitcnt (opc payload : Byte) (s : State) :
    (pushRequest opc payload s).bitcnt = s.bitcnt := rfl
@[simp] theorem pushRequest_ackbit (opc payload : Byte) (s : State) :
    (pushRequest opc payload s).ackbit = s.ackbit := rfl
@[simp] theorem pushRequest_exRsp (opc payload : Byte) (s : State) :
    (pushRequest opc payload s).exRsp = s.exRsp := rfl
@[simp] theorem pushRequest_exState (opc payload : Byte) (s : State) :
    (pushRequest opc payload s).exState = s.exState := rfl
@[simp] theorem pushRequest_exStep (opc payload : Byte) (s : State) :
    (pushRequest opc payload s).exStep = s.exStep := rfl
@[simp] theorem pushRequest_irqDis (opc payload : Byte) (s : State) :
    (pushRequest opc payload s).irqDis = s.irqDis := rfl
@[simp] theorem pushRequest_pinDir (opc payload : Byte) (s : State) :
    (pushRequest opc payload s).pinDir = s.pinDir := rfl
@[simp] theorem pushRequest_pinLatch (opc payload : Byte) (s : State) :
    (pushRequest opc payload s).pinLatch = s.pinLatch := rfl
@[simp] theorem pushRequest_dlyCnt (opc payload : Byte) (s : State) :
    (pushRequest opc payload s).dlyCnt = s.dlyCnt := rfl
@[simp] theorem pushRequest_opWord (opc payload : Byte) (s : State) :
    (pushRequest opc payload s).opWord = s.opWord := rfl
@[simp] theorem pushRequest_samp0 (opc payload : Byte) (s : State) :
    (pushRequest opc payload s).samp0 = s.samp0 := rfl
@[simp] theorem pushRequest_samp1 (opc payload : Byte) (s : State) :
    (pushRequest opc payload s).samp1 = s.samp1 := rfl
@[simp] theorem pushRequest_samp2 (opc payload : Byte) (s : State) :
    (pushRequest opc payload s).samp2 = s.samp2 := rfl
@[simp] theorem pushRequest_acc (opc payload : Byte) (s : State) :
    (pushRequest opc payload s).acc = s.acc := rfl
@[simp] theorem pushRequest_idx (opc payload : Byte) (s : State) :
    (pushRequest opc payload s).idx = s.idx := rfl
@[simp] theorem pushRequest_curAddr (opc payload : Byte) (s : State) :
    (pushRequest opc payload s).curAddr = s.curAddr := rfl
@[simp] theorem pushRequest_rsp (opc payload : Byte) (s : State) :
    (pushRequest opc payload s).rsp = s.rsp := rfl
@[simp] theorem pushRequest_dState (opc payload : Byte) (s : State) :
    (pushRequest opc payload s).dState = .waitRsp := rfl
@[simp] theorem pushRequest_dStep (opc payload : Byte) (s : State) :
    (pushRequest opc payload s).dStep = s.dStep := rfl
@[simp] theorem pushRequest_profSel (opc payload : Byte) (s : State) :
    (pushRequest opc payload s).profSel = s.profSel := rfl
@[simp] theorem pushRequest_dlyD (opc payload : Byte) (s : State) :
    (pushRequest opc payload s).dlyD = s.dlyD := rfl
@[simp] theorem pushRequest_buf (opc payload : Byte) (s : State) :
    (pushRequest opc payload s).buf = s.buf := rfl
@[simp] theorem pushRequest_resValid (opc payload : Byte) (s : State) :
    (pushRequest opc payload s).resValid = s.resValid := rfl
@[simp] theorem pushRequest_resStatus (opc payload : Byte) (s : State) :
    (pushRequest opc payload s).resStatus = s.resStatus := rfl
@[simp] theorem pushRequest_resData (opc payload : Byte) (s : State) :
    (pushRequest opc payload s).resData = s.resData := rfl
@[simp] theorem pushRequest_resLen (opc payload : Byte) (s : State) :
    (pushRequest opc payload s).resLen = s.resLen := rfl
@[simp] theorem pushRequest_reqSlot (opc payload : Byte) (s : State) :
    (pushRequest opc payload s).reqSlot = some (requestWord opc payload) := rfl
@[simp] theorem pushRequest_rspSlot (opc payload : Byte) (s : State) :
    (pushRequest opc payload s).rspSlot = s.rspSlot := rfl
@[simp] theorem pushRequest_trace (opc payload : Byte) (s : State) :
    (pushRequest opc payload s).trace = s.trace := rfl
@[simp] theorem pushRequest_reqCount (opc payload : Byte) (s : State) :
    (pushRequest opc payload s).reqCount = s.reqCount + 1 := rfl
@[simp] theorem pushRequest_rspCount (opc payload : Byte) (s : State) :
    (pushRequest opc payload s).rspCount = s.rspCount := rfl

/-! ### acceptHost -/

@[simp] theorem acceptHost_cfg (w : Word) (s : State) :
    (acceptHost w s).cfg = s.cfg := rfl
@[simp] theorem acceptHost_hostIn (w : Word) (s : State) :
    (acceptHost w s).hostIn = s.hostIn.tail := rfl
@[simp] theorem acceptHost_lineIn (w : Word) (s : State) :
    (acceptHost w s).lineIn = s.lineIn := rfl
@[simp] theorem acceptHost_drawn (w : Word) (s : State) :
    (acceptHost w s).drawn = s.drawn := rfl
@[simp] theorem acceptHost_curReq (w : Word) (s : State) :
    (acceptHost w s).curReq = s.curReq := rfl
@[simp] theorem acceptHost_sh (w : Word) (s : State) :
    (acceptHost w s).sh = s.sh := rfl
@[simp] theorem acceptHost_bitcnt (w : Word) (s : State) :
    (acceptHost w s).bitcnt = s.bitcnt := rfl
@[simp] theorem acceptHost_ackbit (w : Word) (s : State) :
    (acceptHost w s).ackbit = s.ackbit := rfl
@[simp] theorem acceptHost_exRsp (w : Word) (s : State) :
    (acceptHost w s).exRsp = s.exRsp := rfl
@[simp] theorem acceptHost_exState (w : Word) (s : State) :
    (acceptHost w s).exState = s.exState := rfl
@[simp] theorem acceptHost_exStep (w : Word) (s : State) :
    (acceptHost w s).exStep = s.exStep := rfl
@[simp] theorem acceptHost_irqDis (w : Word) (s : State) :
    (acceptHost w s).irqDis = s.irqDis := rfl
@[simp] theorem acceptHost_pinDir (w : Word) (s : State) :
    (acceptHost w s).pinDir = s.pinDir := rfl
@[simp] theorem acceptHost_pinLatch (w : Word) (s : State) :
    (acceptHost w s).pinLatch = s.pinLatch := rfl
@[simp] theorem acceptHost_dlyCnt (w : Word) (s : State) :
    (acceptHost w s).dlyCnt = s.dlyCnt := rfl
@[simp] theorem acceptHost_opWord (w : Word) (s : State) :
    (acceptHost w s).opWord = w := rfl
@[simp] theorem acceptHost_samp0 (w : Word) (s : State) :
    (acceptHost w s).samp0 = s.samp0 := rfl
@[simp] theorem acceptHost_samp1 (w : Word) (s : State) :
    (acceptHost w s).samp1 = s.samp1 := rfl
@[simp] theorem acceptHost_samp2 (w : Word) (s : State) :
    (acceptHost w s).samp2 = s.samp2 := rfl
@[simp] theorem acceptHost_acc (w : Word) (s : State) :
    (acceptHost w s).acc = s.acc := rfl
@[simp] theorem acceptHost_idx (w : Word) (s : State) :
    (acceptHost w s).idx = s.idx := rfl
@[simp] theorem acceptHost_curAddr (w : Word) (s : State) :
    (acceptHost w s).curAddr = s.curAddr := rfl
@[simp] theorem acceptHost_rsp (w : Word) (s : State) :
    (acceptHost w s).rsp = s.rsp := rfl
@[simp] theorem acceptHost_dState (w : Word) (s : State) :
    (acceptHost w s).dState = .run := rfl
@[simp] theorem acceptHost_dStep (w : Word) (s : State) :
    (acceptHost w s).dStep = .entry := rfl
@[simp] theorem acceptHost_profSel (w : Word) (s : State) :
    (acceptHost w s).profSel = s.profSel := rfl
@[simp] theorem acceptHost_dlyD (w : Word) (s : State) :
    (acceptHost w s).dlyD = s.dlyD := rfl
@[simp] theorem acceptHost_buf (w : Word) (s : State) :
    (acceptHost w s).buf = s.buf := rfl
@[simp] theorem acceptHost_resValid (w : Word) (s : State) :
    (acceptHost w s).resValid = false := rfl
@[simp] theorem acceptHost_resStatus (w : Word) (s : State) :
    (acceptHost w s).resStatus = s.resStatus := rfl
@[simp] theorem acceptHost_resData (w : Word) (s : State) :
    (acceptHost w s).resData = s.resData := rfl
@[simp] theorem acceptHost_resLen (w : Word) (s : State) :
    (acceptHost w s).resLen = s.resLen := rfl
@[simp] theorem acceptHost_reqSlot (w : Word) (s : State) :
    (acceptHost w s).reqSlot = s.reqSlot := rfl
@[simp] theorem acceptHost_rspSlot (w : Word) (s : State) :
    (acceptHost w s).rspSlot = s.rspSlot := rfl
@[simp] theorem acceptHost_trace (w : Word) (s : State) :
    (acceptHost w s).trace = s.trace := rfl
@[simp] theorem acceptHost_reqCount (w : Word) (s : State) :
    (acceptHost w s).reqCount = s.reqCount := rfl
@[simp] theorem acceptHost_rspCount (w : Word) (s : State) :
    (acceptHost w s).rspCount = s.rspCount := rfl

/-! ### finish -/

@[simp] theorem finish_cfg (status : Byte) (data : Word) (len : Byte) (s : State) :
    (finish status data len s).cfg = s.cfg := rfl
@[simp] theorem finish_hostIn (status : Byte) (data : Word) (len : Byte) (s : State) :
    (finish status data len s).hostIn = s.hostIn := rfl
@[simp] theorem finish_lineIn (status : Byte) (data : Word) (len : Byte) (s : State) :
    (finish status data len s).lineIn = s.lineIn := rfl
@[simp] theorem finish_drawn (status : Byte) (data : Word) (len : Byte) (s : State) :
    (finish status data len s).drawn = s.drawn := rfl
@[simp] theorem finish_curReq (status : Byte) (data : Word) (len : Byte) (s : State) :
    (finish status data len s).curReq = s.curReq := rfl
@[simp] theorem finish_sh (status : Byte) (data : Word) (len : Byte) (s : State) :
    (finish status data len s).sh = s.sh := rfl
@[simp] theorem finish_bitcnt (status : Byte) (data : Word) (len : Byte) (s : State) :
    (finish status data len s).bitcnt = s.bitcnt := rfl
@[simp] theorem finish_ackbit (status : Byte) (data : Word) (len : Byte) (s : State) :
    (finish status data len s).ackbit = s.ackbit := rfl
@[simp] theorem finish_exRsp (status : Byte) (data : Word) (len : Byte) (s : State) :
    (finish status data len s).exRsp = s.exRsp := rfl
@[simp] theorem finish_exState (status : Byte) (data : Word) (len : Byte) (s : State) :
    (finish status data len s).exState = s.exState := rfl
@[simp] theorem finish_exStep (status : Byte) (data : Word) (len : Byte) (s : State) :
    (finish status data len s).exStep = s.exStep := rfl
@[simp] theorem finish_irqDis (status : Byte) (data : Word) (len : Byte) (s : State) :
    (finish status data len s).irqDis = s.irqDis := rfl
@[simp] theorem finish_pinDir (status : Byte) (data : Word) (len : Byte) (s : State) :
    (finish status data len s).pinDir = s.pinDir := rfl
@[simp] theorem finish_pinLatch (status : Byte) (data : Word) (len : Byte) (s : State) :
    (finish status data len s).pinLatch = s.pinLatch := rfl
@[simp] theorem finish_dlyCnt (status : Byte) (data : Word) (len : Byte) (s : State) :
    (finish status data len s).dlyCnt = s.dlyCnt := rfl
@[simp] theorem finish_opWord (status : Byte) (data : Word) (len : Byte) (s : State) :
    (finish status data len s).opWord = s.opWord := rfl
@[simp] theorem finish_samp0 (status : Byte) (data : Word) (len : Byte) (s : State) :
    (finish status data len s).samp0 = s.samp0 := rfl
@[simp] theorem finish_samp1 (status : Byte) (data : Word) (len : Byte) (s : State) :
    (finish status data len s).samp1 = s.samp1 := rfl
@[simp] theorem finish_samp2 (status : Byte) (data : Word) (len : Byte) (s : State) :
    (finish status data len s).samp2 = s.samp2 := rfl
@[simp] theorem finish_acc (status : Byte) (data : Word) (len : Byte) (s : State) :
    (finish status data len s).acc = s.acc := rfl
@[simp] theorem finish_idx (status : Byte) (data : Word) (len : Byte) (s : State) :
    (finish status data len s).idx = s.idx := rfl
@[simp] theorem finish_curAddr (status : Byte) (data : Word) (len : Byte) (s : State) :
    (finish status data len s).curAddr = s.curAddr := rfl
@[simp] theorem finish_rsp (status : Byte) (data : Word) (len : Byte) (s : State) :
    (finish status data len s).rsp = s.rsp := rfl
@[simp] theorem finish_dState (status : Byte) (data : Word) (len : Byte) (s : State) :
    (finish status data len s).dState = .done := rfl
@[simp] theorem finish_dStep (status : Byte) (data : Word) (len : Byte) (s : State) :
    (finish status data len s).dStep = .entry := rfl
@[simp] theorem finish_profSel (status : Byte) (data : Word) (len : Byte) (s : State) :
    (finish status data len s).profSel = s.profSel := rfl
@[simp] theorem finish_dlyD (status : Byte) (data : Word) (len : Byte) (s : State) :
    (finish status data len s).dlyD = s.dlyD := rfl
@[simp] theorem finish_buf (status : Byte) (data : Word) (len : Byte) (s : State) :
    (finish status data len s).buf = s.buf := rfl
@[simp] theorem finish_resValid (status : Byte) (data : Word) (len : Byte) (s : State) :
    (finish status data len s).resValid = true := rfl
@[simp] theorem finish_resStatus (status : Byte) (data : Word) (len : Byte) (s : State) :
    (finish status data len s).resStatus = status := rfl
@[simp] theorem finish_resData (status : Byte) (data : Word) (len : Byte) (s : State) :
    (finish status data len s).resData = data := rfl
@[simp] theorem finish_resLen (status : Byte) (data : Word) (len : Byte) (s : State) :
    (finish status data len s).resLen = len := rfl
@[simp] theorem finish_reqSlot (status : Byte) (data : Word) (len : Byte) (s : State) :
    (finish status data len s).reqSlot = s.reqSlot := rfl
@[simp] theorem finish_rspSlot (status : Byte) (data : Word) (len : Byte) (s : State) :
    (finish status data len s).rspSlot = s.rspSlot := rfl
@[simp] theorem finish_trace (status : Byte) (data : Word) (len : Byte) (s : State) :
    (finish status data len s).trace = s.trace := rfl
@[simp] theorem finish_reqCount (status : Byte) (data : Word) (len : Byte) (s : State) :
    (finish status data len s).reqCount = s.reqCount := rfl
@[simp] theorem finish_rspCount (status : Byte) (data : Word) (len : Byte) (s : State) :
    (finish status data len s).rspCount = s.rspCount := rfl

/-! ### finishErr -/

@[simp] theorem finishErr_cfg (e : ErrCode) (s : State) :
    (finishErr e s).cfg = s.cfg := rfl
@[simp] theorem finishErr_hostIn (e : ErrCode) (s : State) :
    (finishErr e s).hostIn = s.hostIn := rfl
@[simp] theorem finishErr_lineIn (e : ErrCode) (s : State) :
    (finishErr e s).lineIn = s.lineIn := rfl
@[simp] theorem finishErr_drawn (e : ErrCode) (s : State) :
    (finishErr e s).drawn = s.drawn := rfl
@[simp] theorem finishErr_curReq (e : ErrCode) (s : State) :
    (finishErr e s).curReq = s.curReq := rfl
@[simp] theorem finishErr_sh (e : ErrCode) (s : State) :
    (finishErr e s).sh = s.sh := rfl
@[simp] theorem finishErr_bitcnt (e : ErrCode) (s : State) :
    (finishErr e s).bitcnt = s.bitcnt := rfl
@[simp] theorem finishErr_ackbit (e : ErrCode) (s : State) :
    (finishErr e s).ackbit = s.ackbit := rfl
@[simp] theorem finishErr_exRsp (e : ErrCode) (s : State) :
    (finishErr e s).exRsp = s.exRsp := rfl
@[simp] theorem finishErr_exState (e : ErrCode) (s : State) :
    (finishErr e s).exState = s.exState := rfl
@[simp] theorem finishErr_exStep (e : ErrCode) (s : State) :
    (finishErr e s).exStep = s.exStep := rfl
@[simp] theorem finishErr_irqDis (e : ErrCode) (s : State) :
    (finishErr e s).irqDis = s.irqDis := rfl
@[simp] theorem finishErr_pinDir (e : ErrCode) (s : State) :
    (finishErr e s).pinDir = s.pinDir := rfl
@[simp] theorem finishErr_pinLatch (e : ErrCode) (s : State) :
    (finishErr e s).pinLatch = s.pinLatch := rfl
@[simp] theorem finishErr_dlyCnt (e : ErrCode) (s : State) :
    (finishErr e s).dlyCnt = s.dlyCnt := rfl
@[simp] theorem finishErr_opWord (e : ErrCode) (s : State) :
    (finishErr e s).opWord = s.opWord := rfl
@[simp] theorem finishErr_samp0 (e : ErrCode) (s : State) :
    (finishErr e s).samp0 = s.samp0 := rfl
@[simp] theorem finishErr_samp1 (e : ErrCode) (s : State) :
    (finishErr e s).samp1 = s.samp1 := rfl
@[simp] theorem finishErr_samp2 (e : ErrCode) (s : State) :
    (finishErr e s).samp2 = s.samp2 := rfl
@[simp] theorem finishErr_acc (e : ErrCode) (s : State) :
    (finishErr e s).acc = s.acc := rfl
@[simp] theorem finishErr_idx (e : ErrCode) (s : State) :
    (finishErr e s).idx = s.idx := rfl
@[simp] theorem finishErr_curAddr (e : ErrCode) (s : State) :
    (finishErr e s).curAddr = s.curAddr := rfl
@[simp] theorem finishErr_rsp (e : ErrCode) (s : State) :
    (finishErr e s).rsp = s.rsp := rfl
@[simp] theorem finishErr_dState (e : ErrCode) (s : State) :
    (finishErr e s).dState = .done := rfl
@[simp] theorem finishErr_dStep (e : ErrCode) (s : State) :
    (finishErr e s).dStep = .entry := rfl
@[simp] theorem finishErr_profSel (e : ErrCode) (s : State) :
    (finishErr e s).profSel = s.profSel := rfl
@[simp] theorem finishErr_dlyD (e : ErrCode) (s : State) :
    (finishErr e s).dlyD = s.dlyD := rfl
@[simp] theorem finishErr_buf (e : ErrCode) (s : State) :
    (finishErr e s).buf = s.buf := rfl
@[simp] theorem finishErr_resValid (e : ErrCode) (s : State) :
    (finishErr e s).resValid = true := rfl
@[simp] theorem finishErr_resStatus (e : ErrCode) (s : State) :
    (finishErr e s).resStatus = e.status := rfl
@[simp] theorem finishErr_resData (e : ErrCode) (s : State) :
    (finishErr e s).resData = 0 := rfl
@[simp] theorem finishErr_resLen (e : ErrCode) (s : State) :
    (finishErr e s).resLen = 0 := rfl
@[simp] theorem finishErr_reqSlot (e : ErrCode) (s : State) :
    (finishErr e s).reqSlot = s.reqSlot := rfl
@[simp] theorem finishErr_rspSlot (e : ErrCode) (s : State) :
    (finishErr e s).rspSlot = s.rspSlot := rfl
@[simp] theorem finishErr_trace (e : ErrCode) (s : State) :
    (finishErr e s).trace = s.trace := rfl
@[simp] theorem finishErr_reqCount (e : ErrCode) (s : State) :
    (finishErr e s).reqCount = s.reqCount := rfl
@[simp] theorem finishErr_rspCount (e : ErrCode) (s : State) :
    (finishErr e s).rspCount = s.rspCount := rfl

/-! ### takeResult -/

@[simp] theorem takeResult_cfg (s : State) :
    (takeResult s).cfg = s.cfg := rfl
@[simp] theorem takeResult_hostIn (s : State) :
    (takeResult s).hostIn = s.hostIn.tail := rfl
@[simp] theorem takeResult_lineIn (s : State) :
    (takeResult s).lineIn = s.lineIn := rfl
@[simp] theorem takeResult_drawn (s : State) :
    (takeResult s).drawn = s.drawn := rfl
@[simp] theorem takeResult_curReq (s : State) :
    (takeResult s).curReq = s.curReq := rfl
@[simp] theorem takeResult_sh (s : State) :
    (takeResult s).sh = s.sh := rfl
@[simp] theorem takeResult_bitcnt (s : State) :
    (takeResult s).bitcnt = s.bitcnt := rfl
@[simp] theorem takeResult_ackbit (s : State) :
    (takeResult s).ackbit = s.ackbit := rfl
@[simp] theorem takeResult_exRsp (s : State) :
    (takeResult s).exRsp = s.exRsp := rfl
@[simp] theorem takeResult_exState (s : State) :
    (takeResult s).exState = s.exState := rfl
@[simp] theorem takeResult_exStep (s : State) :
    (takeResult s).exStep = s.exStep := rfl
@[simp] theorem takeResult_irqDis (s : State) :
    (takeResult s).irqDis = s.irqDis := rfl
@[simp] theorem takeResult_pinDir (s : State) :
    (takeResult s).pinDir = s.pinDir := rfl
@[simp] theorem takeResult_pinLatch (s : State) :
    (takeResult s).pinLatch = s.pinLatch := rfl
@[simp] theorem takeResult_dlyCnt (s : State) :
    (takeResult s).dlyCnt = s.dlyCnt := rfl
@[simp] theorem takeResult_opWord (s : State) :
    (takeResult s).opWord = s.opWord := rfl
@[simp] theorem takeResult_samp0 (s : State) :
    (takeResult s).samp0 = s.samp0 := rfl
@[simp] theorem takeResult_samp1 (s : State) :
    (takeResult s).samp1 = s.samp1 := rfl
@[simp] theorem takeResult_samp2 (s : State) :
    (takeResult s).samp2 = s.samp2 := rfl
@[simp] theorem takeResult_acc (s : State) :
    (takeResult s).acc = s.acc := rfl
@[simp] theorem takeResult_idx (s : State) :
    (takeResult s).idx = s.idx := rfl
@[simp] theorem takeResult_curAddr (s : State) :
    (takeResult s).curAddr = s.curAddr := rfl
@[simp] theorem takeResult_rsp (s : State) :
    (takeResult s).rsp = s.rsp := rfl
@[simp] theorem takeResult_dState (s : State) :
    (takeResult s).dState = .idle := rfl
@[simp] theorem takeResult_dStep (s : State) :
    (takeResult s).dStep = s.dStep := rfl
@[simp] theorem takeResult_profSel (s : State) :
    (takeResult s).profSel = s.profSel := rfl
@[simp] theorem takeResult_dlyD (s : State) :
    (takeResult s).dlyD = s.dlyD := rfl
@[simp] theorem takeResult_buf (s : State) :
    (takeResult s).buf = s.buf := rfl
@[simp] theorem takeResult_resValid (s : State) :
    (takeResult s).resValid = s.resValid := rfl
@[simp] theorem takeResult_resStatus (s : State) :
    (takeResult s).resStatus = s.resStatus := rfl
@[simp] theorem takeResult_resData (s : State) :
    (takeResult s).resData = s.resData := rfl
@[simp] theorem takeResult_resLen (s : State) :
    (takeResult s).resLen = s.resLen := rfl
@[simp] theorem takeResult_reqSlot (s : State) :
    (takeResult s).reqSlot = s.reqSlot := rfl
@[simp] theorem takeResult_rspSlot (s : State) :
    (takeResult s).rspSlot = s.rspSlot := rfl
@[simp] theorem takeResult_trace (s : State) :
    (takeResult s).trace = s.trace := rfl
@[simp] theorem takeResult_reqCount (s : State) :
    (takeResult s).reqCount = s.reqCount := rfl
@[simp] theorem takeResult_rspCount (s : State) :
    (takeResult s).rspCount = s.rspCount := rfl

/-! ### setAckbit -/

@[simp] theorem setAckbit_cfg (b : Bool) (s : State) :
    (setAckbit b s).cfg = s.cfg := rfl
@[simp] theorem setAckbit_hostIn (b : Bool) (s : State) :
    (setAckbit b s).hostIn = s.hostIn := rfl
@[simp] theorem setAckbit_lineIn (b : Bool) (s : State) :
    (setAckbit b s).lineIn = s.lineIn := rfl
@[simp] theorem setAckbit_drawn (b : Bool) (s : State) :
    (setAckbit b s).drawn = s.drawn := rfl
@[simp] theorem setAckbit_curReq (b : Bool) (s : State) :
    (setAckbit b s).curReq = s.curReq := rfl
@[simp] theorem setAckbit_sh (b : Bool) (s : State) :
    (setAckbit b s).sh = s.sh := rfl
@[simp] theorem setAckbit_bitcnt (b : Bool) (s : State) :
    (setAckbit b s).bitcnt = s.bitcnt := rfl
@[simp] theorem setAckbit_ackbit (b : Bool) (s : State) :
    (setAckbit b s).ackbit = b := rfl
@[simp] theorem setAckbit_exRsp (b : Bool) (s : State) :
    (setAckbit b s).exRsp = s.exRsp := rfl
@[simp] theorem setAckbit_exState (b : Bool) (s : State) :
    (setAckbit b s).exState = s.exState := rfl
@[simp] theorem setAckbit_exStep (b : Bool) (s : State) :
    (setAckbit b s).exStep = s.exStep := rfl
@[simp] theorem setAckbit_irqDis (b : Bool) (s : State) :
    (setAckbit b s).irqDis = s.irqDis := rfl
@[simp] theorem setAckbit_pinDir (b : Bool) (s : State) :
    (setAckbit b s).pinDir = s.pinDir := rfl
@[simp] theorem setAckbit_pinLatch (b : Bool) (s : State) :
    (setAckbit b s).pinLatch = s.pinLatch := rfl
@[simp] theorem setAckbit_dlyCnt (b : Bool) (s : State) :
    (setAckbit b s).dlyCnt = s.dlyCnt := rfl
@[simp] theorem setAckbit_opWord (b : Bool) (s : State) :
    (setAckbit b s).opWord = s.opWord := rfl
@[simp] theorem setAckbit_samp0 (b : Bool) (s : State) :
    (setAckbit b s).samp0 = s.samp0 := rfl
@[simp] theorem setAckbit_samp1 (b : Bool) (s : State) :
    (setAckbit b s).samp1 = s.samp1 := rfl
@[simp] theorem setAckbit_samp2 (b : Bool) (s : State) :
    (setAckbit b s).samp2 = s.samp2 := rfl
@[simp] theorem setAckbit_acc (b : Bool) (s : State) :
    (setAckbit b s).acc = s.acc := rfl
@[simp] theorem setAckbit_idx (b : Bool) (s : State) :
    (setAckbit b s).idx = s.idx := rfl
@[simp] theorem setAckbit_curAddr (b : Bool) (s : State) :
    (setAckbit b s).curAddr = s.curAddr := rfl
@[simp] theorem setAckbit_rsp (b : Bool) (s : State) :
    (setAckbit b s).rsp = s.rsp := rfl
@[simp] theorem setAckbit_dState (b : Bool) (s : State) :
    (setAckbit b s).dState = s.dState := rfl
@[simp] theorem setAckbit_dStep (b : Bool) (s : State) :
    (setAckbit b s).dStep = s.dStep := rfl
@[simp] theorem setAckbit_profSel (b : Bool) (s : State) :
    (setAckbit b s).profSel = s.profSel := rfl
@[simp] theorem setAckbit_dlyD (b : Bool) (s : State) :
    (setAckbit b s).dlyD = s.dlyD := rfl
@[simp] theorem setAckbit_buf (b : Bool) (s : State) :
    (setAckbit b s).buf = s.buf := rfl
@[simp] theorem setAckbit_resValid (b : Bool) (s : State) :
    (setAckbit b s).resValid = s.resValid := rfl
@[simp] theorem setAckbit_resStatus (b : Bool) (s : State) :
    (setAckbit b s).resStatus = s.resStatus := rfl
@[simp] theorem setAckbit_resData (b : Bool) (s : State) :
    (setAckbit b s).resData = s.resData := rfl
@[simp] theorem setAckbit_resLen (b : Bool) (s : State) :
    (setAckbit b s).resLen = s.resLen := rfl
@[simp] theorem setAckbit_reqSlot (b : Bool) (s : State) :
    (setAckbit b s).reqSlot = s.reqSlot := rfl
@[simp] theorem setAckbit_rspSlot (b : Bool) (s : State) :
    (setAckbit b s).rspSlot = s.rspSlot := rfl
@[simp] theorem setAckbit_trace (b : Bool) (s : State) :
    (setAckbit b s).trace = s.trace := rfl
@[simp] theorem setAckbit_reqCount (b : Bool) (s : State) :
    (setAckbit b s).reqCount = s.reqCount := rfl
@[simp] theorem setAckbit_rspCount (b : Bool) (s : State) :
    (setAckbit b s).rspCount = s.rspCount := rfl

/-! ### setResponse -/

@[simp] theorem setResponse_cfg (r : Byte) (s : State) :
    (setResponse r s).cfg = s.cfg := rfl
@[simp] theorem setResponse_hostIn (r : Byte) (s : State) :
    (setResponse r s).hostIn = s.hostIn := rfl
@[simp] theorem setResponse_lineIn (r : Byte) (s : State) :
    (setResponse r s).lineIn = s.lineIn := rfl
@[simp] theorem setResponse_drawn (r : Byte) (s : State) :
    (setResponse r s).drawn = s.drawn := rfl
@[simp] theorem setResponse_curReq (r : Byte) (s : State) :
    (setResponse r s).curReq = s.curReq := rfl
@[simp] theorem setResponse_sh (r : Byte) (s : State) :
    (setResponse r s).sh = s.sh := rfl
@[simp] theorem setResponse_bitcnt (r : Byte) (s : State) :
    (setResponse r s).bitcnt = s.bitcnt := rfl
@[simp] theorem setResponse_ackbit (r : Byte) (s : State) :
    (setResponse r s).ackbit = s.ackbit := rfl
@[simp] theorem setResponse_exRsp (r : Byte) (s : State) :
    (setResponse r s).exRsp = r := rfl
@[simp] theorem setResponse_exState (r : Byte) (s : State) :
    (setResponse r s).exState = s.exState := rfl
@[simp] theorem setResponse_exStep (r : Byte) (s : State) :
    (setResponse r s).exStep = s.exStep := rfl
@[simp] theorem setResponse_irqDis (r : Byte) (s : State) :
    (setResponse r s).irqDis = s.irqDis := rfl
@[simp] theorem setResponse_pinDir (r : Byte) (s : State) :
    (setResponse r s).pinDir = s.pinDir := rfl
@[simp] theorem setResponse_pinLatch (r : Byte) (s : State) :
    (setResponse r s).pinLatch = s.pinLatch := rfl
@[simp] theorem setResponse_dlyCnt (r : Byte) (s : State) :
    (setResponse r s).dlyCnt = s.dlyCnt := rfl
@[simp] theorem setResponse_opWord (r : Byte) (s : State) :
    (setResponse r s).opWord = s.opWord := rfl
@[simp] theorem setResponse_samp0 (r : Byte) (s : State) :
    (setResponse r s).samp0 = s.samp0 := rfl
@[simp] theorem setResponse_samp1 (r : Byte) (s : State) :
    (setResponse r s).samp1 = s.samp1 := rfl
@[simp] theorem setResponse_samp2 (r : Byte) (s : State) :
    (setResponse r s).samp2 = s.samp2 := rfl
@[simp] theorem setResponse_acc (r : Byte) (s : State) :
    (setResponse r s).acc = s.acc := rfl
@[simp] theorem setResponse_idx (r : Byte) (s : State) :
    (setResponse r s).idx = s.idx := rfl
@[simp] theorem setResponse_curAddr (r : Byte) (s : State) :
    (setResponse r s).curAddr = s.curAddr := rfl
@[simp] theorem setResponse_rsp (r : Byte) (s : State) :
    (setResponse r s).rsp = s.rsp := rfl
@[simp] theorem setResponse_dState (r : Byte) (s : State) :
    (setResponse r s).dState = s.dState := rfl
@[simp] theorem setResponse_dStep (r : Byte) (s : State) :
    (setResponse r s).dStep = s.dStep := rfl
@[simp] theorem setResponse_profSel (r : Byte) (s : State) :
    (setResponse r s).profSel = s.profSel := rfl
@[simp] theorem setResponse_dlyD (r : Byte) (s : State) :
    (setResponse r s).dlyD = s.dlyD := rfl
@[simp] theorem setResponse_buf (r : Byte) (s : State) :
    (setResponse r s).buf = s.buf := rfl
@[simp] theorem setResponse_resValid (r : Byte) (s : State) :
    (setResponse r s).resValid = s.resValid := rfl
@[simp] theorem setResponse_resStatus (r : Byte) (s : State) :
    (setResponse r s).resStatus = s.resStatus := rfl
@[simp] theorem setResponse_resData (r : Byte) (s : State) :
    (setResponse r s).resData = s.resData := rfl
@[simp] theorem setResponse_resLen (r : Byte) (s : State) :
    (setResponse r s).resLen = s.resLen := rfl
@[simp] theorem setResponse_reqSlot (r : Byte) (s : State) :
    (setResponse r s).reqSlot = s.reqSlot := rfl
@[simp] theorem setResponse_rspSlot (r : Byte) (s : State) :
    (setResponse r s).rspSlot = s.rspSlot := rfl
@[simp] theorem setResponse_trace (r : Byte) (s : State) :
    (setResponse r s).trace = s.trace := rfl
@[simp] theorem setResponse_reqCount (r : Byte) (s : State) :
    (setResponse r s).reqCount = s.reqCount := rfl
@[simp] theorem setResponse_rspCount (r : Byte) (s : State) :
    (setResponse r s).rspCount = s.rspCount := rfl

/-! ### maskIrq -/

@[simp] theorem maskIrq_cfg (s : State) :
    (maskIrq s).cfg = s.cfg := rfl
@[simp] theorem maskIrq_hostIn (s : State) :
    (maskIrq s).hostIn = s.hostIn := rfl
@[simp] theorem maskIrq_lineIn (s : State) :
    (maskIrq s).lineIn = s.lineIn := rfl
@[simp] theorem maskIrq_drawn (s : State) :
    (maskIrq s).drawn = s.drawn := rfl
@[simp] theorem maskIrq_curReq (s : State) :
    (maskIrq s).curReq = s.curReq := rfl
@[simp] theorem maskIrq_sh (s : State) :
    (maskIrq s).sh = s.sh := rfl
@[simp] theorem maskIrq_bitcnt (s : State) :
    (maskIrq s).bitcnt = s.bitcnt := rfl
@[simp] theorem maskIrq_ackbit (s : State) :
    (maskIrq s).ackbit = s.ackbit := rfl
@[simp] theorem maskIrq_exRsp (s : State) :
    (maskIrq s).exRsp = s.exRsp := rfl
@[simp] theorem maskIrq_exState (s : State) :
    (maskIrq s).exState = .run := rfl
@[simp] theorem maskIrq_exStep (s : State) :
    (maskIrq s).exStep = s.exStep := rfl
@[simp] theorem maskIrq_irqDis (s : State) :
    (maskIrq s).irqDis = true := rfl
@[simp] theorem maskIrq_pinDir (s : State) :
    (maskIrq s).pinDir = s.pinDir := rfl
@[simp] theorem maskIrq_pinLatch (s : State) :
    (maskIrq s).pinLatch = s.pinLatch := rfl
@[simp] theorem maskIrq_dlyCnt (s : State) :
    (maskIrq s).dlyCnt = s.dlyCnt := rfl
@[simp] theorem maskIrq_opWord (s : State) :
    (maskIrq s).opWord = s.opWord := rfl
@[simp] theorem maskIrq_samp0 (s : State) :
    (maskIrq s).samp0 = s.samp0 := rfl
@[simp] theorem maskIrq_samp1 (s : State) :
    (maskIrq s).samp1 = s.samp1 := rfl
@[simp] theorem maskIrq_samp2 (s : State) :
    (maskIrq s).samp2 = s.samp2 := rfl
@[simp] theorem maskIrq_acc (s : State) :
    (maskIrq s).acc = s.acc := rfl
@[simp] theorem maskIrq_idx (s : State) :
    (maskIrq s).idx = s.idx := rfl
@[simp] theorem maskIrq_curAddr (s : State) :
    (maskIrq s).curAddr = s.curAddr := rfl
@[simp] theorem maskIrq_rsp (s : State) :
    (maskIrq s).rsp = s.rsp := rfl
@[simp] theorem maskIrq_dState (s : State) :
    (maskIrq s).dState = s.dState := rfl
@[simp] theorem maskIrq_dStep (s : State) :
    (maskIrq s).dStep = s.dStep := rfl
@[simp] theorem maskIrq_profSel (s : State) :
    (maskIrq s).profSel = s.profSel := rfl
@[simp] theorem maskIrq_dlyD (s : State) :
    (maskIrq s).dlyD = s.dlyD := rfl
@[simp] theorem maskIrq_buf (s : State) :
    (maskIrq s).buf = s.buf := rfl
@[simp] theorem maskIrq_resValid (s : State) :
    (maskIrq s).resValid = s.resValid := rfl
@[simp] theorem maskIrq_resStatus (s : State) :
    (maskIrq s).resStatus = s.resStatus := rfl
@[simp] theorem maskIrq_resData (s : State) :
    (maskIrq s).resData = s.resData := rfl
@[simp] theorem maskIrq_resLen (s : State) :
    (maskIrq s).resLen = s.resLen := rfl
@[simp] theorem maskIrq_reqSlot (s : State) :
    (maskIrq s).reqSlot = s.reqSlot := rfl
@[simp] theorem maskIrq_rspSlot (s : State) :
    (maskIrq s).rspSlot = s.rspSlot := rfl
@[simp] theorem maskIrq_trace (s : State) :
    (maskIrq s).trace = s.trace ++ [.irq true] := rfl
@[simp] theorem maskIrq_reqCount (s : State) :
    (maskIrq s).reqCount = s.reqCount := rfl
@[simp] theorem maskIrq_rspCount (s : State) :
    (maskIrq s).rspCount = s.rspCount := rfl

/-! ### unmaskIrq -/

@[simp] theorem unmaskIrq_cfg (s : State) :
    (unmaskIrq s).cfg = s.cfg := rfl
@[simp] theorem unmaskIrq_hostIn (s : State) :
    (unmaskIrq s).hostIn = s.hostIn := rfl
@[simp] theorem unmaskIrq_lineIn (s : State) :
    (unmaskIrq s).lineIn = s.lineIn := rfl
@[simp] theorem unmaskIrq_drawn (s : State) :
    (unmaskIrq s).drawn = s.drawn := rfl
@[simp] theorem unmaskIrq_curReq (s : State) :
    (unmaskIrq s).curReq = s.curReq := rfl
@[simp] theorem unmaskIrq_sh (s : State) :
    (unmaskIrq s).sh = s.sh := rfl
@[simp] theorem unmaskIrq_bitcnt (s : State) :
    (unmaskIrq s).bitcnt = s.bitcnt := rfl
@[simp] theorem unmaskIrq_ackbit (s : State) :
    (unmaskIrq s).ackbit = s.ackbit := rfl
@[simp] theorem unmaskIrq_exRsp (s : State) :
    (unmaskIrq s).exRsp = s.exRsp := rfl
@[simp] theorem unmaskIrq_exState (s : State) :
    (unmaskIrq s).exState = .push := rfl
@[simp] theorem unmaskIrq_exStep (s : State) :
    (unmaskIrq s).exStep = [] := rfl
@[simp] theorem unmaskIrq_irqDis (s : State) :
    (unmaskIrq s).irqDis = false := rfl
@[simp] theorem unmaskIrq_pinDir (s : State) :
    (unmaskIrq s).pinDir = s.pinDir := rfl
@[simp] theorem unmaskIrq_pinLatch (s : State) :
    (unmaskIrq s).pinLatch = s.pinLatch := rfl
@[simp] theorem unmaskIrq_dlyCnt (s : State) :
    (unmaskIrq s).dlyCnt = s.dlyCnt := rfl
@[simp] theorem unmaskIrq_opWord (s : State) :
    (unmaskIrq s).opWord = s.opWord := rfl
@[simp] theorem unmaskIrq_samp0 (s : State) :
    (unmaskIrq s).samp0 = s.samp0 := rfl
@[simp] theorem unmaskIrq_samp1 (s : State) :
    (unmaskIrq s).samp1 = s.samp1 := rfl
@[simp] theorem unmaskIrq_samp2 (s : State) :
    (unmaskIrq s).samp2 = s.samp2 := rfl
@[simp] theorem unmaskIrq_acc (s : State) :
    (unmaskIrq s).acc = s.acc := rfl
@[simp] theorem unmaskIrq_idx (s : State) :
    (unmaskIrq s).idx = s.idx := rfl
@[simp] theorem unmaskIrq_curAddr (s : State) :
    (unmaskIrq s).curAddr = s.curAddr := rfl
@[simp] theorem unmaskIrq_rsp (s : State) :
    (unmaskIrq s).rsp = s.rsp := rfl
@[simp] theorem unmaskIrq_dState (s : State) :
    (unmaskIrq s).dState = s.dState := rfl
@[simp] theorem unmaskIrq_dStep (s : State) :
    (unmaskIrq s).dStep = s.dStep := rfl
@[simp] theorem unmaskIrq_profSel (s : State) :
    (unmaskIrq s).profSel = s.profSel := rfl
@[simp] theorem unmaskIrq_dlyD (s : State) :
    (unmaskIrq s).dlyD = s.dlyD := rfl
@[simp] theorem unmaskIrq_buf (s : State) :
    (unmaskIrq s).buf = s.buf := rfl
@[simp] theorem unmaskIrq_resValid (s : State) :
    (unmaskIrq s).resValid = s.resValid := rfl
@[simp] theorem unmaskIrq_resStatus (s : State) :
    (unmaskIrq s).resStatus = s.resStatus := rfl
@[simp] theorem unmaskIrq_resData (s : State) :
    (unmaskIrq s).resData = s.resData := rfl
@[simp] theorem unmaskIrq_resLen (s : State) :
    (unmaskIrq s).resLen = s.resLen := rfl
@[simp] theorem unmaskIrq_reqSlot (s : State) :
    (unmaskIrq s).reqSlot = s.reqSlot := rfl
@[simp] theorem unmaskIrq_rspSlot (s : State) :
    (unmaskIrq s).rspSlot = s.rspSlot := rfl
@[simp] theorem unmaskIrq_trace (s : State) :
    (unmaskIrq s).trace = s.trace ++ [.irq false] := rfl
@[simp] theorem unmaskIrq_reqCount (s : State) :
    (unmaskIrq s).reqCount = s.reqCount := rfl
@[simp] theorem unmaskIrq_rspCount (s : State) :
    (unmaskIrq s).rspCount = s.rspCount := rfl

/-! ### loadShift -/

@[simp] theorem loadShift_cfg (v : Byte) (s : State) :
    (loadShift v s).cfg = s.cfg := rfl
@[simp] theorem loadShift_hostIn (v : Byte) (s : State) :
    (loadShift v s).hostIn = s.hostIn := rfl
@[simp] theorem loadShift_lineIn (v : Byte) (s : State) :
    (loadShift v s).lineIn = s.lineIn := rfl
@[simp] theorem loadShift_drawn (v : Byte) (s : State) :
    (loadShift v s).drawn = s.drawn := rfl
@[simp] theorem loadShift_curReq (v : Byte) (s : State) :
    (loadShift v s).curReq = s.curReq := rfl
@[simp] theorem loadShift_sh (v : Byte) (s : State) :
    (loadShift v s).sh = v := rfl
@[simp] theorem loadShift_bitcnt (v : Byte) (s : State) :
    (loadShift v s).bitcnt = 0 := rfl
@[simp] theorem loadShift_ackbit (v : Byte) (s : State) :
    (loadShift v s).ackbit = s.ackbit := rfl
@[simp] theorem loadShift_exRsp (v : Byte) (s : State) :
    (loadShift v s).exRsp = s.exRsp := rfl
@[simp] theorem loadShift_exState (v : Byte) (s : State) :
    (loadShift v s).exState = s.exState := rfl
@[simp] theorem loadShift_exStep (v : Byte) (s : State) :
    (loadShift v s).exStep = s.exStep := rfl
@[simp] theorem loadShift_irqDis (v : Byte) (s : State) :
    (loadShift v s).irqDis = s.irqDis := rfl
@[simp] theorem loadShift_pinDir (v : Byte) (s : State) :
    (loadShift v s).pinDir = s.pinDir := rfl
@[simp] theorem loadShift_pinLatch (v : Byte) (s : State) :
    (loadShift v s).pinLatch = s.pinLatch := rfl
@[simp] theorem loadShift_dlyCnt (v : Byte) (s : State) :
    (loadShift v s).dlyCnt = s.dlyCnt := rfl
@[simp] theorem loadShift_opWord (v : Byte) (s : State) :
    (loadShift v s).opWord = s.opWord := rfl
@[simp] theorem loadShift_samp0 (v : Byte) (s : State) :
    (loadShift v s).samp0 = s.samp0 := rfl
@[simp] theorem loadShift_samp1 (v : Byte) (s : State) :
    (loadShift v s).samp1 = s.samp1 := rfl
@[simp] theorem loadShift_samp2 (v : Byte) (s : State) :
    (loadShift v s).samp2 = s.samp2 := rfl
@[simp] theorem loadShift_acc (v : Byte) (s : State) :
    (loadShift v s).acc = s.acc := rfl
@[simp] theorem loadShift_idx (v : Byte) (s : State) :
    (loadShift v s).idx = s.idx := rfl
@[simp] theorem loadShift_curAddr (v : Byte) (s : State) :
    (loadShift v s).curAddr = s.curAddr := rfl
@[simp] theorem loadShift_rsp (v : Byte) (s : State) :
    (loadShift v s).rsp = s.rsp := rfl
@[simp] theorem loadShift_dState (v : Byte) (s : State) :
    (loadShift v s).dState = s.dState := rfl
@[simp] theorem loadShift_dStep (v : Byte) (s : State) :
    (loadShift v s).dStep = s.dStep := rfl
@[simp] theorem loadShift_profSel (v : Byte) (s : State) :
    (loadShift v s).profSel = s.profSel := rfl
@[simp] theorem loadShift_dlyD (v : Byte) (s : State) :
    (loadShift v s).dlyD = s.dlyD := rfl
@[simp] theorem loadShift_buf (v : Byte) (s : State) :
    (loadShift v s).buf = s.buf := rfl
@[simp] theorem loadShift_resValid (v : Byte) (s : State) :
    (loadShift v s).resValid = s.resValid := rfl
@[simp] theorem loadShift_resStatus (v : Byte) (s : State) :
    (loadShift v s).resStatus = s.resStatus := rfl
@[simp] theorem loadShift_resData (v : Byte) (s : State) :
    (loadShift v s).resData = s.resData := rfl
@[simp] theorem loadShift_resLen (v : Byte) (s : State) :
    (loadShift v s).resLen = s.resLen := rfl
@[simp] theorem loadShift_reqSlot (v : Byte) (s : State) :
    (loadShift v s).reqSlot = s.reqSlot := rfl
@[simp] theorem loadShift_rspSlot (v : Byte) (s : State) :
    (loadShift v s).rspSlot = s.rspSlot := rfl
@[simp] theorem loadShift_trace (v : Byte) (s : State) :
    (loadShift v s).trace = s.trace := rfl
@[simp] theorem loadShift_reqCount (v : Byte) (s : State) :
    (loadShift v s).reqCount = s.reqCount := rfl
@[simp] theorem loadShift_rspCount (v : Byte) (s : State) :
    (loadShift v s).rspCount = s.rspCount := rfl

/-! ### shiftOut -/

@[simp] theorem shiftOut_cfg (s : State) :
    (shiftOut s).cfg = s.cfg := rfl
@[simp] theorem shiftOut_hostIn (s : State) :
    (shiftOut s).hostIn = s.hostIn := rfl
@[simp] theorem shiftOut_lineIn (s : State) :
    (shiftOut s).lineIn = s.lineIn := rfl
@[simp] theorem shiftOut_drawn (s : State) :
    (shiftOut s).drawn = s.drawn := rfl
@[simp] theorem shiftOut_curReq (s : State) :
    (shiftOut s).curReq = s.curReq := rfl
@[simp] theorem shiftOut_sh (s : State) :
    (shiftOut s).sh = shiftLeft s.sh := rfl
@[simp] theorem shiftOut_bitcnt (s : State) :
    (shiftOut s).bitcnt = s.bitcnt + 1 := rfl
@[simp] theorem shiftOut_ackbit (s : State) :
    (shiftOut s).ackbit = s.ackbit := rfl
@[simp] theorem shiftOut_exRsp (s : State) :
    (shiftOut s).exRsp = s.exRsp := rfl
@[simp] theorem shiftOut_exState (s : State) :
    (shiftOut s).exState = s.exState := rfl
@[simp] theorem shiftOut_exStep (s : State) :
    (shiftOut s).exStep = s.exStep := rfl
@[simp] theorem shiftOut_irqDis (s : State) :
    (shiftOut s).irqDis = s.irqDis := rfl
@[simp] theorem shiftOut_pinDir (s : State) :
    (shiftOut s).pinDir = s.pinDir := rfl
@[simp] theorem shiftOut_pinLatch (s : State) :
    (shiftOut s).pinLatch = s.pinLatch := rfl
@[simp] theorem shiftOut_dlyCnt (s : State) :
    (shiftOut s).dlyCnt = s.dlyCnt := rfl
@[simp] theorem shiftOut_opWord (s : State) :
    (shiftOut s).opWord = s.opWord := rfl
@[simp] theorem shiftOut_samp0 (s : State) :
    (shiftOut s).samp0 = s.samp0 := rfl
@[simp] theorem shiftOut_samp1 (s : State) :
    (shiftOut s).samp1 = s.samp1 := rfl
@[simp] theorem shiftOut_samp2 (s : State) :
    (shiftOut s).samp2 = s.samp2 := rfl
@[simp] theorem shiftOut_acc (s : State) :
    (shiftOut s).acc = s.acc := rfl
@[simp] theorem shiftOut_idx (s : State) :
    (shiftOut s).idx = s.idx := rfl
@[simp] theorem shiftOut_curAddr (s : State) :
    (shiftOut s).curAddr = s.curAddr := rfl
@[simp] theorem shiftOut_rsp (s : State) :
    (shiftOut s).rsp = s.rsp := rfl
@[simp] theorem shiftOut_dState (s : State) :
    (shiftOut s).dState = s.dState := rfl
@[simp] theorem shiftOut_dStep (s : State) :
    (shiftOut s).dStep = s.dStep := rfl
@[simp] theorem shiftOut_profSel (s : State) :
    (shiftOut s).profSel = s.profSel := rfl
@[simp] theorem shiftOut_dlyD (s : State) :
    (shiftOut s).dlyD = s.dlyD := rfl
@[simp] theorem shiftOut_buf (s : State) :
    (shiftOut s).buf = s.buf := rfl
@[simp] theorem shiftOut_resValid (s : State) :
    (shiftOut s).resValid = s.resValid := rfl
@[simp] theorem shiftOut_resStatus (s : State) :
    (shiftOut s).resStatus = s.resStatus := rfl
@[simp] theorem shiftOut_resData (s : State) :
    (shiftOut s).resData = s.resData := rfl
@[simp] theorem shiftOut_resLen (s : State) :
    (shiftOut s).resLen = s.resLen := rfl
@[simp] theorem shiftOut_reqSlot (s : State) :
    (shiftOut s).reqSlot = s.reqSlot := rfl
@[simp] theorem shiftOut_rspSlot (s : State) :
    (shiftOut s).rspSlot = s.rspSlot := rfl
@[simp] theorem shiftOut_trace (s : State) :
    (shiftOut s).trace = s.trace := rfl
@[simp] theorem shiftOut_reqCount (s : State) :
    (shiftOut s).reqCount = s.reqCount := rfl
@[simp] theorem shiftOut_rspCount (s : State) :
    (shiftOut s).rspCount = s.rspCount := rfl

/-! ### shiftIn -/

@[simp] theorem shiftIn_cfg (s : State) :
    (shiftIn s).cfg = s.cfg := rfl
@[simp] theorem shiftIn_hostIn (s : State) :
    (shiftIn s).hostIn = s.hostIn := rfl
@[simp] theorem shiftIn_lineIn (s : State) :
    (shiftIn s).lineIn = s.lineIn := rfl
@[simp] theorem shiftIn_drawn (s : State) :
    (shiftIn s).drawn = s.drawn := rfl
@[simp] theorem shiftIn_curReq (s : State) :
    (shiftIn s).curReq = s.curReq := rfl
@[simp] theorem shiftIn_sh (s : State) :
    (shiftIn s).sh = shiftInBit s.sh s.ackbit := rfl
@[simp] theorem shiftIn_bitcnt (s : State) :
    (shiftIn s).bitcnt = s.bitcnt + 1 := rfl
@[simp] theorem shiftIn_ackbit (s : State) :
    (shiftIn s).ackbit = s.ackbit := rfl
@[simp] theorem shiftIn_exRsp (s : State) :
    (shiftIn s).exRsp = s.exRsp := rfl
@[simp] theorem shiftIn_exState (s : State) :
    (shiftIn s).exState = s.exState := rfl
@[simp] theorem shiftIn_exStep (s : State) :
    (shiftIn s).exStep = s.exStep := rfl
@[simp] theorem shiftIn_irqDis (s : State) :
    (shiftIn s).irqDis = s.irqDis := rfl
@[simp] theorem shiftIn_pinDir (s : State) :
    (shiftIn s).pinDir = s.pinDir := rfl
@[simp] theorem shiftIn_pinLatch (s : State) :
    (shiftIn s).pinLatch = s.pinLatch := rfl
@[simp] theorem shiftIn_dlyCnt (s : State) :
    (shiftIn s).dlyCnt = s.dlyCnt := rfl
@[simp] theorem shiftIn_opWord (s : State) :
    (shiftIn s).opWord = s.opWord := rfl
@[simp] theorem shiftIn_samp0 (s : State) :
    (shiftIn s).samp0 = s.samp0 := rfl
@[simp] theorem shiftIn_samp1 (s : State) :
    (shiftIn s).samp1 = s.samp1 := rfl
@[simp] theorem shiftIn_samp2 (s : State) :
    (shiftIn s).samp2 = s.samp2 := rfl
@[simp] theorem shiftIn_acc (s : State) :
    (shiftIn s).acc = s.acc := rfl
@[simp] theorem shiftIn_idx (s : State) :
    (shiftIn s).idx = s.idx := rfl
@[simp] theorem shiftIn_curAddr (s : State) :
    (shiftIn s).curAddr = s.curAddr := rfl
@[simp] theorem shiftIn_rsp (s : State) :
    (shiftIn s).rsp = s.rsp := rfl
@[simp] theorem shiftIn_dState (s : State) :
    (shiftIn s).dState = s.dState := rfl
@[simp] theorem shiftIn_dStep (s : State) :
    (shiftIn s).dStep = s.dStep := rfl
@[simp] theorem shiftIn_profSel (s : State) :
    (shiftIn s).profSel = s.profSel := rfl
@[simp] theorem shiftIn_dlyD (s : State) :
    (shiftIn s).dlyD = s.dlyD := rfl
@[simp] theorem shiftIn_buf (s : State) :
    (shiftIn s).buf = s.buf := rfl
@[simp] theorem shiftIn_resValid (s : State) :
    (shiftIn s).resValid = s.resValid := rfl
@[simp] theorem shiftIn_resStatus (s : State) :
    (shiftIn s).resStatus = s.resStatus := rfl
@[simp] theorem shiftIn_resData (s : State) :
    (shiftIn s).resData = s.resData := rfl
@[simp] theorem shiftIn_resLen (s : State) :
    (shiftIn s).resLen = s.resLen := rfl
@[simp] theorem shiftIn_reqSlot (s : State) :
    (shiftIn s).reqSlot = s.reqSlot := rfl
@[simp] theorem shiftIn_rspSlot (s : State) :
    (shiftIn s).rspSlot = s.rspSlot := rfl
@[simp] theorem shiftIn_trace (s : State) :
    (shiftIn s).trace = s.trace := rfl
@[simp] theorem shiftIn_reqCount (s : State) :
    (shiftIn s).reqCount = s.reqCount := rfl
@[simp] theorem shiftIn_rspCount (s : State) :
    (shiftIn s).rspCount = s.rspCount := rfl

/-! ### storeByte -/

@[simp] theorem storeByte_cfg (b : Byte) (s : State) :
    (storeByte b s).cfg = s.cfg := rfl
@[simp] theorem storeByte_hostIn (b : Byte) (s : State) :
    (storeByte b s).hostIn = s.hostIn := rfl
@[simp] theorem storeByte_lineIn (b : Byte) (s : State) :
    (storeByte b s).lineIn = s.lineIn := rfl
@[simp] theorem storeByte_drawn (b : Byte) (s : State) :
    (storeByte b s).drawn = s.drawn := rfl
@[simp] theorem storeByte_curReq (b : Byte) (s : State) :
    (storeByte b s).curReq = s.curReq := rfl
@[simp] theorem storeByte_sh (b : Byte) (s : State) :
    (storeByte b s).sh = s.sh := rfl
@[simp] theorem storeByte_bitcnt (b : Byte) (s : State) :
    (storeByte b s).bitcnt = s.bitcnt := rfl
@[simp] theorem storeByte_ackbit (b : Byte) (s : State) :
    (storeByte b s).ackbit = s.ackbit := rfl
@[simp] theorem storeByte_exRsp (b : Byte) (s : State) :
    (storeByte b s).exRsp = s.exRsp := rfl
@[simp] theorem storeByte_exState (b : Byte) (s : State) :
    (storeByte b s).exState = s.exState := rfl
@[simp] theorem storeByte_exStep (b : Byte) (s : State) :
    (storeByte b s).exStep = s.exStep := rfl
@[simp] theorem storeByte_irqDis (b : Byte) (s : State) :
    (storeByte b s).irqDis = s.irqDis := rfl
@[simp] theorem storeByte_pinDir (b : Byte) (s : State) :
    (storeByte b s).pinDir = s.pinDir := rfl
@[simp] theorem storeByte_pinLatch (b : Byte) (s : State) :
    (storeByte b s).pinLatch = s.pinLatch := rfl
@[simp] theorem storeByte_dlyCnt (b : Byte) (s : State) :
    (storeByte b s).dlyCnt = s.dlyCnt := rfl
@[simp] theorem storeByte_opWord (b : Byte) (s : State) :
    (storeByte b s).opWord = s.opWord := rfl
@[simp] theorem storeByte_samp0 (b : Byte) (s : State) :
    (storeByte b s).samp0 = s.samp0 := rfl
@[simp] theorem storeByte_samp1 (b : Byte) (s : State) :
    (storeByte b s).samp1 = s.samp1 := rfl
@[simp] theorem storeByte_samp2 (b : Byte) (s : State) :
    (storeByte b s).samp2 = s.samp2 := rfl
@[simp] theorem storeByte_acc (b : Byte) (s : State) :
    (storeByte b s).acc = s.acc := rfl
@[simp] theorem storeByte_idx (b : Byte) (s : State) :
    (storeByte b s).idx = s.idx + 1 := rfl
@[simp] theorem storeByte_curAddr (b : Byte) (s : State) :
    (storeByte b s).curAddr = s.curAddr := rfl
@[simp] theorem storeByte_rsp (b : Byte) (s : State) :
    (storeByte b s).rsp = s.rsp := rfl
@[simp] theorem storeByte_dState (b : Byte) (s : State) :
    (storeByte b s).dState = s.dState := rfl
@[simp] theorem storeByte_dStep (b : Byte) (s : State) :
    (storeByte b s).dStep = s.dStep := rfl
@[simp] theorem storeByte_profSel (b : Byte) (s : State) :
    (storeByte b s).profSel = s.profSel := rfl
@[simp] theorem storeByte_dlyD (b : Byte) (s : State) :
    (storeByte b s).dlyD = s.dlyD := rfl
@[simp] theorem storeByte_buf (b : Byte) (s : State) :
    (storeByte b s).buf = bufWrite s.buf s.idx.toNat b := rfl
@[simp] theorem storeByte_resValid (b : Byte) (s : State) :
    (storeByte b s).resValid = s.resValid := rfl
@[simp] theorem storeByte_resStatus (b : Byte) (s : State) :
    (storeByte b s).resStatus = s.resStatus := rfl
@[simp] theorem storeByte_resData (b : Byte) (s : State) :
    (storeByte b s).resData = s.resData := rfl
@[simp] theorem storeByte_resLen (b : Byte) (s : State) :
    (storeByte b s).resLen = s.resLen := rfl
@[simp] theorem storeByte_reqSlot (b : Byte) (s : State) :
    (storeByte b s).reqSlot = s.reqSlot := rfl
@[simp] theorem storeByte_rspSlot (b : Byte) (s : State) :
    (storeByte b s).rspSlot = s.rspSlot := rfl
@[simp] theorem storeByte_trace (b : Byte) (s : State) :
    (storeByte b s).trace = s.trace := rfl
@[simp] theorem storeByte_reqCount (b : Byte) (s : State) :
    (storeByte b s).reqCount = s.reqCount := rfl
@[simp] theorem storeByte_rspCount (b : Byte) (s : State) :
    (storeByte b s).rspCount = s.rspCount := rfl

/-! ### setCurAddr -/

@[simp] theorem setCurAddr_cfg (start : Byte) (s : State) :
    (setCurAddr start s).cfg = s.cfg := rfl
@[simp] theorem setCurAddr_hostIn (start : Byte) (s : State) :
    (setCurAddr start s).hostIn = s.hostIn := rfl
@[simp] theorem setCurAddr_lineIn (start : Byte) (s : State) :
    (setCurAddr start s).lineIn = s.lineIn := rfl
@[simp] theorem setCurAddr_drawn (start : Byte) (s : State) :
    (setCurAddr start s).drawn = s.drawn := rfl
@[simp] theorem setCurAddr_curReq (start : Byte) (s : State) :
    (setCurAddr start s).curReq = s.curReq := rfl
@[simp] theorem setCurAddr_sh (start : Byte) (s : State) :
    (setCurAddr start s).sh = s.sh := rfl
@[simp] theorem setCurAddr_bitcnt (start : Byte) (s : State) :
    (setCurAddr start s).bitcnt = s.bitcnt := rfl
@[simp] theorem setCurAddr_ackbit (start : Byte) (s : State) :
    (setCurAddr start s).ackbit = s.ackbit := rfl
@[simp] theorem setCurAddr_exRsp (start : Byte) (s : State) :
    (setCurAddr start s).exRsp = s.exRsp := rfl
@[simp] theorem setCurAddr_exState (start : Byte) (s : State) :
    (setCurAddr start s).exState = s.exState := rfl
@[simp] theorem setCurAddr_exStep (start : Byte) (s : State) :
    (setCurAddr start s).exStep = s.exStep := rfl
@[simp] theorem setCurAddr_irqDis (start : Byte) (s : State) :
    (setCurAddr start s).irqDis = s.irqDis := rfl
@[simp] theorem setCurAddr_pinDir (start : Byte) (s : State) :
    (setCurAddr start s).pinDir = s.pinDir := rfl
@[simp] theorem setCurAddr_pinLatch (start : Byte) (s : State) :
    (setCurAddr start s).pinLatch = s.pinLatch := rfl
@[simp] theorem setCurAddr_dlyCnt (start : Byte) (s : State) :
    (setCurAddr start s).dlyCnt = s.dlyCnt := rfl
@[simp] theorem setCurAddr_opWord (start : Byte) (s : State) :
    (setCurAddr start s).opWord = s.opWord := rfl
@[simp] theorem setCurAddr_samp0 (start : Byte) (s : State) :
    (setCurAddr start s).samp0 = s.samp0 := rfl
@[simp] theorem setCurAddr_samp1 (start : Byte) (s : State) :
    (setCurAddr start s).samp1 = s.samp1 := rfl
@[simp] theorem setCurAddr_samp2 (start : Byte) (s : State) :
    (setCurAddr start s).samp2 = s.samp2 := rfl
@[simp] theorem setCurAddr_acc (start : Byte) (s : State) :
    (setCurAddr start s).acc = s.acc := rfl
@[simp] theorem setCurAddr_idx (start : Byte) (s : State) :
    (setCurAddr start s).idx = s.idx := rfl
@[simp] theorem setCurAddr_curAddr (start : Byte) (s : State) :
    (setCurAddr start s).curAddr = blockAddr start s.idx := rfl
@[simp] theorem setCurAddr_rsp (start : Byte) (s : State) :
    (setCurAddr start s).rsp = s.rsp := rfl
@[simp] theorem setCurAddr_dState (start : Byte) (s : State) :
    (setCurAddr start s).dState = s.dState := rfl
@[simp] theorem setCurAddr_dStep (start : Byte) (s : State) :
    (setCurAddr start s).dStep = s.dStep := rfl
@[simp] theorem setCurAddr_profSel (start : Byte) (s : State) :
    (setCurAddr start s).profSel = s.profSel := rfl
@[simp] theorem setCurAddr_dlyD (start : Byte) (s : State) :
    (setCurAddr start s).dlyD = s.dlyD := rfl
@[simp] theorem setCurAddr_buf (start : Byte) (s : State) :
    (setCurAddr start s).buf = s.buf := rfl
@[simp] theorem setCurAddr_resValid (start : Byte) (s : State) :
    (setCurAddr start s).resValid = s.resValid := rfl
@[simp] theorem setCurAddr_resStatus (start : Byte) (s : State) :
    (setCurAddr start s).resStatus = s.resStatus := rfl
@[simp] theorem setCurAddr_resData (start : Byte) (s : State) :
    (setCurAddr start s).resData = s.resData := rfl
@[simp] theorem setCurAddr_resLen (start : Byte) (s : State) :
    (setCurAddr start s).resLen = s.resLen := rfl
@[simp] theorem setCurAddr_reqSlot (start : Byte) (s : State) :
    (setCurAddr start s).reqSlot = s.reqSlot := rfl
@[simp] theorem setCurAddr_rspSlot (start : Byte) (s : State) :
    (setCurAddr start s).rspSlot = s.rspSlot := rfl
@[simp] theorem setCurAddr_trace (start : Byte) (s : State) :
    (setCurAddr start s).trace = s.trace := rfl
@[simp] theorem setCurAddr_reqCount (start : Byte) (s : State) :
    (setCurAddr start s).reqCount = s.reqCount := rfl
@[simp] theorem setCurAddr_rspCount (start : Byte) (s : State) :
    (setCurAddr start s).rspCount = s.rspCount := rfl

/-! ### clearIdx -/

@[simp] theorem clearIdx_cfg (s : State) :
    (clearIdx s).cfg = s.cfg := rfl
@[simp] theorem clearIdx_hostIn (s : State) :
    (clearIdx s).hostIn = s.hostIn := rfl
@[simp] theorem clearIdx_lineIn (s : State) :
    (clearIdx s).lineIn = s.lineIn := rfl
@[simp] theorem clearIdx_drawn (s : State) :
    (clearIdx s).drawn = s.drawn := rfl
@[simp] theorem clearIdx_curReq (s : State) :
    (clearIdx s).curReq = s.curReq := rfl
@[simp] theorem clearIdx_sh (s : State) :
    (clearIdx s).sh = s.sh := rfl
@[simp] theorem clearIdx_bitcnt (s : State) :
    (clearIdx s).bitcnt = s.bitcnt := rfl
@[simp] theorem clearIdx_ackbit (s : State) :
    (clearIdx s).ackbit = s.ackbit := rfl
@[simp] theorem clearIdx_exRsp (s : State) :
    (clearIdx s).exRsp = s.exRsp := rfl
@[simp] theorem clearIdx_exState (s : State) :
    (clearIdx s).exState = s.exState := rfl
@[simp] theorem clearIdx_exStep (s : State) :
    (clearIdx s).exStep = s.exStep := rfl
@[simp] theorem clearIdx_irqDis (s : State) :
    (clearIdx s).irqDis = s.irqDis := rfl
@[simp] theorem clearIdx_pinDir (s : State) :
    (clearIdx s).pinDir = s.pinDir := rfl
@[simp] theorem clearIdx_pinLatch (s : State) :
    (clearIdx s).pinLatch = s.pinLatch := rfl
@[simp] theorem clearIdx_dlyCnt (s : State) :
    (clearIdx s).dlyCnt = s.dlyCnt := rfl
@[simp] theorem clearIdx_opWord (s : State) :
    (clearIdx s).opWord = s.opWord := rfl
@[simp] theorem clearIdx_samp0 (s : State) :
    (clearIdx s).samp0 = s.samp0 := rfl
@[simp] theorem clearIdx_samp1 (s : State) :
    (clearIdx s).samp1 = s.samp1 := rfl
@[simp] theorem clearIdx_samp2 (s : State) :
    (clearIdx s).samp2 = s.samp2 := rfl
@[simp] theorem clearIdx_acc (s : State) :
    (clearIdx s).acc = s.acc := rfl
@[simp] theorem clearIdx_idx (s : State) :
    (clearIdx s).idx = 0 := rfl
@[simp] theorem clearIdx_curAddr (s : State) :
    (clearIdx s).curAddr = s.curAddr := rfl
@[simp] theorem clearIdx_rsp (s : State) :
    (clearIdx s).rsp = s.rsp := rfl
@[simp] theorem clearIdx_dState (s : State) :
    (clearIdx s).dState = s.dState := rfl
@[simp] theorem clearIdx_dStep (s : State) :
    (clearIdx s).dStep = s.dStep := rfl
@[simp] theorem clearIdx_profSel (s : State) :
    (clearIdx s).profSel = s.profSel := rfl
@[simp] theorem clearIdx_dlyD (s : State) :
    (clearIdx s).dlyD = s.dlyD := rfl
@[simp] theorem clearIdx_buf (s : State) :
    (clearIdx s).buf = s.buf := rfl
@[simp] theorem clearIdx_resValid (s : State) :
    (clearIdx s).resValid = s.resValid := rfl
@[simp] theorem clearIdx_resStatus (s : State) :
    (clearIdx s).resStatus = s.resStatus := rfl
@[simp] theorem clearIdx_resData (s : State) :
    (clearIdx s).resData = s.resData := rfl
@[simp] theorem clearIdx_resLen (s : State) :
    (clearIdx s).resLen = s.resLen := rfl
@[simp] theorem clearIdx_reqSlot (s : State) :
    (clearIdx s).reqSlot = s.reqSlot := rfl
@[simp] theorem clearIdx_rspSlot (s : State) :
    (clearIdx s).rspSlot = s.rspSlot := rfl
@[simp] theorem clearIdx_trace (s : State) :
    (clearIdx s).trace = s.trace := rfl
@[simp] theorem clearIdx_reqCount (s : State) :
    (clearIdx s).reqCount = s.reqCount := rfl
@[simp] theorem clearIdx_rspCount (s : State) :
    (clearIdx s).rspCount = s.rspCount := rfl

/-! ### setAcc -/

@[simp] theorem setAcc_cfg (b0 b1 b2 : Byte) (s : State) :
    (setAcc b0 b1 b2 s).cfg = s.cfg := rfl
@[simp] theorem setAcc_hostIn (b0 b1 b2 : Byte) (s : State) :
    (setAcc b0 b1 b2 s).hostIn = s.hostIn := rfl
@[simp] theorem setAcc_lineIn (b0 b1 b2 : Byte) (s : State) :
    (setAcc b0 b1 b2 s).lineIn = s.lineIn := rfl
@[simp] theorem setAcc_drawn (b0 b1 b2 : Byte) (s : State) :
    (setAcc b0 b1 b2 s).drawn = s.drawn := rfl
@[simp] theorem setAcc_curReq (b0 b1 b2 : Byte) (s : State) :
    (setAcc b0 b1 b2 s).curReq = s.curReq := rfl
@[simp] theorem setAcc_sh (b0 b1 b2 : Byte) (s : State) :
    (setAcc b0 b1 b2 s).sh = s.sh := rfl
@[simp] theorem setAcc_bitcnt (b0 b1 b2 : Byte) (s : State) :
    (setAcc b0 b1 b2 s).bitcnt = s.bitcnt := rfl
@[simp] theorem setAcc_ackbit (b0 b1 b2 : Byte) (s : State) :
    (setAcc b0 b1 b2 s).ackbit = s.ackbit := rfl
@[simp] theorem setAcc_exRsp (b0 b1 b2 : Byte) (s : State) :
    (setAcc b0 b1 b2 s).exRsp = s.exRsp := rfl
@[simp] theorem setAcc_exState (b0 b1 b2 : Byte) (s : State) :
    (setAcc b0 b1 b2 s).exState = s.exState := rfl
@[simp] theorem setAcc_exStep (b0 b1 b2 : Byte) (s : State) :
    (setAcc b0 b1 b2 s).exStep = s.exStep := rfl
@[simp] theorem setAcc_irqDis (b0 b1 b2 : Byte) (s : State) :
    (setAcc b0 b1 b2 s).irqDis = s.irqDis := rfl
@[simp] theorem setAcc_pinDir (b0 b1 b2 : Byte) (s : State) :
    (setAcc b0 b1 b2 s).pinDir = s.pinDir := rfl
@[simp] theorem setAcc_pinLatch (b0 b1 b2 : Byte) (s : State) :
    (setAcc b0 b1 b2 s).pinLatch = s.pinLatch := rfl
@[simp] theorem setAcc_dlyCnt (b0 b1 b2 : Byte) (s : State) :
    (setAcc b0 b1 b2 s).dlyCnt = s.dlyCnt := rfl
@[simp] theorem setAcc_opWord (b0 b1 b2 : Byte) (s : State) :
    (setAcc b0 b1 b2 s).opWord = s.opWord := rfl
@[simp] theorem setAcc_samp0 (b0 b1 b2 : Byte) (s : State) :
    (setAcc b0 b1 b2 s).samp0 = s.samp0 := rfl
@[simp] theorem setAcc_samp1 (b0 b1 b2 : Byte) (s : State) :
    (setAcc b0 b1 b2 s).samp1 = s.samp1 := rfl
@[simp] theorem setAcc_samp2 (b0 b1 b2 : Byte) (s : State) :
    (setAcc b0 b1 b2 s).samp2 = s.samp2 := rfl
@[simp] theorem setAcc_acc (b0 b1 b2 : Byte) (s : State) :
    (setAcc b0 b1 b2 s).acc = packId b0 b1 b2 := rfl
@[simp] theorem setAcc_idx (b0 b1 b2 : Byte) (s : State) :
    (setAcc b0 b1 b2 s).idx = s.idx := rfl
@[simp] theorem setAcc_curAddr (b0 b1 b2 : Byte) (s : State) :
    (setAcc b0 b1 b2 s).curAddr = s.curAddr := rfl
@[simp] theorem setAcc_rsp (b0 b1 b2 : Byte) (s : State) :
    (setAcc b0 b1 b2 s).rsp = s.rsp := rfl
@[simp] theorem setAcc_dState (b0 b1 b2 : Byte) (s : State) :
    (setAcc b0 b1 b2 s).dState = s.dState := rfl
@[simp] theorem setAcc_dStep (b0 b1 b2 : Byte) (s : State) :
    (setAcc b0 b1 b2 s).dStep = s.dStep := rfl
@[simp] theorem setAcc_profSel (b0 b1 b2 : Byte) (s : State) :
    (setAcc b0 b1 b2 s).profSel = s.profSel := rfl
@[simp] theorem setAcc_dlyD (b0 b1 b2 : Byte) (s : State) :
    (setAcc b0 b1 b2 s).dlyD = s.dlyD := rfl
@[simp] theorem setAcc_buf (b0 b1 b2 : Byte) (s : State) :
    (setAcc b0 b1 b2 s).buf = s.buf := rfl
@[simp] theorem setAcc_resValid (b0 b1 b2 : Byte) (s : State) :
    (setAcc b0 b1 b2 s).resValid = s.resValid := rfl
@[simp] theorem setAcc_resStatus (b0 b1 b2 : Byte) (s : State) :
    (setAcc b0 b1 b2 s).resStatus = s.resStatus := rfl
@[simp] theorem setAcc_resData (b0 b1 b2 : Byte) (s : State) :
    (setAcc b0 b1 b2 s).resData = s.resData := rfl
@[simp] theorem setAcc_resLen (b0 b1 b2 : Byte) (s : State) :
    (setAcc b0 b1 b2 s).resLen = s.resLen := rfl
@[simp] theorem setAcc_reqSlot (b0 b1 b2 : Byte) (s : State) :
    (setAcc b0 b1 b2 s).reqSlot = s.reqSlot := rfl
@[simp] theorem setAcc_rspSlot (b0 b1 b2 : Byte) (s : State) :
    (setAcc b0 b1 b2 s).rspSlot = s.rspSlot := rfl
@[simp] theorem setAcc_trace (b0 b1 b2 : Byte) (s : State) :
    (setAcc b0 b1 b2 s).trace = s.trace := rfl
@[simp] theorem setAcc_reqCount (b0 b1 b2 : Byte) (s : State) :
    (setAcc b0 b1 b2 s).reqCount = s.reqCount := rfl
@[simp] theorem setAcc_rspCount (b0 b1 b2 : Byte) (s : State) :
    (setAcc b0 b1 b2 s).rspCount = s.rspCount := rfl

/-! ### setSpeed -/

@[simp] theorem setSpeed_cfg (speed : Byte) (s : State) :
    (setSpeed speed s).cfg = s.cfg := rfl
@[simp] theorem setSpeed_hostIn (speed : Byte) (s : State) :
    (setSpeed speed s).hostIn = s.hostIn := rfl
@[simp] theorem setSpeed_lineIn (speed : Byte) (s : State) :
    (setSpeed speed s).lineIn = s.lineIn := rfl
@[simp] theorem setSpeed_drawn (speed : Byte) (s : State) :
    (setSpeed speed s).drawn = s.drawn := rfl
@[simp] theorem setSpeed_curReq (speed : Byte) (s : State) :
    (setSpeed speed s).curReq = s.curReq := rfl
@[simp] theorem setSpeed_sh (speed : Byte) (s : State) :
    (setSpeed speed s).sh = s.sh := rfl
@[simp] theorem setSpeed_bitcnt (speed : Byte) (s : State) :
    (setSpeed speed s).bitcnt = s.bitcnt := rfl
@[simp] theorem setSpeed_ackbit (speed : Byte) (s : State) :
    (setSpeed speed s).ackbit = s.ackbit := rfl
@[simp] theorem setSpeed_exRsp (speed : Byte) (s : State) :
    (setSpeed speed s).exRsp = s.exRsp := rfl
@[simp] theorem setSpeed_exState (speed : Byte) (s : State) :
    (setSpeed speed s).exState = s.exState := rfl
@[simp] theorem setSpeed_exStep (speed : Byte) (s : State) :
    (setSpeed speed s).exStep = s.exStep := rfl
@[simp] theorem setSpeed_irqDis (speed : Byte) (s : State) :
    (setSpeed speed s).irqDis = s.irqDis := rfl
@[simp] theorem setSpeed_pinDir (speed : Byte) (s : State) :
    (setSpeed speed s).pinDir = s.pinDir := rfl
@[simp] theorem setSpeed_pinLatch (speed : Byte) (s : State) :
    (setSpeed speed s).pinLatch = s.pinLatch := rfl
@[simp] theorem setSpeed_dlyCnt (speed : Byte) (s : State) :
    (setSpeed speed s).dlyCnt = s.dlyCnt := rfl
@[simp] theorem setSpeed_opWord (speed : Byte) (s : State) :
    (setSpeed speed s).opWord = s.opWord := rfl
@[simp] theorem setSpeed_samp0 (speed : Byte) (s : State) :
    (setSpeed speed s).samp0 = s.samp0 := rfl
@[simp] theorem setSpeed_samp1 (speed : Byte) (s : State) :
    (setSpeed speed s).samp1 = s.samp1 := rfl
@[simp] theorem setSpeed_samp2 (speed : Byte) (s : State) :
    (setSpeed speed s).samp2 = s.samp2 := rfl
@[simp] theorem setSpeed_acc (speed : Byte) (s : State) :
    (setSpeed speed s).acc = s.acc := rfl
@[simp] theorem setSpeed_idx (speed : Byte) (s : State) :
    (setSpeed speed s).idx = s.idx := rfl
@[simp] theorem setSpeed_curAddr (speed : Byte) (s : State) :
    (setSpeed speed s).curAddr = s.curAddr := rfl
@[simp] theorem setSpeed_rsp (speed : Byte) (s : State) :
    (setSpeed speed s).rsp = s.rsp := rfl
@[simp] theorem setSpeed_dState (speed : Byte) (s : State) :
    (setSpeed speed s).dState = s.dState := rfl
@[simp] theorem setSpeed_dStep (speed : Byte) (s : State) :
    (setSpeed speed s).dStep = s.dStep := rfl
@[simp] theorem setSpeed_profSel (speed : Byte) (s : State) :
    (setSpeed speed s).profSel = speed.extractLsb' 0 1 := rfl
@[simp] theorem setSpeed_dlyD (speed : Byte) (s : State) :
    (setSpeed speed s).dlyD = s.dlyD := rfl
@[simp] theorem setSpeed_buf (speed : Byte) (s : State) :
    (setSpeed speed s).buf = s.buf := rfl
@[simp] theorem setSpeed_resValid (speed : Byte) (s : State) :
    (setSpeed speed s).resValid = s.resValid := rfl
@[simp] theorem setSpeed_resStatus (speed : Byte) (s : State) :
    (setSpeed speed s).resStatus = s.resStatus := rfl
@[simp] theorem setSpeed_resData (speed : Byte) (s : State) :
    (setSpeed speed s).resData = s.resData := rfl
@[simp] theorem setSpeed_resLen (speed : Byte) (s : State) :
    (setSpeed speed s).resLen = s.resLen := rfl
@[simp] theorem setSpeed_reqSlot (speed : Byte) (s : State) :
    (setSpeed speed s).reqSlot = s.reqSlot := rfl
@[simp] theorem setSpeed_rspSlot (speed : Byte) (s : State) :
    (setSpeed speed s).rspSlot = s.rspSlot := rfl
@[simp] theorem setSpeed_trace (speed : Byte) (s : State) :
    (setSpeed speed s).trace = s.trace := rfl
@[simp] theorem setSpeed_reqCount (speed : Byte) (s : State) :
    (setSpeed speed s).reqCount = s.reqCount := rfl
@[simp] theorem setSpeed_rspCount (speed : Byte) (s : State) :
    (setSpeed speed s).rspCount = s.rspCount := rfl

/-! ### goto -/

@[simp] theorem goto_cfg (d : DStep) (s : State) :
    (goto d s).cfg = s.cfg := rfl
@[simp] theorem goto_hostIn (d : DStep) (s : State) :
    (goto d s).hostIn = s.hostIn := rfl
@[simp] theorem goto_lineIn (d : DStep) (s : State) :
    (goto d s).lineIn = s.lineIn := rfl
@[simp] theorem goto_drawn (d : DStep) (s : State) :
    (goto d s).drawn = s.drawn := rfl
@[simp] theorem goto_curReq (d : DStep) (s : State) :
    (goto d s).curReq = s.curReq := rfl
@[simp] theorem goto_sh (d : DStep) (s : State) :
    (goto d s).sh = s.sh := rfl
@[simp] theorem goto_bitcnt (d : DStep) (s : State) :
    (goto d s).bitcnt = s.bitcnt := rfl
@[simp] theorem goto_ackbit (d : DStep) (s : State) :
    (goto d s).ackbit = s.ackbit := rfl
@[simp] theorem goto_exRsp (d : DStep) (s : State) :
    (goto d s).exRsp = s.exRsp := rfl
@[simp] theorem goto_exState (d : DStep) (s : State) :
    (goto d s).exState = s.exState := rfl
@[simp] theorem goto_exStep (d : DStep) (s : State) :
    (goto d s).exStep = s.exStep := rfl
@[simp] theorem goto_irqDis (d : DStep) (s : State) :
    (goto d s).irqDis = s.irqDis := rfl
@[simp] theorem goto_pinDir (d : DStep) (s : State) :
    (goto d s).pinDir = s.pinDir := rfl
@[simp] theorem goto_pinLatch (d : DStep) (s : State) :
    (goto d s).pinLatch = s.pinLatch := rfl
@[simp] theorem goto_dlyCnt (d : DStep) (s : State) :
    (goto d s).dlyCnt = s.dlyCnt := rfl
@[simp] theorem goto_opWord (d : DStep) (s : State) :
    (goto d s).opWord = s.opWord := rfl
@[simp] theorem goto_samp0 (d : DStep) (s : State) :
    (goto d s).samp0 = s.samp0 := rfl
@[simp] theorem goto_samp1 (d : DStep) (s : State) :
    (goto d s).samp1 = s.samp1 := rfl
@[simp] theorem goto_samp2 (d : DStep) (s : State) :
    (goto d s).samp2 = s.samp2 := rfl
@[simp] theorem goto_acc (d : DStep) (s : State) :
    (goto d s).acc = s.acc := rfl
@[simp] theorem goto_idx (d : DStep) (s : State) :
    (goto d s).idx = s.idx := rfl
@[simp] theorem goto_curAddr (d : DStep) (s : State) :
    (goto d s).curAddr = s.curAddr := rfl
@[simp] theorem goto_rsp (d : DStep) (s : State) :
    (goto d s).rsp = s.rsp := rfl
@[simp] theorem goto_dState (d : DStep) (s : State) :
    (goto d s).dState = s.dState := rfl
@[simp] theorem goto_dStep (d : DStep) (s : State) :
    (goto d s).dStep = d := rfl
@[simp] theorem goto_profSel (d : DStep) (s : State) :
    (goto d s).profSel = s.profSel := rfl
@[simp] theorem goto_dlyD (d : DStep) (s : State) :
    (goto d s).dlyD = s.dlyD := rfl
@[simp] theorem goto_buf (d : DStep) (s : State) :
    (goto d s).buf = s.buf := rfl
@[simp] theorem goto_resValid (d : DStep) (s : State) :
    (goto d s).resValid = s.resValid := rfl
@[simp] theorem goto_resStatus (d : DStep) (s : State) :
    (goto d s).resStatus = s.resStatus := rfl
@[simp] theorem goto_resData (d : DStep) (s : State) :
    (goto d s).resData = s.resData := rfl
@[simp] theorem goto_resLen (d : DStep) (s : State) :
    (goto d s).resLen = s.resLen := rfl
@[simp] theorem goto_reqSlot (d : DStep) (s : State) :
    (goto d s).reqSlot = s.reqSlot := rfl
@[simp] theorem goto_rspSlot (d : DStep) (s : State) :
    (goto d s).rspSlot = s.rspSlot := rfl
@[simp] theorem goto_trace (d : DStep) (s : State) :
    (goto d s).trace = s.trace := rfl
@[simp] theorem goto_reqCount (d : DStep) (s : State) :
    (goto d s).reqCount = s.reqCount := rfl
@[simp] theorem goto_rspCount (d : DStep) (s : State) :
    (goto d s).rspCount = s.rspCount := rfl

/-! ### startSettle -/

@[simp] theorem startSettle_cfg (us : Nat) (d : DStep) (s : State) :
    (startSettle us d s).cfg = s.cfg := rfl
@[simp] theorem startSettle_hostIn (us : Nat) (d : DStep) (s : State) :
    (startSettle us d s).hostIn = s.hostIn := rfl
@[simp] theorem startSettle_lineIn (us : Nat) (d : DStep) (s : State) :
    (startSettle us d s).lineIn = s.lineIn := rfl
@[simp] theorem startSettle_drawn (us : Nat) (d : DStep) (s : State) :
    (startSettle us d s).drawn = s.drawn := rfl
@[simp] theorem startSettle_curReq (us : Nat) (d : DStep) (s : State) :
    (startSettle us d s).curReq = s.curReq := rfl
@[simp] theorem startSettle_sh (us : Nat) (d : DStep) (s : State) :
    (startSettle us d s).sh = s.sh := rfl
@[simp] theorem startSettle_bitcnt (us : Nat) (d : DStep) (s : State) :
    (startSettle us d s).bitcnt = s.bitcnt := rfl
@[simp] theorem startSettle_ackbit (us : Nat) (d : DStep) (s : State) :
    (startSettle us d s).ackbit = s.ackbit := rfl
@[simp] theorem startSettle_exRsp (us : Nat) (d : DStep) (s : State) :
    (startSettle us d s).exRsp = s.exRsp := rfl
@[simp] theorem startSettle_exState (us : Nat) (d : DStep) (s : State) :
    (startSettle us d s).exState = s.exState := rfl
@[simp] theorem startSettle_exStep (us : Nat) (d : DStep) (s : State) :
    (startSettle us d s).exStep = s.exStep := rfl
@[simp] theorem startSettle_irqDis (us : Nat) (d : DStep) (s : State) :
    (startSettle us d s).irqDis = s.irqDis := rfl
@[simp] theorem startSettle_pinDir (us : Nat) (d : DStep) (s : State) :
    (startSettle us d s).pinDir = s.pinDir := rfl
@[simp] theorem startSettle_pinLatch (us : Nat) (d : DStep) (s : State) :
    (startSettle us d s).pinLatch = s.pinLatch := rfl
@[simp] theorem startSettle_dlyCnt (us : Nat) (d : DStep) (s : State) :
    (startSettle us d s).dlyCnt = s.dlyCnt := rfl
@[simp] theorem startSettle_opWord (us : Nat) (d : DStep) (s : State) :
    (startSettle us d s).opWord = s.opWord := rfl
@[simp] theorem startSettle_samp0 (us : Nat) (d : DStep) (s : State) :
    (startSettle us d s).samp0 = s.samp0 := rfl
@[simp] theorem startSettle_samp1 (us : Nat) (d : DStep) (s : State) :
    (startSettle us d s).samp1 = s.samp1 := rfl
@[simp] theorem startSettle_samp2 (us : Nat) (d : DStep) (s : State) :
    (startSettle us d s).samp2 = s.samp2 := rfl
@[simp] theorem startSettle_acc (us : Nat) (d : DStep) (s : State) :
    (startSettle us d s).acc = s.acc := rfl
@[simp] theorem startSettle_idx (us : Nat) (d : DStep) (s : State) :
    (startSettle us d s).idx = s.idx := rfl
@[simp] theorem startSettle_curAddr (us : Nat) (d : DStep) (s : State) :
    (startSettle us d s).curAddr = s.curAddr := rfl
@[simp] theorem startSettle_rsp (us : Nat) (d : DStep) (s : State) :
    (startSettle us d s).rsp = s.rsp := rfl
@[simp] theorem startSettle_dState (us : Nat) (d : DStep) (s : State) :
    (startSettle us d s).dState = .delay := rfl
@[simp] theorem startSettle_dStep (us : Nat) (d : DStep) (s : State) :
    (startSettle us d s).dStep = d := rfl
@[simp] theorem startSettle_profSel (us : Nat) (d : DStep) (s : State) :
    (startSettle us d s).profSel = s.profSel := rfl
@[simp] theorem startSettle_dlyD (us : Nat) (d : DStep) (s : State) :
    (startSettle us d s).dlyD = delayCycles s.cfg us := rfl
@[simp] theorem startSettle_buf (us : Nat) (d : DStep) (s : State) :
    (startSettle us d s).buf = s.buf := rfl
@[simp] theorem startSettle_resValid (us : Nat) (d : DStep) (s : State) :
    (startSettle us d s).resValid = s.resValid := rfl
@[simp] theorem startSettle_resStatus (us : Nat) (d : DStep) (s : State) :
    (startSettle us d s).resStatus = s.resStatus := rfl
@[simp] theorem startSettle_resData (us : Nat) (d : DStep) (s : State) :
    (startSettle us d s).resData = s.resData := rfl
@[simp] theorem startSettle_resLen (us : Nat) (d : DStep) (s : State) :
    (startSettle us d s).resLen = s.resLen := rfl
@[simp] theorem startSettle_reqSlot (us : Nat) (d : DStep) (s : State) :
    (startSettle us d s).reqSlot = s.reqSlot := rfl
@[simp] theorem startSettle_rspSlot (us : Nat) (d : DStep) (s : State) :
    (startSettle us d s).rspSlot = s.rspSlot := rfl
@[simp] theorem startSettle_trace (us : Nat) (d : DStep) (s : State) :
    (startSettle us d s).trace = s.trace := rfl
@[simp] theorem startSettle_reqCount (us : Nat) (d : DStep) (s : State) :
    (startSettle us d s).reqCount = s.reqCount := rfl
@[simp] theorem startSettle_rspCount (us : Nat) (d : DStep) (s : State) :
    (startSettle us d s).rspCount = s.rspCount := rfl

/-! ### pushActs -/

@[simp] theorem pushActs_cfg (l : List Act) (s : State) :
    (pushActs l s).cfg = s.cfg := rfl
@[simp] theorem pushActs_hostIn (l : List Act) (s : State) :
    (pushActs l s).hostIn = s.hostIn := rfl
@[simp] theorem pushActs_lineIn (l : List Act) (s : State) :
    (pushActs l s).lineIn = s.lineIn := rfl
@[simp] theorem pushActs_drawn (l : List Act) (s : State) :
    (pushActs l s).drawn = s.drawn := rfl
@[simp] theorem pushActs_curReq (l : List Act) (s : State) :
    (pushActs l s).curReq = s.curReq := rfl
@[simp] theorem pushActs_sh (l : List Act) (s : State) :
    (pushActs l s).sh = s.sh := rfl
@[simp] theorem pushActs_bitcnt (l : List Act) (s : State) :
    (pushActs l s).bitcnt = s.bitcnt := rfl
@[simp] theorem pushActs_ackbit (l : List Act) (s : State) :
    (pushActs l s).ackbit = s.ackbit := rfl
@[simp] theorem pushActs_exRsp (l : List Act) (s : State) :
    (pushActs l s).exRsp = s.exRsp := rfl
@[simp] theorem pushActs_exState (l : List Act) (s : State) :
    (pushActs l s).exState = s.exState := rfl
@[simp] theorem pushActs_exStep (l : List Act) (s : State) :
    (pushActs l s).exStep = l ++ s.exStep := rfl
@[simp] theorem pushActs_irqDis (l : List Act) (s : State) :
    (pushActs l s).irqDis = s.irqDis := rfl
@[simp] theorem pushActs_pinDir (l : List Act) (s : State) :
    (pushActs l s).pinDir = s.pinDir := rfl
@[simp] theorem pushActs_pinLatch (l : List Act) (s : State) :
    (pushActs l s).pinLatch = s.pinLatch := rfl
@[simp] theorem pushActs_dlyCnt (l : List Act) (s : State) :
    (pushActs l s).dlyCnt = s.dlyCnt := rfl
@[simp] theorem pushActs_opWord (l : List Act) (s : State) :
    (pushActs l s).opWord = s.opWord := rfl
@[simp] theorem pushActs_samp0 (l : List Act) (s : State) :
    (pushActs l s).samp0 = s.samp0 := rfl
@[simp] theorem pushActs_samp1 (l : List Act) (s : State) :
    (pushActs l s).samp1 = s.samp1 := rfl
@[simp] theorem pushActs_samp2 (l : List Act) (s : State) :
    (pushActs l s).samp2 = s.samp2 := rfl
@[simp] theorem pushActs_acc (l : List Act) (s : State) :
    (pushActs l s).acc = s.acc := rfl
@[simp] theorem pushActs_idx (l : List Act) (s : State) :
    (pushActs l s).idx = s.idx := rfl
@[simp] theorem pushActs_curAddr (l : List Act) (s : State) :
    (pushActs l s).curAddr = s.curAddr := rfl
@[simp] theorem pushActs_rsp (l : List Act) (s : State) :
    (pushActs l s).rsp = s.rsp := rfl
@[simp] theorem pushActs_dState (l : List Act) (s : State) :
    (pushActs l s).dState = s.dState := rfl
@[simp] theorem pushActs_dStep (l : List Act) (s : State) :
    (pushActs l s).dStep = s.dStep := rfl
@[simp] theorem pushActs_profSel (l : List Act) (s : State) :
    (pushActs l s).profSel = s.profSel := rfl
@[simp] theorem pushActs_dlyD (l : List Act) (s : State) :
    (pushActs l s).dlyD = s.dlyD := rfl
@[simp] theorem pushActs_buf (l : List Act) (s : State) :
    (pushActs l s).buf = s.buf := rfl
@[simp] theorem pushActs_resValid (l : List Act) (s : State) :
    (pushActs l s).resValid = s.resValid := rfl
@[simp] theorem pushActs_resStatus (l : List Act) (s : State) :
    (pushActs l s).resStatus = s.resStatus := rfl
@[simp] theorem pushActs_resData (l : List Act) (s : State) :
    (pushActs l s).resData = s.resData := rfl
@[simp] theorem pushActs_resLen (l : List Act) (s : State) :
    (pushActs l s).resLen = s.resLen := rfl
@[simp] theorem pushActs_reqSlot (l : List Act) (s : State) :
    (pushActs l s).reqSlot = s.reqSlot := rfl
@[simp] theorem pushActs_rspSlot (l : List Act) (s : State) :
    (pushActs l s).rspSlot = s.rspSlot := rfl
@[simp] theorem pushActs_trace (l : List Act) (s : State) :
    (pushActs l s).trace = s.trace := rfl
@[simp] theorem pushActs_reqCount (l : List Act) (s : State) :
    (pushActs l s).reqCount = s.reqCount := rfl
@[simp] theorem pushActs_rspCount (l : List Act) (s : State) :
    (pushActs l s).rspCount = s.rspCount := rfl

end Sys2Proof.Machine
end

