-- ==== Sys2Proof/Laws/Codec.lean ====
section
/-! SUPPORT. What the bit codec, the byte codec and discovery do to the state, said once: each is one record update,
with the events it adds to the trace. -/

namespace Sys2Proof.Machine

open Sys2Proof

/-- The sampled bit is the level the environment presents, whatever the pin did before (R128). -/
@[simp] theorem sampledBit_eq (s : State) : sampledBit s = nextLevel s := rfl

theorem nextLevel_eq (s : State) : nextLevel s = levelAt s 0 := by
  unfold nextLevel levelAt
  cases s.lineIn <;> rfl

/-- After `k` samples the next level is the `k`-th from the start. -/
theorem levelAt_drop (s t : State) (k j : Nat) (hl : t.lineIn = s.lineIn.drop k) (hd : t.drawn = s.drawn + k) :
    levelAt t j = levelAt s (k + j) := by
  simp [levelAt, hl, hd, Nat.add_assoc]

theorem transmitOne_eq (s : State) :
    transmitOne s = { s with pinDir := false, dlyCnt := 0, trace := s.trace ++ symbolEvents s.profile true } := by
  simp [transmitOne, delayEx, emit, driveLow, releaseHigh, holdEvent, symbolEvents]

theorem transmitZero_eq (s : State) :
    transmitZero s = { s with pinDir := false, dlyCnt := 0, trace := s.trace ++ symbolEvents s.profile false } := by
  simp [transmitZero, delayEx, emit, driveLow, releaseHigh, holdEvent, symbolEvents]

theorem transmitSymbol_eq (s : State) :
    transmitSymbol s =
      { s with pinDir := false, dlyCnt := 0, trace := s.trace ++ symbolEvents s.profile s.sh.msb } := by
  unfold transmitSymbol
  split <;> simp_all [transmitOne_eq, transmitZero_eq]

theorem readBit_eq (s : State) :
    readBit s = { s with pinDir := false, dlyCnt := 0, ackbit := levelAt s 0, lineIn := s.lineIn.drop 1,
                         drawn := s.drawn + 1, trace := s.trace ++ readEvents s.profile (levelAt s 0) } := by
  simp [readBit, beforeSample, delayEx, emit, driveLow, releaseHigh, holdEvent, readEvents, setAckbit, sample,
    consumeLevel, readRest, ← nextLevel_eq, nextLevel]

/-- One turn of the loop of `transmitByte`. -/
theorem transmitTurn_eq (s : State) :
    shiftOut (transmitSymbol s) =
      { s with pinDir := false, dlyCnt := 0, sh := shiftLeft s.sh, bitcnt := s.bitcnt + 1,
               trace := s.trace ++ symbolEvents s.profile s.sh.msb } := by
  rw [transmitSymbol_eq]; rfl

/-- One turn of the loop of `receiveByte`. -/
theorem receiveTurn_eq (s : State) :
    shiftIn (readBit s) =
      { s with pinDir := false, dlyCnt := 0, ackbit := levelAt s 0, lineIn := s.lineIn.drop 1,
               drawn := s.drawn + 1, sh := shiftInBit s.sh (levelAt s 0), bitcnt := s.bitcnt + 1,
               trace := s.trace ++ readEvents s.profile (levelAt s 0) } := by
  rw [readBit_eq]; rfl

theorem shiftLeft_eight (v : Byte) :
    shiftLeft (shiftLeft (shiftLeft (shiftLeft (shiftLeft (shiftLeft (shiftLeft (shiftLeft v))))))) = 0 := by
  revert v; decide +kernel

theorem shiftLeft_msb (v : Byte) :
    v.msb = v.getLsbD 7 ∧ (shiftLeft v).msb = v.getLsbD 6 ∧ (shiftLeft (shiftLeft v)).msb = v.getLsbD 5 ∧
    (shiftLeft (shiftLeft (shiftLeft v))).msb = v.getLsbD 4 ∧
    (shiftLeft (shiftLeft (shiftLeft (shiftLeft v)))).msb = v.getLsbD 3 ∧
    (shiftLeft (shiftLeft (shiftLeft (shiftLeft (shiftLeft v))))).msb = v.getLsbD 2 ∧
    (shiftLeft (shiftLeft (shiftLeft (shiftLeft (shiftLeft (shiftLeft v)))))).msb = v.getLsbD 1 ∧
    (shiftLeft (shiftLeft (shiftLeft (shiftLeft (shiftLeft (shiftLeft (shiftLeft v))))))).msb = v.getLsbD 0 := by
  revert v; decide +kernel

/-- The eight bits shifted in, first bit most significant. -/
theorem shiftIn_eight (f : Nat → Bool) :
    shiftInBit (shiftInBit (shiftInBit (shiftInBit (shiftInBit (shiftInBit (shiftInBit (shiftInBit 0 (f 0)) (f 1))
      (f 2)) (f 3)) (f 4)) (f 5)) (f 6)) (f 7) = byteMsbFirst f := by
  unfold byteMsbFirst
  generalize f 0 = a0; generalize f 1 = a1; generalize f 2 = a2; generalize f 3 = a3
  generalize f 4 = a4; generalize f 5 = a5; generalize f 6 = a6; generalize f 7 = a7
  revert a0 a1 a2 a3 a4 a5 a6 a7; decide +kernel

theorem transmitBits_eq (v : Byte) (s : State) :
    transmitBits 8 (loadShift v s) =
      { s with pinDir := false, dlyCnt := 0, sh := 0, bitcnt := 8,
               trace := s.trace ++ byteEvents s.profile v } := by
  obtain ⟨h7, h6, h5, h4, h3, h2, h1, h0⟩ := shiftLeft_msb v
  simp only [transmitBits, transmitTurn_eq, loadShift, shiftLeft_eight, h7, h6, h5, h4, h3, h2, h1, h0]
  simp [byteEvents, List.range_succ, State.profile]

/-- `transmitByte` (R150). -/
theorem transmitByte_eq (v : Byte) (s : State) :
    transmitByte v s =
      { s with pinDir := false, dlyCnt := 0, sh := 0, bitcnt := 8, ackbit := levelAt s 0,
               lineIn := s.lineIn.drop 1, drawn := s.drawn + 1,
               trace := s.trace ++ transmitEvents s.profile v (levelAt s 0) } := by
  simp [transmitByte, readAckNack, transmitBits_eq, readBit_eq, transmitEvents, levelAt, State.profile]

theorem receiveBits_eq (s : State) :
    receiveBits 8 (loadShift 0 s) =
      { s with pinDir := false, dlyCnt := 0, ackbit := levelAt s 7, lineIn := s.lineIn.drop 8,
               drawn := s.drawn + 8, sh := byteMsbFirst (levelAt s), bitcnt := 8,
               trace := s.trace ++ (List.range 8).flatMap fun k => readEvents s.profile (levelAt s k) } := by
  rw [← shiftIn_eight]
  simp [receiveBits, receiveTurn_eq, loadShift, levelAt, List.range_succ, State.profile, Nat.add_assoc]

/-- `receiveByte` (R151). -/
theorem receiveByte_eq (sendAck : Bool) (s : State) :
    receiveByte sendAck s =
      { s with pinDir := false, dlyCnt := 0, ackbit := levelAt s 7, lineIn := s.lineIn.drop 8,
               drawn := s.drawn + 8, sh := byteMsbFirst (levelAt s), bitcnt := 8,
               trace := s.trace ++ receiveEvents s.profile (levelAt s) sendAck } := by
  rw [receiveByte, receiveBits_eq]
  cases sendAck <;> simp [sendAckSymbol, transmitOne_eq, transmitZero_eq, receiveEvents, State.profile]

/-- `discovery` (R160). -/
theorem discovery_eq (s : State) :
    discovery s =
      { s with pinDir := false, dlyCnt := 0, ackbit := levelAt s 0, lineIn := s.lineIn.drop 1,
               drawn := s.drawn + 1, trace := s.trace ++ discoveryEvents s.cfg.params (levelAt s 0) } := by
  simp [discovery, beforePresence, delayEx, emit, driveLow, releaseHigh, holdEvent, discoveryEvents, setAckbit,
    sample, consumeLevel, ← nextLevel_eq, nextLevel]

end Sys2Proof.Machine
end

