-- ==== Sys2Proof/Laws/Words.lean ====
section
/-! SUPPORT. The fields of an assembled word are what it was assembled from. -/

namespace Sys2Proof

theorem getLsbD_requestWord (opc payload : Byte) (i : Nat) :
    (requestWord opc payload).getLsbD i =
      if i < 8 then payload.getLsbD i else if i < 24 then false else opc.getLsbD (i - 24) := by
  refine (BitVec.getLsbD_append (x := opc ++ 0#16) (y := payload)).trans ?_
  rw [BitVec.getLsbD_append]
  by_cases h : i < 8 <;> by_cases h2 : i < 24 <;>
    simp [h, h2, show i - 8 < 16 ↔ i < 24 by omega, Nat.sub_sub]

theorem getLsbD_hostWord (hop dev a1 a2 : Byte) (i : Nat) :
    (hostWord hop dev a1 a2).getLsbD i =
      if i < 8 then a2.getLsbD i
      else if i < 16 then a1.getLsbD (i - 8)
      else if i < 24 then dev.getLsbD (i - 16)
      else hop.getLsbD (i - 24) := by
  refine (BitVec.getLsbD_append (x := hop ++ dev ++ a1) (y := a2)).trans ?_
  rw [BitVec.getLsbD_append, BitVec.getLsbD_append]
  by_cases h : i < 8 <;> by_cases h2 : i < 16 <;> by_cases h3 : i < 24 <;>
    simp [h, h2, h3, show i - 8 < 8 ↔ i < 16 by omega, show i - 16 < 8 ↔ i < 24 by omega, Nat.sub_sub]

@[simp] theorem opcodeField_requestWord (opc payload : Byte) : opcodeField (requestWord opc payload) = opc := by
  apply BitVec.eq_of_getLsbD_eq
  intro i hi
  have h : ¬ 24 + i < 8 := by omega
  simp [opcodeField, getLsbD_requestWord, hi, h]

@[simp] theorem lowField_requestWord (opc payload : Byte) : lowField (requestWord opc payload) = payload := by
  apply BitVec.eq_of_getLsbD_eq
  intro i hi
  simp [lowField, getLsbD_requestWord, hi]

@[simp] theorem opcodeField_hostWord (hop dev a1 a2 : Byte) : opcodeField (hostWord hop dev a1 a2) = hop := by
  apply BitVec.eq_of_getLsbD_eq
  intro i hi
  have h : ¬ 24 + i < 8 ∧ ¬ 24 + i < 16 := by omega
  simp [opcodeField, getLsbD_hostWord, hi, h]

@[simp] theorem arg1Field_hostWord (hop dev a1 a2 : Byte) : arg1Field (hostWord hop dev a1 a2) = a1 := by
  apply BitVec.eq_of_getLsbD_eq
  intro i hi
  have h : ¬ 8 + i < 8 ∧ 8 + i < 16 := by omega
  simp [arg1Field, getLsbD_hostWord, hi, h]

@[simp] theorem lowField_hostWord (hop dev a1 a2 : Byte) : lowField (hostWord hop dev a1 a2) = a2 := by
  apply BitVec.eq_of_getLsbD_eq
  intro i hi
  simp [lowField, getLsbD_hostWord, hi]

@[simp] theorem devField_hostWord (hop dev a1 a2 : Byte) :
    devField (hostWord hop dev a1 a2) = (dev.extractLsb' 0 3).setWidth 8 := by
  apply BitVec.eq_of_getLsbD_eq
  intro i hi
  by_cases h3 : i < 3
  · have h : ¬ 16 + i < 8 ∧ ¬ 16 + i < 16 ∧ 16 + i < 24 := by omega
    simp [devField, getLsbD_hostWord, hi, h3, h]
  · simp [devField, hi, h3]

@[simp] theorem speedField_hostWord (hop dev a1 a2 : Byte) :
    speedField (hostWord hop dev a1 a2) = (a1.extractLsb' 0 1).setWidth 8 := by
  apply BitVec.eq_of_getLsbD_eq
  intro i hi
  by_cases h1 : i < 1
  · have h : ¬ 8 + i < 8 ∧ 8 + i < 16 := by omega
    simp [speedField, getLsbD_hostWord, hi, h1, h]
  · simp [speedField, hi, h1]

end Sys2Proof
end

