-- ==== Sys2Proof/Laws/Channel.lean ====
section
/-! SUPPORT. What an executor turn and a channel round trip do, said once: each is one record update. -/

namespace Sys2Proof.Machine

open Sys2Proof

theorem rspOfLevel_eq (b : Bool) : rspOfAck (ackOfBit b) = rspOfLevel b := by cases b <;> rfl

theorem quiet_iff (s : State) : s.quiet = true ↔ s.reqSlot = none ∧ s.rspSlot = none ∧ s.exState = .wait := by
  simp [State.quiet, and_assoc]

theorem whenQuiet_eq (why : Refusal) (f : State → State) (s : State) :
    whenQuiet why f s = if s.quiet then .next (f s) else .refused why := rfl

/-! ### Requests in the executor -/

/-- `TransmitByte` from `EX_MASK`, with room for the response (R202). -/
theorem serveTransmitByte_eq (payload : Byte) (s : State) (h : s.rspSlot = none) :
    serve (runTransmitByte payload) s =
      { s with exState := .wait, exStep := [], irqDis := false, pinDir := false, dlyCnt := 0, sh := 0, bitcnt := 8,
               ackbit := levelAt s 0, exRsp := rspOfLevel (levelAt s 0), rspSlot := some (rspOfLevel (levelAt s 0)),
               lineIn := s.lineIn.drop 1, drawn := s.drawn + 1,
               trace := s.trace ++ underMask (transmitEvents s.profile payload (levelAt s 0)) } := by
  simp [serve, runTransmitByte, transmitByte_eq, maskIrq, unmaskIrq, emit, respondAck, setResponse, rspOfLevel_eq,
    pushResponse, h, underMask, levelAt, State.profile]

/-- `Discovery` from `EX_MASK`, with room for the response (R201). -/
theorem serveDiscovery_eq (s : State) (h : s.rspSlot = none) :
    serve runDiscovery s =
      { s with exState := .wait, exStep := [], irqDis := false, pinDir := false, dlyCnt := 0,
               ackbit := levelAt s 0, exRsp := rspOfLevel (levelAt s 0), rspSlot := some (rspOfLevel (levelAt s 0)),
               lineIn := s.lineIn.drop 1, drawn := s.drawn + 1,
               trace := s.trace ++ underMask (discoveryEvents s.cfg.params (levelAt s 0)) } := by
  simp [serve, runDiscovery, discovery_eq, maskIrq, unmaskIrq, emit, respondAck, setResponse, rspOfLevel_eq,
    pushResponse, h, underMask, levelAt]

/-- `ReceiveByte` from `EX_MASK`, with room for the response (R203). -/
theorem serveReceiveByte_eq (payload : Byte) (s : State) (h : s.rspSlot = none) :
    serve (runReceiveByte payload) s =
      { s with exState := .wait, exStep := [], irqDis := false, pinDir := false, dlyCnt := 0, bitcnt := 8,
               sh := byteMsbFirst (levelAt s), ackbit := levelAt s 7, exRsp := byteMsbFirst (levelAt s),
               rspSlot := some (byteMsbFirst (levelAt s)),
               lineIn := s.lineIn.drop 8, drawn := s.drawn + 8,
               trace := s.trace ++ underMask (receiveEvents s.profile (levelAt s) (sendAckOf payload)) } := by
  have hl (t : State) (h1 : t.lineIn = s.lineIn) (h2 : t.drawn = s.drawn) : levelAt t = levelAt s := by
    funext k; simp [levelAt, h1, h2]
  simp [serve, runReceiveByte, receiveByte_eq, respondByte, setResponse, unmaskIrq, emit, pushResponse, h, underMask,
    hl (maskIrq s) rfl rfl]
  rfl

/-- An unknown request from `EX_MASK`, with room for the response (R204). -/
theorem serveUnknown_eq (s : State) (h : s.rspSlot = none) :
    serve runUnknown s =
      { s with exState := .wait, exStep := [], irqDis := false, exRsp := rspNack, rspSlot := some rspNack,
               trace := s.trace ++ underMask [] } := by
  simp [serve, runUnknown, maskIrq, unmaskIrq, emit, setResponse, pushResponse, h, underMask]

/-- With `rsp_slot` full the executor is left in `EX_PUSH` (R200, R205). -/
theorem serve_blocked (body : State → State) (s : State) (r : Byte)
    (h : (body (maskIrq s)).rspSlot = some r) : serve body s = unmaskIrq (body (maskIrq s)) := by
  simp [serve, pushResponse, h]

/-! ### Round trips -/

/-- `Chan(OPC_TX, payload)` with nothing outstanding (R202, R206). -/
theorem chanTx_eq (payload : Byte) (s : State) (h : s.quiet = true) :
    chan opcTx payload s =
      { s with curReq := requestWord opcTx payload, exStep := [], irqDis := false, pinDir := false, dlyCnt := 0,
               sh := 0, bitcnt := 8, ackbit := levelAt s 0, exRsp := rspOfLevel (levelAt s 0),
               rsp := rspOfLevel (levelAt s 0), dState := .run,
               lineIn := s.lineIn.drop 1, drawn := s.drawn + 1, reqCount := s.reqCount + 1,
               rspCount := s.rspCount + 1,
               trace := s.trace ++ underMask (transmitEvents s.profile payload (levelAt s 0)) } := by
  obtain ⟨h1, h2, h3⟩ := (quiet_iff s).1 h
  have hr : serve runRequest (popRequest (pushRequest opcTx payload s)) =
      serve (runTransmitByte payload) (popRequest (pushRequest opcTx payload s)) := by
    simp [serve, runRequest, popRequest, pushRequest, maskIrq, emit]
  rw [chan, executorTurn, hr, serveTransmitByte_eq _ _ (by simp [popRequest, pushRequest, h2])]
  simp [popRequest, pushRequest, popResponse, levelAt, State.profile, h1, h2, h3]

/-- `Chan(OPC_DISC, payload)` with nothing outstanding (R201, R206). -/
theorem chanDisc_eq (payload : Byte) (s : State) (h : s.quiet = true) :
    chan opcDisc payload s =
      { s with curReq := requestWord opcDisc payload, exStep := [], irqDis := false, pinDir := false, dlyCnt := 0,
               ackbit := levelAt s 0, exRsp := rspOfLevel (levelAt s 0),
               rsp := rspOfLevel (levelAt s 0), dState := .run,
               lineIn := s.lineIn.drop 1, drawn := s.drawn + 1, reqCount := s.reqCount + 1,
               rspCount := s.rspCount + 1,
               trace := s.trace ++ underMask (discoveryEvents s.cfg.params (levelAt s 0)) } := by
  obtain ⟨h1, h2, h3⟩ := (quiet_iff s).1 h
  have hr : serve runRequest (popRequest (pushRequest opcDisc payload s)) =
      serve runDiscovery (popRequest (pushRequest opcDisc payload s)) := by
    simp [serve, runRequest, popRequest, pushRequest, maskIrq, emit, opcDisc, opcTx]
  rw [chan, executorTurn, hr, serveDiscovery_eq _ (by simp [popRequest, pushRequest, h2])]
  simp [popRequest, pushRequest, popResponse, levelAt, h1, h2, h3]

/-- `Chan(OPC_RX, payload)` with nothing outstanding (R203, R206). -/
theorem chanRx_eq (payload : Byte) (s : State) (h : s.quiet = true) :
    chan opcRx payload s =
      { s with curReq := requestWord opcRx payload, exStep := [], irqDis := false, pinDir := false, dlyCnt := 0,
               bitcnt := 8, sh := byteMsbFirst (levelAt s), ackbit := levelAt s 7,
               exRsp := byteMsbFirst (levelAt s), rsp := byteMsbFirst (levelAt s), dState := .run,
               lineIn := s.lineIn.drop 8, drawn := s.drawn + 8, reqCount := s.reqCount + 1,
               rspCount := s.rspCount + 1,
               trace := s.trace ++ underMask (receiveEvents s.profile (levelAt s) (sendAckOf payload)) } := by
  obtain ⟨h1, h2, h3⟩ := (quiet_iff s).1 h
  have hr : serve runRequest (popRequest (pushRequest opcRx payload s)) =
      serve (runReceiveByte payload) (popRequest (pushRequest opcRx payload s)) := by
    simp [serve, runRequest, popRequest, pushRequest, maskIrq, emit, opcDisc, opcTx, opcRx]
  have hl : levelAt (popRequest (pushRequest opcRx payload s)) = levelAt s := by
    funext k; simp [levelAt, popRequest, pushRequest]
  rw [chan, executorTurn, hr, serveReceiveByte_eq _ _ (by simp [popRequest, pushRequest, h2]), hl]
  simp [popRequest, pushRequest, popResponse, State.profile, h1, h2, h3]

end Sys2Proof.Machine
end

