-- ==== Sys2Proof/Laws/Frames.lean ====
section
/-! SUPPORT. What the procedures of the dispatch sequencer leave alone, said once: a channel round trip, a settle
delay, `loadAddress`, `readByte`, `verifiedRead`, the block loop, the manufacturer id. -/

namespace Sys2Proof.Machine

open Sys2Proof

/-- The three opcodes the dispatch sequencer issues (R92). -/
def IsOpcode (opc : Byte) : Prop := opc = opcTx ∨ opc = opcDisc ∨ opc = opcRx

theorem isOpcode_tx : IsOpcode opcTx := .inl rfl
theorem isOpcode_disc : IsOpcode opcDisc := .inr (.inl rfl)
theorem isOpcode_rx : IsOpcode opcRx := .inr (.inr rfl)

/-- The registers that no `readByte` touches agree in `s` and `t`. -/
structure SameOp (s t : State) : Prop where
  cfg : t.cfg = s.cfg
  hostIn : t.hostIn = s.hostIn
  opWord : t.opWord = s.opWord
  acc : t.acc = s.acc
  idx : t.idx = s.idx
  curAddr : t.curAddr = s.curAddr
  profSel : t.profSel = s.profSel
  buf : t.buf = s.buf
  resValid : t.resValid = s.resValid
  resStatus : t.resStatus = s.resStatus
  resData : t.resData = s.resData
  resLen : t.resLen = s.resLen
  pinLatch : t.pinLatch = s.pinLatch
  dStep : t.dStep = s.dStep

/-- The Read Sample Set agrees in `s` and `t`. -/
structure SameSamples (s t : State) : Prop where
  samp0 : t.samp0 = s.samp0
  samp1 : t.samp1 = s.samp1
  samp2 : t.samp2 = s.samp2

/-- Nothing outstanding, the dispatch sequencer in `D_RUN`. -/
structure AtLine (s : State) : Prop where
  quiet : s.quiet = true
  run : s.dState = .run

theorem SameOp.refl (s : State) : SameOp s s := ⟨rfl, rfl, rfl, rfl, rfl, rfl, rfl, rfl, rfl, rfl, rfl, rfl, rfl, rfl⟩

theorem SameOp.trans {s t u : State} (h1 : SameOp s t) (h2 : SameOp t u) : SameOp s u where
  cfg := h2.cfg.trans h1.cfg
  hostIn := h2.hostIn.trans h1.hostIn
  opWord := h2.opWord.trans h1.opWord
  acc := h2.acc.trans h1.acc
  idx := h2.idx.trans h1.idx
  curAddr := h2.curAddr.trans h1.curAddr
  profSel := h2.profSel.trans h1.profSel
  buf := h2.buf.trans h1.buf
  resValid := h2.resValid.trans h1.resValid
  resStatus := h2.resStatus.trans h1.resStatus
  resData := h2.resData.trans h1.resData
  resLen := h2.resLen.trans h1.resLen
  pinLatch := h2.pinLatch.trans h1.pinLatch
  dStep := h2.dStep.trans h1.dStep

theorem SameSamples.refl (s : State) : SameSamples s s := ⟨rfl, rfl, rfl⟩

theorem SameSamples.trans {s t u : State} (h1 : SameSamples s t) (h2 : SameSamples t u) : SameSamples s u :=
  ⟨h2.samp0.trans h1.samp0, h2.samp1.trans h1.samp1, h2.samp2.trans h1.samp2⟩

/-! ### A round trip -/

theorem chan_frame {opc : Byte} (ho : IsOpcode opc) (payload : Byte) {s : State} (h : s.quiet = true) :
    SameOp s (chan opc payload s) ∧ SameSamples s (chan opc payload s) ∧ AtLine (chan opc payload s) := by
  rcases ho with rfl | rfl | rfl
  · rw [chanTx_eq _ _ h]
    exact ⟨⟨rfl, rfl, rfl, rfl, rfl, rfl, rfl, rfl, rfl, rfl, rfl, rfl, rfl, rfl⟩, ⟨rfl, rfl, rfl⟩, h, rfl⟩
  · rw [chanDisc_eq _ _ h]
    exact ⟨⟨rfl, rfl, rfl, rfl, rfl, rfl, rfl, rfl, rfl, rfl, rfl, rfl, rfl, rfl⟩, ⟨rfl, rfl, rfl⟩, h, rfl⟩
  · rw [chanRx_eq _ _ h]
    exact ⟨⟨rfl, rfl, rfl, rfl, rfl, rfl, rfl, rfl, rfl, rfl, rfl, rfl, rfl, rfl⟩, ⟨rfl, rfl, rfl⟩, h, rfl⟩

/-- The counts of requests and responses grow together (R207). -/
theorem chan_counts {opc : Byte} (ho : IsOpcode opc) (payload : Byte) {s : State} (h : s.quiet = true) :
    (chan opc payload s).reqCount = s.reqCount + 1 ∧ (chan opc payload s).rspCount = s.rspCount + 1 := by
  rcases ho with rfl | rfl | rfl
  · rw [chanTx_eq _ _ h]; exact ⟨rfl, rfl⟩
  · rw [chanDisc_eq _ _ h]; exact ⟨rfl, rfl⟩
  · rw [chanRx_eq _ _ h]; exact ⟨rfl, rfl⟩

/-- A round trip leaves the executor as R208 and R255 say. -/
theorem chan_executor {opc : Byte} (ho : IsOpcode opc) (payload : Byte) {s : State} (h : s.quiet = true) :
    (chan opc payload s).irqDis = false ∧ (chan opc payload s).pinDir = false ∧
      (chan opc payload s).dlyCnt = 0 ∧ (chan opc payload s).exStep = [] := by
  rcases ho with rfl | rfl | rfl
  · rw [chanTx_eq _ _ h]; exact ⟨rfl, rfl, rfl, rfl⟩
  · rw [chanDisc_eq _ _ h]; exact ⟨rfl, rfl, rfl, rfl⟩
  · rw [chanRx_eq _ _ h]; exact ⟨rfl, rfl, rfl, rfl⟩

/-- A round trip does not look at the line the sequencer is on. -/
theorem chan_goto {opc : Byte} (ho : IsOpcode opc) (payload : Byte) (d : DStep) {s : State} (h : s.quiet = true) :
    chan opc payload (goto d s) = goto d (chan opc payload s) := by
  have h' : (goto d s).quiet = true := h
  rcases ho with rfl | rfl | rfl
  · rw [chanTx_eq _ _ h, chanTx_eq _ _ h']; rfl
  · rw [chanDisc_eq _ _ h, chanDisc_eq _ _ h']; rfl
  · rw [chanRx_eq _ _ h, chanRx_eq _ _ h']; rfl

theorem delayDispatch_frame (us : Nat) {s : State} (h : s.quiet = true) :
    SameOp s (delayDispatch us s) ∧ SameSamples s (delayDispatch us s) ∧ AtLine (delayDispatch us s) :=
  ⟨⟨rfl, rfl, rfl, rfl, rfl, rfl, rfl, rfl, rfl, rfl, rfl, rfl, rfl, rfl⟩, ⟨rfl, rfl, rfl⟩, h, rfl⟩

/-! ### Procedures -/

theorem loadAddress_frame (dev a : Byte) {s : State} (h : AtLine s) :
    SameOp s (loadAddress dev a s).2 ∧ SameSamples s (loadAddress dev a s).2 ∧ AtLine (loadAddress dev a s).2 := by
  have h1 := chan_frame isOpcode_tx (devByte busOpcEeprom dev false) h.quiet
  have h2 := chan_frame isOpcode_tx a h1.2.2.quiet
  unfold loadAddress sendEepromW
  split
  · exact ⟨.refl _, .refl _, h⟩
  · dsimp only
    split
    · exact h1
    · have h12 := And.intro (h1.1.trans h2.1) (And.intro (h1.2.1.trans h2.2.1) h2.2.2)
      split <;> exact h12

theorem readByte_frame (dev a : Byte) {s : State} (h : AtLine s) :
    SameOp s (readByte dev a s).2 ∧ SameSamples s (readByte dev a s).2 ∧ AtLine (readByte dev a s).2 := by
  have h1 := loadAddress_frame dev a h
  unfold readByte
  cases hl : loadAddress dev a s with
  | mk e s1 =>
    rw [hl] at h1
    cases e with
    | some e => exact h1
    | none =>
      dsimp only at h1 ⊢
      have h2 := delayDispatch_frame s1.cfg.params.tSettleA h1.2.2.quiet
      have h3 := chan_frame isOpcode_tx (devByte busOpcEeprom dev true) h2.2.2.quiet
      have h123 := (h1.1.trans h2.1).trans h3.1
      have g123 := (h1.2.1.trans h2.2.1).trans h3.2.1
      unfold sendEepromR
      split
      · exact ⟨h123, g123, h3.2.2⟩
      · have h4 := chan_frame isOpcode_rx (ackPayload false) h3.2.2.quiet
        exact ⟨h123.trans (h4.1.trans (delayDispatch_frame _ h4.2.2.quiet).1),
          g123.trans (h4.2.1.trans (delayDispatch_frame _ h4.2.2.quiet).2.1),
          (delayDispatch_frame _ h4.2.2.quiet).2.2⟩

theorem setSample_sameOp (k : Pass) (r : Result) (s : State) : SameOp s (setSample k r s) := by
  cases k <;> exact ⟨rfl, rfl, rfl, rfl, rfl, rfl, rfl, rfl, rfl, rfl, rfl, rfl, rfl, rfl⟩

theorem setSample_atLine (k : Pass) (r : Result) {s : State} (h : AtLine s) : AtLine (setSample k r s) := by
  cases k <;> exact ⟨h.quiet, h.run⟩

theorem takeSample_frame (k : Pass) (dev a : Byte) {s : State} (h : AtLine s) :
    SameOp s (takeSample k dev a s) ∧ AtLine (takeSample k dev a s) := by
  have h1 := readByte_frame dev a h
  exact ⟨h1.1.trans (setSample_sameOp ..), setSample_atLine _ _ h1.2.2⟩

theorem verifiedRead_frame (dev a : Byte) {s : State} (h : AtLine s) :
    SameOp s (verifiedRead dev a s).2 ∧ AtLine (verifiedRead dev a s).2 := by
  have h1 := takeSample_frame .first dev a h
  have h2 := takeSample_frame .second dev a h1.2
  have h3 := takeSample_frame .third dev a h2.2
  unfold verifiedRead
  dsimp only
  split
  · exact ⟨h1.1.trans h2.1, h2.2⟩
  · exact ⟨(h1.1.trans h2.1).trans h3.1, h3.2⟩

end Sys2Proof.Machine
end

