-- ==== Sys2Proof/Laws/Ticks.lean ====
section
/-! SUPPORT. The clocked machine against the whole operations: each procedure of the executor is what a run of ticks
over its lines does. -/

namespace Sys2Proof.Machine

open Sys2Proof

/-! ### Reaching -/

theorem ticks_add (m n : Nat) (s : State) : ticks (m + n) s = ticks n (ticks m s) := by
  induction m generalizing s with
  | zero => simp [ticks]
  | succ m ih => rw [Nat.succ_add]; exact ih (tick s)

theorem Reaches.refl (s : State) : Reaches s s := ⟨0, rfl⟩

theorem Reaches.trans {s t u : State} (h1 : Reaches s t) (h2 : Reaches t u) : Reaches s u := by
  obtain ⟨m, rfl⟩ := h1
  obtain ⟨n, rfl⟩ := h2
  exact ⟨m + n, ticks_add m n s⟩

theorem Reaches.of_tick {s t : State} (h : tick s = t) : Reaches s t := ⟨1, h⟩

/-- One tick, then the rest. -/
theorem Reaches.tick_then {s t : State} (h : Reaches (tick s) t) : Reaches s t := Reaches.trans ⟨1, rfl⟩ h

theorem tick_noReset {s : State} (hr : resetAwaited s = false) :
    tick s = if executorReady s then tickExecutor s else tickDispatch s := by
  have hn : resetNow s = false := by
    unfold resetNow
    unfold resetAwaited resetNext at hr
    split at hr
    · cases hr
    · cases h : s.hostIn <;> simp_all
  have hc : countDown s.hostIn = s.hostIn := by
    unfold resetAwaited resetNext at hr
    unfold countDown
    split <;> simp_all
  simp [tick, hn, hc, tickSequencers]

theorem resetAwaited_congr {s t : State} (h : t.hostIn = s.hostIn) : resetAwaited t = resetAwaited s := by
  simp [resetAwaited, h]

/-- Where the host's inputs are untouched, no reset is presented after if none was before. -/
theorem noReset_of {s t : State} (hr : resetAwaited s = false) (h : t.hostIn = s.hostIn) :
    resetAwaited t = false := (resetAwaited_congr h).trans hr

/-! ### Lines of an executor operation -/

/-- In `EX_RUN` with the lines `l` still to come. -/
def running (l : List Act) (s : State) : State := { s with exState := .run, exStep := l }

/-- The next line is taken, whatever follows. -/
theorem reaches_line {s t : State} {a : Act} {l : List Act} (hr : resetAwaited s = false)
    (h : Reaches (doAct a (running l s)) t) : Reaches (running (a :: l) s) t := by
  have hr' : resetAwaited (running (a :: l) s) = false := hr
  apply Reaches.tick_then
  rw [tick_noReset hr']
  exact h

/-- The running counter reaches 0 and the event follows (R121). -/
theorem reaches_counting (us : Nat) (l : List Act) (n : Nat) (s : State) (hn : s.dlyCnt.toNat = n)
    (hr : resetAwaited s = false) : Reaches (running (.counting us :: l) s) (running l (delayEx us s)) := by
  induction n generalizing s with
  | zero =>
    have h0 : s.dlyCnt = 0 := BitVec.eq_of_toNat_eq (by simpa using hn)
    have hd : doAct (.counting us) (running l s) = running l (delayEx us s) := by
      simp [doAct, running, h0, emit, holdEvent, delayEx]
    exact reaches_line hr (hd ▸ Reaches.refl _)
  | succ n ih =>
    have h0 : ¬ (running l s).dlyCnt = 0 := by
      intro (h : s.dlyCnt = 0); simp [h] at hn
    have hs : (s.dlyCnt - 1).toNat = n := by
      have h1 : (1 : Word) ≤ s.dlyCnt := BitVec.le_def.2 (by simp; omega)
      rw [BitVec.toNat_sub_of_le h1]
      simp; omega
    have hd : doAct (.counting us) (running l s) =
        running (.counting us :: l) { s with dlyCnt := s.dlyCnt - 1 } := by
      simp only [doAct, if_neg h0]; rfl
    exact reaches_line hr (hd ▸ ih { s with dlyCnt := s.dlyCnt - 1 } hs hr)

/-- `Delay(us)` of the executor (R121). -/
theorem reaches_delay (us : Nat) (l : List Act) (s : State) (hr : resetAwaited s = false) :
    Reaches (running (.delay us :: l) s) (running l (delayEx us s)) :=
  reaches_line hr (reaches_counting us l _ { s with dlyCnt := delayCycles s.cfg us } rfl hr)

/-- A low pulse: a pin action and a delay; then the rest. -/
theorem reaches_low {us : Nat} {l : List Act} {s t : State} (hr : resetAwaited s = false)
    (h : resetAwaited (delayEx us (driveLow s)) = false → Reaches (running l (delayEx us (driveLow s))) t) :
    Reaches (running (.driveLow :: .delay us :: l) s) t :=
  reaches_line hr ((reaches_delay us l (driveLow s) (noReset_of hr rfl)).trans (h (noReset_of hr rfl)))

/-- A high hold; then the rest. -/
theorem reaches_high {us : Nat} {l : List Act} {s t : State} (hr : resetAwaited s = false)
    (h : resetAwaited (delayEx us (releaseHigh s)) = false →
      Reaches (running l (delayEx us (releaseHigh s))) t) :
    Reaches (running (.releaseHigh :: .delay us :: l) s) t :=
  reaches_line hr ((reaches_delay us l (releaseHigh s) (noReset_of hr rfl)).trans (h (noReset_of hr rfl)))

theorem reaches_symbol (bit : Bool) (l : List Act) (s : State) (hr : resetAwaited s = false) :
    Reaches (running (symbolActs s.profile bit ++ l) s)
      (running l (if bit then transmitOne s else transmitZero s)) := by
  cases bit <;> exact reaches_low hr fun h => reaches_high h fun _ => Reaches.refl _

theorem reaches_readBit (l : List Act) (s : State) (hr : resetAwaited s = false) :
    Reaches (running (readBitActs s.profile ++ l) s) (running l (readBit s)) := by
  refine reaches_low hr fun h1 => reaches_high h1 fun h2 => ?_
  refine reaches_line h2 ?_
  have h3 : resetAwaited (sample (beforeSample s)) = false := noReset_of h2 rfl
  refine (reaches_delay (readRest s.profile) (.setAckbit (sampledBit (beforeSample s)) :: l) _ h3).trans ?_
  exact reaches_line (noReset_of h3 rfl) (Reaches.refl _)

theorem reaches_transmitBits (n : Nat) (l : List Act) (s : State) (hr : resetAwaited s = false) :
    Reaches (running (repeatActs [.symbol, .shiftOut] n ++ l) s) (running l (transmitBits n s)) := by
  induction n generalizing s with
  | zero => exact Reaches.refl _
  | succ n ih =>
    have hr' : resetAwaited (transmitSymbol s) = false := by rw [transmitSymbol_eq]; exact hr
    refine reaches_line hr ?_
    refine (reaches_symbol s.sh.msb (.shiftOut :: (repeatActs [.symbol, .shiftOut] n ++ l)) s hr).trans ?_
    exact reaches_line (s := transmitSymbol s) hr' (ih (shiftOut (transmitSymbol s)) hr')

theorem reaches_receiveBits (n : Nat) (l : List Act) (s : State) (p : Profile) (hp : s.profile = p)
    (hr : resetAwaited s = false) :
    Reaches (running (repeatActs (readBitActs p ++ [.shiftIn]) n ++ l) s) (running l (receiveBits n s)) := by
  induction n generalizing s with
  | zero => exact Reaches.refl _
  | succ n ih =>
    subst hp
    have hr' : resetAwaited (readBit s) = false := by rw [readBit_eq]; exact hr
    have hl : repeatActs (readBitActs s.profile ++ [.shiftIn]) (n + 1) ++ l =
        readBitActs s.profile ++ (.shiftIn :: (repeatActs (readBitActs s.profile ++ [.shiftIn]) n ++ l)) := by
      simp [repeatActs]
    rw [hl]
    refine (reaches_readBit _ s hr).trans (reaches_line (s := readBit s) hr' ?_)
    exact ih (shiftIn (readBit s)) (by rw [receiveTurn_eq]; rfl) hr'

/-! ### Executor operations -/

theorem reaches_transmitByte (payload : Byte) (s : State) (hr : resetAwaited s = false) :
    Reaches (running (transmitByteActs s.profile payload) s) (running [] (runTransmitByte payload s)) := by
  refine reaches_line hr ((reaches_transmitBits 8 _ (loadShift payload s) hr).trans ?_)
  have hr' : resetAwaited (transmitBits 8 (loadShift payload s)) = false := by
    rw [transmitBits_eq]; exact hr
  have hp : s.profile = (transmitBits 8 (loadShift payload s)).profile := by
    rw [transmitBits_eq]; rfl
  have hr2 : resetAwaited (transmitByte payload s) = false := by
    rw [transmitByte_eq]; exact hr
  rw [hp]
  exact (reaches_readBit _ _ hr').trans (reaches_line (s := transmitByte payload s) hr2 (Reaches.refl _))

theorem reaches_receiveByte (payload : Byte) (s : State) (hr : resetAwaited s = false) :
    Reaches (running (receiveByteActs s.profile (sendAckOf payload)) s)
      (running [] (runReceiveByte payload s)) := by
  refine reaches_line hr ((reaches_receiveBits 8 _ (loadShift 0 s) s.profile rfl hr).trans ?_)
  have hr' : resetAwaited (receiveBits 8 (loadShift 0 s)) = false := by
    rw [receiveBits_eq]; exact hr
  have hp : s.profile = (receiveBits 8 (loadShift 0 s)).profile := by
    rw [receiveBits_eq]; rfl
  have hr2 : resetAwaited (receiveByte (sendAckOf payload) s) = false := by
    rw [receiveByte_eq]; exact hr
  have hs : (if (!sendAckOf payload) = true then transmitOne (receiveBits 8 (loadShift 0 s))
      else transmitZero (receiveBits 8 (loadShift 0 s))) = receiveByte (sendAckOf payload) s := by
    unfold receiveByte sendAckSymbol
    cases sendAckOf payload <;> simp
  rw [hp]
  refine (reaches_symbol _ _ _ hr').trans ?_
  rw [hs]
  exact reaches_line (s := receiveByte (sendAckOf payload) s) hr2 (Reaches.refl _)

theorem reaches_discovery (s : State) (hr : resetAwaited s = false) :
    Reaches (running (discoveryActs s.cfg.params) s) (running [] (runDiscovery s)) := by
  refine reaches_high hr fun h1 => reaches_low h1 fun h2 => reaches_high h2 fun h3 => reaches_low h3 fun h4 =>
    reaches_high h4 fun h5 => reaches_line h5 ?_
  have h6 : resetAwaited (setAckbit (sampledBit (beforePresence s)) (sample (beforePresence s))) = false :=
    noReset_of h5 rfl
  refine (reaches_delay s.cfg.params.tDscEnd [.respondAck] _ h6).trans ?_
  exact reaches_line (noReset_of h6 rfl) (Reaches.refl _)

/-- Whatever the opcode of `cur_req`, its lines do what `runRequest` says (R200, R211). -/
theorem reaches_runRequest (s : State) (hr : resetAwaited s = false) :
    Reaches (running (requestActs s) s) (running [] (runRequest s)) := by
  unfold requestActs runRequest
  split
  · exact reaches_transmitByte _ s hr
  · split
    · exact reaches_discovery s hr
    · split
      · exact reaches_receiveByte _ s hr
      · exact reaches_line hr (Reaches.refl _)

/-- What a request leaves alone outside the executor's own registers. -/
theorem runRequest_frame (s : State) :
    (runRequest s).hostIn = s.hostIn ∧ (runRequest s).reqSlot = s.reqSlot ∧ (runRequest s).rspSlot = s.rspSlot ∧
    (runRequest s).dState = s.dState ∧ (runRequest s).dStep = s.dStep ∧ (runRequest s).exState = s.exState := by
  unfold runRequest
  split
  · simp [runTransmitByte, transmitByte_eq, respondAck, setResponse]
  · split
    · simp [runDiscovery, discovery_eq, respondAck, setResponse]
    · split
      · simp [runReceiveByte, receiveByte_eq, respondByte, setResponse]
      · simp [runUnknown, setResponse]

/-- The stages after the last line: `EX_UNMASK`, `EX_PUSH` (R200). -/
theorem reaches_unmask (s : State) (hr : resetAwaited s = false) :
    Reaches (running [] s) (pushResponse (unmaskIrq s)) := by
  have hr1 : resetAwaited (running [] s) = false := hr
  have hr2 : resetAwaited ({ running [] s with exState := .unmask } : State) = false := hr
  have hr3 : resetAwaited (unmaskIrq s) = false := hr
  apply Reaches.tick_then
  rw [tick_noReset hr1]
  show Reaches ({ running [] s with exState := .unmask } : State) _
  apply Reaches.tick_then
  rw [tick_noReset hr2]
  show Reaches (unmaskIrq s) _
  cases hrs : s.rspSlot with
  | some r =>
    have hp : pushResponse (unmaskIrq s) = unmaskIrq s := by simp [pushResponse, hrs]
    rw [hp]
    exact Reaches.refl _
  | none =>
    apply Reaches.of_tick
    rw [tick_noReset hr3]
    simp [executorReady, tickExecutor, hrs]

/-- A served request, with room for its response, leaves the channel holding the response and the dispatch side as it
was. -/
theorem serveRequest_frame (s : State) (h : s.rspSlot = none) :
    (serve runRequest s).hostIn = s.hostIn ∧ (serve runRequest s).reqSlot = s.reqSlot ∧
    (serve runRequest s).exState = .wait ∧ (serve runRequest s).dState = s.dState ∧
    (serve runRequest s).rspSlot = some (runRequest (maskIrq s)).exRsp := by
  have hf := runRequest_frame (maskIrq s)
  have hp (t : State) (ht : t.rspSlot = none) : pushResponse t = { t with rspSlot := some t.exRsp, exState := .wait } := by
    simp [pushResponse, ht]
  unfold serve
  rw [hp _ (by simp [hf.2.2.1, h])]
  simp [hf.1, hf.2.1, hf.2.2.2.1]

/-- From `EX_MASK`, the executor serves the request in `cur_req` (R200). -/
theorem reaches_serve (s : State) (hx : s.exState = .mask) (hr : resetAwaited s = false) :
    Reaches s (serve runRequest s) := by
  have h1 : tick s = running (requestActs (maskIrq s)) (maskIrq s) := by
    rw [tick_noReset hr]
    simp only [executorReady, hx, tickExecutor, if_true]
    rfl
  have hr2 : resetAwaited (runRequest (maskIrq s)) = false := by
    rw [← hr]; exact resetAwaited_congr (runRequest_frame (maskIrq s)).1
  apply Reaches.tick_then
  rw [h1]
  exact (reaches_runRequest (maskIrq s) hr).trans (reaches_unmask _ hr2)

/-- From `EX_WAIT` with a request, one executor turn (R200). -/
theorem reaches_executorTurn (s : State) (w : Word) (hx : s.exState = .wait) (hq : s.reqSlot = some w)
    (hr : resetAwaited s = false) : Reaches s (executorTurn s) := by
  apply Reaches.tick_then
  have h1 : tick s = popRequest s := by
    rw [tick_noReset hr]
    simp [executorReady, hx, hq, tickExecutor]
  rw [h1]
  have hx2 : (popRequest s).exState = .mask := by simp [popRequest, hq]
  have hr2 : resetAwaited (popRequest s) = false := by
    rw [← hr]; apply resetAwaited_congr; simp [popRequest, hq]
  exact reaches_serve (popRequest s) hx2 hr2

end Sys2Proof.Machine
end

