-- ==== Sys2Proof/Laws/DispatchTicks.lean ====
section
/-! SUPPORT. The clocked machine against the whole operations: each procedure of the dispatch sequencer is what a run of
ticks over its lines does. -/

namespace Sys2Proof.Machine

open Sys2Proof

theorem noReset_frame {s t : State} (hr : resetAwaited s = false) (h : SameOp s t) : resetAwaited t = false :=
  noReset_of hr h.hostIn

/-- With nothing outstanding the dispatch sequencer takes the tick. -/
theorem tick_quiet {s : State} (hq : s.quiet = true) (hr : resetAwaited s = false) : tick s = tickDispatch s := by
  obtain ⟨h1, h2, h3⟩ := (quiet_iff s).1 hq
  rw [tick_noReset hr]
  simp [executorReady, h3, h1]

/-- One line of the dispatch sequencer; then the rest. -/
theorem reaches_dispatchLine {d : DStep} {s t : State} (h : AtLine s) (hr : resetAwaited s = false)
    (ht : Reaches (runDispatchLine (goto d s)) t) : Reaches (goto d s) t := by
  have hq : (goto d s).quiet = true := h.quiet
  have hr' : resetAwaited (goto d s) = false := hr
  apply Reaches.tick_then
  rw [tick_quiet hq hr']
  simpa [tickDispatch, h.run] using ht

/-- A `Chan` whose response the line `d` handles (R206). -/
theorem reaches_request {opc : Byte} (ho : IsOpcode opc) (payload : Byte) (d : DStep) {s : State} (h : AtLine s)
    (hr : resetAwaited s = false) : Reaches (request opc payload d s) (goto d (chan opc payload s)) := by
  obtain ⟨h1, h2, h3⟩ := (quiet_iff s).1 h.quiet
  have hreq : request opc payload d s = pushRequest opc payload (goto d s) := by simp [request, h1]
  rw [hreq, ← chan_goto ho payload d h.quiet]
  have hr1 : resetAwaited (pushRequest opc payload (goto d s)) = false := noReset_of hr rfl
  have ht := reaches_executorTurn (pushRequest opc payload (goto d s)) (requestWord opc payload)
    (by simp [h3]) (by simp) hr1
  have hf := serveRequest_frame (popRequest (pushRequest opc payload (goto d s))) (by simp [popRequest, h2])
  refine ht.trans (Reaches.of_tick ?_)
  have hr2 : resetAwaited (executorTurn (pushRequest opc payload (goto d s))) = false :=
    noReset_of hr (hf.1.trans (by simp [popRequest]))
  have hx : executorReady (executorTurn (pushRequest opc payload (goto d s))) = false := by
    simp only [executorReady, executorTurn, hf.2.2.1, hf.2.1]; rfl
  have hd : (executorTurn (pushRequest opc payload (goto d s))).dState = .waitRsp := by
    exact hf.2.2.2.1
  rw [tick_noReset hr2, hx]
  simp [tickDispatch, hd, chan]

/-- A settle delay counts down to 0 (R121). -/
theorem reaches_countSettle (n : Nat) {s t : State} (hn : s.dlyD.toNat = n) (hq : s.quiet = true)
    (hd : s.dState = .delay) (hr : resetAwaited s = false)
    (ht : Reaches (countSettle { s with dlyD := 0 }) t) : Reaches s t := by
  induction n generalizing s with
  | zero =>
    have h0 : s.dlyD = 0 := BitVec.eq_of_toNat_eq (by simpa using hn)
    have hs : ({ s with dlyD := 0 } : State) = s := by
      cases s; simp_all
    apply Reaches.tick_then
    rw [tick_quiet hq hr]
    rw [hs] at ht
    simpa [tickDispatch, hd] using ht
  | succ n ih =>
    have h0 : ¬ s.dlyD = 0 := by intro h; simp [h] at hn
    have hs : (s.dlyD - 1).toNat = n := by
      have h1 : (1 : Word) ≤ s.dlyD := BitVec.le_def.2 (by simp; omega)
      rw [BitVec.toNat_sub_of_le h1]
      simp; omega
    apply Reaches.tick_then
    rw [tick_quiet hq hr]
    have hc : tickDispatch s = { s with dlyD := s.dlyD - 1 } := by
      simp only [tickDispatch, hd, countSettle, if_neg h0]
    rw [hc]
    exact ih (s := { s with dlyD := s.dlyD - 1 }) hs hq hd hr ht

/-- The settle delay A of `readByte` (R175). -/
theorem reaches_settleA (k : Pass) {s : State} (h : AtLine s) (hr : resetAwaited s = false) :
    Reaches (startSettle s.cfg.params.tSettleA (.settleA k) s)
      (goto (.rselSend k) (delayDispatch s.cfg.params.tSettleA s)) := by
  refine reaches_countSettle _ rfl h.quiet rfl (noReset_of hr rfl) ?_
  exact Reaches.refl _

/-- The settle delay B of `readByte` (R175). -/
theorem reaches_settleB (k : Pass) {s : State} (h : AtLine s) (hr : resetAwaited s = false) :
    Reaches (startSettle s.cfg.params.tSettleB (.settleB k) s)
      (goto (.returnVal k) (delayDispatch s.cfg.params.tSettleB s)) := by
  refine reaches_countSettle _ rfl h.quiet rfl (noReset_of hr rfl) ?_
  exact Reaches.refl _

/-! ### `readByte` -/

theorem endVerified_goto (r : Result) (d : DStep) (s : State) : endVerified r (goto d s) = endVerified r s := by
  cases r <;> rfl

/-- The end of a `readByte` does not look at the line it comes from. -/
theorem endRead_goto (k : Pass) (r : Result) (d : DStep) (s : State) : endRead k r (goto d s) = endRead k r s := by
  have hs (k : Pass) : setSample k r (goto d s) = goto d (setSample k r s) := by cases k <;> rfl
  cases k with
  | first => rfl
  | second =>
    simp only [endRead, hs, endVerified_goto, goto_samp0, goto_samp1]
    rfl
  | third =>
    simp only [endRead, hs, endVerified_goto]
    rfl

/-- A round trip from one line to another. -/
theorem reaches_roundTrip {opc : Byte} (ho : IsOpcode opc) (payload : Byte) (d d' : DStep) {s t : State}
    (h : AtLine s) (hr : resetAwaited s = false) (ht : Reaches (goto d' (chan opc payload s)) t) :
    Reaches (request opc payload d' (goto d s)) t := by
  refine (reaches_request ho payload d' (s := goto d s) ⟨h.quiet, h.run⟩ hr).trans ?_
  rw [chan_goto ho payload d h.quiet]
  exact ht

/-- `readByte` from its read-intent byte to its return (R175). -/
theorem reaches_readIntent (k : Pass) {s : State} (h : AtLine s) (hr : resetAwaited s = false) :
    Reaches (goto (.rselSend k) s)
      (endRead k
        (if (sendEepromR (devField s.opWord) s).rsp ≠ rspAck then Result.err .rselNack
          else .val (chan opcRx (ackPayload false) (sendEepromR (devField s.opWord) s)).rsp)
        (if (sendEepromR (devField s.opWord) s).rsp ≠ rspAck then sendEepromR (devField s.opWord) s
          else delayDispatch s.cfg.params.tSettleB
            (chan opcRx (ackPayload false) (sendEepromR (devField s.opWord) s)))) := by
  refine reaches_dispatchLine h hr ?_
  simp only [runDispatchLine, goto_dStep, goto_opWord]
  refine reaches_roundTrip isOpcode_tx _ _ _ h hr ?_
  have f1 := chan_frame isOpcode_tx (devByte busOpcEeprom (devField s.opWord) true) h.quiet
  have r1 := noReset_frame hr f1.1
  unfold sendEepromR
  generalize chan opcTx (devByte busOpcEeprom (devField s.opWord) true) s = s1 at f1 r1 ⊢
  refine reaches_dispatchLine f1.2.2 r1 ?_
  simp only [runDispatchLine, goto_dStep, goto_rsp]
  by_cases h1 : ¬ s1.rsp = rspAck
  · simp only [ne_eq, h1, not_false_eq_true, if_true, endRead_goto]
    exact Reaches.refl _
  · simp only [h1, if_false]
    have f2 := chan_frame isOpcode_rx (ackPayload false) f1.2.2.quiet
    have r2 := noReset_frame r1 f2.1
    refine reaches_roundTrip isOpcode_rx _ _ _ f1.2.2 r1 ?_
    rw [← (f1.1.trans f2.1).cfg]
    generalize chan opcRx (ackPayload false) s1 = s2 at f2 r2 ⊢
    refine reaches_dispatchLine f2.2.2 r2 ?_
    refine (reaches_settleB k f2.2.2 r2).trans ?_
    have f3 := delayDispatch_frame s2.cfg.params.tSettleB f2.2.2.quiet
    refine reaches_dispatchLine f3.2.2 (noReset_frame r2 f3.1) ?_
    simp only [runDispatchLine, goto_dStep, endRead_goto, goto_rsp]
    exact Reaches.refl _

/-- `readByte(dev, cur_addr)` from the entry of `loadAddress` to its return (R171, R175). -/
theorem reaches_readByte (k : Pass) {s : State} (h : AtLine s) (hr : resetAwaited s = false) :
    Reaches (goto (.loadAddr k) s)
      (endRead k (readByte (devField s.opWord) s.curAddr s).1 (readByte (devField s.opWord) s.curAddr s).2) := by
  refine reaches_dispatchLine h hr ?_
  simp only [runDispatchLine, goto_dStep, goto_curAddr, goto_opWord]
  unfold readByte loadAddress
  by_cases ha : addrOutOfRange s.curAddr = true
  · simp only [ha, if_true, endRead_goto]
    exact Reaches.refl _
  simp only [ha, Bool.false_eq_true, if_false]
  refine reaches_roundTrip isOpcode_tx _ _ _ h hr ?_
  unfold sendEepromW
  have f1 := chan_frame isOpcode_tx (devByte busOpcEeprom (devField s.opWord) false) h.quiet
  have r1 := noReset_frame hr f1.1
  generalize chan opcTx (devByte busOpcEeprom (devField s.opWord) false) s = s1 at f1 r1 ⊢
  refine reaches_dispatchLine f1.2.2 r1 ?_
  simp only [runDispatchLine, goto_dStep, goto_rsp, goto_curAddr]
  by_cases h1 : ¬ s1.rsp = rspAck
  · simp only [ne_eq, h1, not_false_eq_true, if_true, endRead_goto]
    exact Reaches.refl _
  simp only [ne_eq, h1, if_false]
  rw [f1.1.curAddr]
  refine reaches_roundTrip isOpcode_tx _ _ _ f1.2.2 r1 ?_
  have f2 := chan_frame isOpcode_tx s.curAddr f1.2.2.quiet
  have r2 := noReset_frame r1 f2.1
  have o2 := f1.1.trans f2.1
  generalize chan opcTx s.curAddr s1 = s2 at f2 r2 o2 ⊢
  refine reaches_dispatchLine f2.2.2 r2 ?_
  simp only [runDispatchLine, goto_dStep, goto_rsp]
  by_cases h2 : ¬ s2.rsp = rspAck
  · simp only [ne_eq, h2, not_false_eq_true, if_true, endRead_goto]
    exact Reaches.refl _
  simp only [h2, if_false]
  refine (reaches_settleA k f2.2.2 r2).trans ?_
  have f3 := delayDispatch_frame s2.cfg.params.tSettleA f2.2.2.quiet
  have r3 := noReset_frame r2 f3.1
  have o3 := o2.trans f3.1
  rw [← o3.opWord]
  refine (reaches_readIntent k f3.2.2 r3).trans ?_
  have f4 := chan_frame isOpcode_tx
    (devByte busOpcEeprom (devField (delayDispatch s2.cfg.params.tSettleA s2).opWord) true) f3.2.2.quiet
  have f5 := chan_frame isOpcode_rx (ackPayload false) f4.2.2.quiet
  have hc := (f4.1.trans f5.1).cfg
  unfold sendEepromR
  split
  · exact Reaches.refl _
  · rw [hc]
    exact Reaches.refl _

/-! ### `verifiedRead` and the block loop -/

theorem takeSample_eq (k : Pass) (dev a : Byte) (s : State) :
    setSample k (readByte dev a s).1 (readByte dev a s).2 = takeSample k dev a s := rfl

/-- `verifiedRead(dev, cur_addr)` to its return to the block loop (R177). -/
theorem reaches_verifiedRead {s : State} (h : AtLine s) (hr : resetAwaited s = false) :
    Reaches (goto (.loadAddr .first) s)
      (endVerified (verifiedRead (devField s.opWord) s.curAddr s).1
        (verifiedRead (devField s.opWord) s.curAddr s).2) := by
  have f1 := takeSample_frame .first (devField s.opWord) s.curAddr h
  have r1 := noReset_frame hr f1.1
  refine (reaches_readByte .first h hr).trans ?_
  simp only [endRead, takeSample_eq]
  refine (reaches_readByte .second f1.2 r1).trans ?_
  rw [f1.1.opWord, f1.1.curAddr]
  have f2 := takeSample_frame .second (devField s.opWord) s.curAddr f1.2
  have r2 := noReset_frame r1 f2.1
  simp only [endRead, takeSample_eq]
  unfold verifiedRead
  dsimp only
  by_cases he : (takeSample .second (devField s.opWord) s.curAddr
      (takeSample .first (devField s.opWord) s.curAddr s)).samp0 =
    (takeSample .second (devField s.opWord) s.curAddr
      (takeSample .first (devField s.opWord) s.curAddr s)).samp1
  · simp only [he, if_true]
    exact Reaches.refl _
  · simp only [he, if_false]
    refine (reaches_readByte .third f2.2 r2).trans ?_
    rw [(f1.1.trans f2.1).opWord, (f1.1.trans f2.1).curAddr]
    simp only [endRead, takeSample_eq]
    exact Reaches.refl _

theorem storeByte_atLine (b : Byte) {s : State} (h : AtLine s) : AtLine (storeByte b s) := ⟨h.quiet, h.run⟩

/-- The block loop, with `n` addresses to go (R180). -/
theorem reaches_blockLoop (n : Nat) {s : State} (h : AtLine s) (hr : resetAwaited s = false)
    (hn : s.idx.toNat + n = (lowField s.opWord).toNat) :
    Reaches (goto .blkLoop s)
      (finishBlock (lowField s.opWord) (blockLoop (devField s.opWord) (arg1Field s.opWord) n s)) := by
  induction n generalizing s with
  | zero =>
    refine reaches_dispatchLine h hr ?_
    have hl : ¬ s.idx.toNat < (lowField s.opWord).toNat := by omega
    simp only [runDispatchLine, goto_dStep, goto_idx, goto_opWord, hl, if_false]
    exact Reaches.refl _
  | succ n ih =>
    refine reaches_dispatchLine h hr ?_
    have hl : s.idx.toNat < (lowField s.opWord).toNat := by omega
    simp only [runDispatchLine, goto_dStep, goto_idx, goto_opWord, hl, if_true]
    have hA : AtLine (setCurAddr (arg1Field s.opWord) s) := ⟨h.quiet, h.run⟩
    have hR : resetAwaited (setCurAddr (arg1Field s.opWord) s) = false := hr
    refine (reaches_verifiedRead hA hR).trans ?_
    have f := verifiedRead_frame (devField s.opWord) (setCurAddr (arg1Field s.opWord) s).curAddr hA
    have r := noReset_frame hR f.1
    unfold blockLoop
    rw [show (setCurAddr (arg1Field s.opWord) s).opWord = s.opWord from rfl]
    generalize verifiedRead (devField s.opWord) (setCurAddr (arg1Field s.opWord) s).curAddr
      (setCurAddr (arg1Field s.opWord) s) = vr at f r ⊢
    obtain ⟨v, s1⟩ := vr
    dsimp only at f r ⊢
    cases v with
    | err e => exact Reaches.refl _
    | val b =>
      have hi : s1.idx = s.idx := f.1.idx
      have ho : s1.opWord = s.opWord := f.1.opWord
      have hlt := (lowField s.opWord).isLt
      have hn' : (storeByte b s1).idx.toNat + n = (lowField (storeByte b s1).opWord).toNat := by
        have h1 : (1 : Byte).toNat = 1 := rfl
        rw [storeByte_idx, storeByte_opWord, hi, ho, BitVec.toNat_add, h1, Nat.mod_eq_of_lt (by omega)]
        omega
      have := ih (storeByte_atLine b f.2) (s := storeByte b s1) r hn'
      rw [show (storeByte b s1).opWord = s.opWord from ho] at this
      exact this

end Sys2Proof.Machine
end

