-- ==== Sys2Proof/Laws/Fetch.lean ====
section
/-! SUPPORT. Where `fetch` finds an instruction, said once for each of its three places, and what the meanings of request
words and bus opcode bytes come to. -/

namespace Sys2Proof.Machine

open Sys2Proof

/-- What `decodeBus` accepts is what the three bus items encode to. -/
theorem decodeBus_devByte (b : Byte) (i : Instr) (h : decodeBus b = .ok i) : encode i = .bus b := by
  revert h
  unfold decodeBus
  split
  · split
    · intro h; cases h; simp only [encode]; congr 1; revert b; decide +kernel
    · intro h; cases h; simp only [encode]; congr 1; revert b; decide +kernel
  · split
    · intro h; cases h; simp only [encode]; congr 1; revert b; decide +kernel
    · intro h; cases h

/-- A request word is fetched by a waiting executor. -/
theorem fetch_chan {s : State} {w : Word} {s' : State} (h : fetch s = some (.chan w, s')) :
    resetAwaited s = false ∧ s.exState = .wait ∧ s.reqSlot = some w ∧ s' = popRequest s := by
  unfold fetch pendingRequest at h
  split at h
  · cases h
  · rename_i hr
    split at h
    · rename_i hq
      split at hq
      · cases h; simp_all
      · cases hq
    · split at h
      · cases h
      · split at h <;> cases h

/-- A bus opcode byte is fetched from the dispatch sequencer's line. -/
theorem fetch_bus {s : State} {b : Byte} {s' : State} (h : fetch s = some (.bus b, s')) :
    resetAwaited s = false ∧ s.dState = .run ∧ s.quiet = true ∧ s.dStep = .select b ∧ s' = goto .ret s := by
  unfold fetch selectByte at h
  split at h
  · cases h
  · rename_i hr
    split at h
    · cases h
    · split at h
      · rename_i hq
        split at hq
        · split at hq
          · cases h; cases hq; simp_all
          · cases hq
        · cases hq
      · split at h <;> cases h

/-- A host word is fetched by an idle engine. -/
theorem fetch_host {s : State} {w : Word} {s' : State} (h : fetch s = some (.host w, s')) :
    resetAwaited s = false ∧ s.dState = .idle ∧ s.quiet = true ∧
      (∃ r, s.hostIn = .op w :: r ∧ resetNext r = false) ∧ s' = acceptHost w s := by
  unfold fetch presentedWord at h
  split at h
  · cases h
  · rename_i hr
    split at h
    · cases h
    · split at h
      · cases h
      · split at h
        · rename_i hq
          split at hq
          · split at hq
            · cases h; cases hq; simp_all
            · cases hq
          · cases hq
        · cases h

/-- The meaning of the popped request is the executor's turn. -/
theorem exec_chan {w : Word} {i : Instr} (s : State) (hw : s.curReq = w) (h : decodeChan w = .ok i) :
    exec i s = .next (serve runRequest s) := by
  subst hw
  unfold decodeChan at h
  split at h
  · cases h; simp [exec, execChanTransmitByte, serve, runRequest, *]
  · split at h
    · cases h; simp [exec, execChanDiscovery, serve, runRequest, *, show opcDisc ≠ opcTx by decide]
    · split at h
      · cases h; simp [exec, execChanReceiveByte, serve, runRequest, *, show opcRx ≠ opcTx by decide,
          show opcRx ≠ opcDisc by decide]
      · cases h

/-- An unknown request is the executor's turn too. -/
theorem exec_chanUnknown {w : Word} {e : DecodeError} (s : State) (hw : s.curReq = w)
    (h : decodeChan w = .error e) : execChanUnknown s = .next (serve runRequest s) := by
  subst hw
  unfold decodeChan at h
  split at h
  · cases h
  · split at h
    · cases h
    · split at h
      · cases h
      · simp [execChanUnknown, serve, runRequest, *]

/-- The meaning of a bus opcode byte is the round trip that sends it. -/
theorem exec_bus {b : Byte} {i : Instr} (s : State) (hq : s.quiet = true) (h : decodeBus b = .ok i) :
    exec i s = .next (chan opcTx b s) := by
  have he := decodeBus_devByte b i h
  unfold decodeBus at h
  split at h
  · split at h <;> cases h <;> simp only [encode] at he <;> injection he with he <;>
      simp [exec, execBusEepromR, execBusEepromW, whenQuiet, hq, sendEepromR, sendEepromW, he]
  · split at h <;> cases h
    simp only [encode] at he
    injection he with he
    simp [exec, execBusMfgidR, whenQuiet, hq, sendMfgidR, he]

end Sys2Proof.Machine
end

