-- ==== Sys2Proof/Laws/Inputs.lean ====
section
/-! SUPPORT. What a tick does where a reset is the next input, and that the sequencers act the same whatever input stands
behind it. -/

namespace Sys2Proof.Machine

open Sys2Proof

/-! ### A tick towards a reset (R280) -/

theorem tick_resetNow {s : State} {rest : List HostInput} (h : s.hostIn = .rst 0 :: rest) :
    tick s = resetEngine s := by
  simp [tick, resetNow, h]

theorem tick_countDown {s : State} {n : Nat} {rest : List HostInput} (h : s.hostIn = .rst (n + 1) :: rest) :
    tick s = tickSequencers { s with hostIn := .rst n :: rest } := by
  simp [tick, resetNow, h, countDown]

/-! ### The sequencers do not look behind a reset that is awaited -/

/-- `s` with the inputs `l`. -/
def withInputs (l : List HostInput) (s : State) : State := { s with hostIn := l }

theorem withInputs_eq {s : State} {l : List HostInput} (h : s.hostIn = l) : withInputs l s = s := by subst h; rfl

/-- With no input there is none after the tick, and no reset. -/
theorem tick_noInput {s : State} (h : s.hostIn = []) : tick s = tickSequencers s := by
  have hc : ({ s with hostIn := countDown s.hostIn } : State) = s := by
    simp only [h, countDown]; exact withInputs_eq h
  rw [tick, hc]
  simp [resetNow, h]

theorem doAct_inputs (l : List HostInput) (a : Act) (s : State) :
    doAct a (withInputs l s) = withInputs l (doAct a s) := by
  cases a with
  | counting us =>
    show (if s.dlyCnt = 0 then _ else _) = withInputs l (if s.dlyCnt = 0 then _ else _)
    split <;> rfl
  | _ => rfl

theorem pushResponse_inputs (l : List HostInput) (s : State) :
    pushResponse (withInputs l s) = withInputs l (pushResponse s) := by
  cases h : s.rspSlot <;> simp [pushResponse, withInputs, h]
theorem popRequest_inputs (l : List HostInput) (s : State) :
    popRequest (withInputs l s) = withInputs l (popRequest s) := by
  cases h : s.reqSlot <;> simp [popRequest, withInputs, h]
theorem popResponse_inputs (l : List HostInput) (s : State) :
    popResponse (withInputs l s) = withInputs l (popResponse s) := by
  cases h : s.rspSlot <;> simp [popResponse, withInputs, h]

theorem runLine_inputs (l : List HostInput) (s : State) : runLine (withInputs l s) = withInputs l (runLine s) := by
  have he : (withInputs l s).exStep = s.exStep := rfl
  cases h : s.exStep with
  | nil => simp only [runLine, he, h]; rfl
  | cons a r => simp only [runLine, he, h]; exact doAct_inputs l a { s with exStep := r }

theorem tickExecutor_inputs (l : List HostInput) (s : State) :
    tickExecutor (withInputs l s) = withInputs l (tickExecutor s) := by
  have he : (withInputs l s).exState = s.exState := rfl
  unfold tickExecutor
  rw [he]
  cases s.exState
  · exact popRequest_inputs l s
  · rfl
  · dsimp only
    exact runLine_inputs l s
  · rfl
  · exact pushResponse_inputs l s

theorem request_inputs (l : List HostInput) (opc payload : Byte) (d : DStep) (s : State) :
    request opc payload d (withInputs l s) = withInputs l (request opc payload d s) := by
  cases h : s.reqSlot <;> simp [request, withInputs, h, goto, pushRequest]

theorem endVerified_inputs (l : List HostInput) (r : Result) (s : State) :
    endVerified r (withInputs l s) = withInputs l (endVerified r s) := by
  cases r <;> rfl
theorem setSample_inputs (l : List HostInput) (k : Pass) (r : Result) (s : State) :
    setSample k r (withInputs l s) = withInputs l (setSample k r s) := by
  cases k <;> rfl
theorem endRead_inputs (l : List HostInput) (k : Pass) (r : Result) (s : State) :
    endRead k r (withInputs l s) = withInputs l (endRead k r s) := by
  cases k
  · rfl
  · simp only [endRead, setSample_inputs, endVerified_inputs]
    show (if (setSample .second r s).samp0 = (setSample .second r s).samp1 then _ else _) = _
    split <;> rfl
  · simp only [endRead, setSample_inputs, endVerified_inputs]; rfl

theorem startOperation_inputs (l : List HostInput) (s : State) :
    startOperation (withInputs l s) = withInputs l (startOperation s) := by
  have he : (withInputs l s).opWord = s.opWord := rfl
  cases h : decodeHost s.opWord with
  | error e => simp only [startOperation, he, h]; rfl
  | ok i =>
    cases i <;> simp only [startOperation, he, h, request_inputs] <;> first | rfl | (split <;> rfl)

theorem ite_inputs (l : List HostInput) (p : Prop) [Decidable p] (s t : State) :
    (if p then withInputs l s else withInputs l t) = withInputs l (if p then s else t) := by split <;> rfl
theorem finish_inputs (l : List HostInput) (status : Byte) (data : Word) (len : Byte) (s : State) :
    finish status data len (withInputs l s) = withInputs l (finish status data len s) := rfl
theorem finishErr_inputs (l : List HostInput) (e : ErrCode) (s : State) :
    finishErr e (withInputs l s) = withInputs l (finishErr e s) := rfl
theorem goto_inputs (l : List HostInput) (d : DStep) (s : State) :
    goto d (withInputs l s) = withInputs l (goto d s) := rfl
theorem startSettle_inputs (l : List HostInput) (us : Nat) (d : DStep) (s : State) :
    startSettle us d (withInputs l s) = withInputs l (startSettle us d s) := rfl
theorem clearIdx_inputs (l : List HostInput) (s : State) : clearIdx (withInputs l s) = withInputs l (clearIdx s) := rfl
theorem setCurAddr_inputs (l : List HostInput) (start : Byte) (s : State) :
    setCurAddr start (withInputs l s) = withInputs l (setCurAddr start s) := rfl

theorem runDispatchLine_inputs (l : List HostInput) (s : State) :
    runDispatchLine (withInputs l s) = withInputs l (runDispatchLine s) := by
  have h1 : (withInputs l s).dStep = s.dStep := rfl
  have h2 : (withInputs l s).rsp = s.rsp := rfl
  have h3 : (withInputs l s).opWord = s.opWord := rfl
  have h4 : (withInputs l s).idx = s.idx := rfl
  have h5 : (withInputs l s).curAddr = s.curAddr := rfl
  have h6 : (withInputs l s).cfg = s.cfg := rfl
  unfold runDispatchLine
  rw [h1]
  cases s.dStep <;> simp only [h2, h3, h4, h5, h6, request_inputs, endRead_inputs, startOperation_inputs,
    finish_inputs, finishErr_inputs, goto_inputs, startSettle_inputs, clearIdx_inputs, setCurAddr_inputs, ite_inputs]
  all_goals rfl

theorem countSettle_inputs (l : List HostInput) (s : State) :
    countSettle (withInputs l s) = withInputs l (countSettle s) := by
  have h1 : (withInputs l s).dStep = s.dStep := rfl
  have h2 : (withInputs l s).dlyD = s.dlyD := rfl
  unfold countSettle
  rw [h1, h2]
  split
  · cases s.dStep <;> rfl
  · rfl

theorem tickDispatch_inputs (l : List HostInput) (hl : ∀ i ∈ l.head?, ∃ n, i = .rst n) (s : State) :
    tickDispatch (withInputs l s) = withInputs l (tickDispatch (withInputs [] s)) := by
  have h0 : (withInputs l s).dState = s.dState := rfl
  have h1 : (withInputs [] s).dState = s.dState := rfl
  unfold tickDispatch
  rw [h0, h1]
  cases s.dState
  · rcases l with _ | ⟨i, l⟩
    · rfl
    · obtain ⟨n, rfl⟩ := hl i rfl; rfl
  · dsimp only; rw [runDispatchLine_inputs, runDispatchLine_inputs]; rfl
  · dsimp only; rw [popResponse_inputs, popResponse_inputs]; rfl
  · dsimp only; rw [countSettle_inputs, countSettle_inputs]; rfl
  · rcases l with _ | ⟨i, l⟩
    · rfl
    · obtain ⟨n, rfl⟩ := hl i rfl; rfl

/-- With a reset awaited the sequencers act as with no input at all (R280). -/
theorem tickSequencers_inputs (l : List HostInput) (hl : ∀ i ∈ l.head?, ∃ n, i = .rst n) (s : State) :
    tickSequencers (withInputs l s) = withInputs l (tickSequencers (withInputs [] s)) := by
  unfold tickSequencers
  show (if executorReady s then _ else _) = withInputs l (if executorReady s then _ else _)
  split
  · rw [tickExecutor_inputs, tickExecutor_inputs]; rfl
  · exact tickDispatch_inputs l hl s

end Sys2Proof.Machine
end

