-- ==== Sys2Proof/Laws/Invariant.lean ====
section
/-! SUPPORT. How the invariant survives one action: the clauses an action of one context has to show, and the shared
actions of the dispatch sequencer. -/

namespace Sys2Proof.Machine

open Sys2Proof

/-- The invariant does not speak of the inputs. -/
theorem EngineInv.withInputs {s : State} (h : EngineInv s) (l : List HostInput) : EngineInv (withInputs l s) :=
  ⟨h.latchZero, h.bufCanonical, h.releasedOutside, h.endsReleased, h.stepsInRun, h.maskInRun, h.counterIdle, h.settleIdle,
    h.alternation, h.counts, h.validAtRest, h.doneIsValid, h.accTopZero, h.lengthBound, h.blockInRange, h.idxBound,
    h.addrInBlock⟩

/-! ### The executor's actions -/

/-- What the executor does not write, as far as the invariant speaks of it, agrees in `s` and `t`. -/
structure SameDispatch (s t : State) : Prop where
  buf      : t.buf = s.buf
  dlyD     : t.dlyD = s.dlyD
  dState   : t.dState = s.dState
  dStep    : t.dStep = s.dStep
  resValid : t.resValid = s.resValid
  acc      : t.acc = s.acc
  resLen   : t.resLen = s.resLen
  opWord   : t.opWord = s.opWord
  idx      : t.idx = s.idx
  curAddr  : t.curAddr = s.curAddr
  pinLatch : t.pinLatch = s.pinLatch
  reqCount : t.reqCount = s.reqCount
  rspCount : t.rspCount = s.rspCount

/-- The invariant after an executor action: its own clauses suffice. -/
theorem EngineInv.of_executor {s t : State} (h : EngineInv s) (d : SameDispatch s t)
    (h3 : t.exState ≠ .run → t.pinDir = false)
    (h4 : t.exState = .run → Sys2Proof.Machine.endsReleased t.pinDir t.exStep = true)
    (h5 : t.exState ≠ .run → t.exStep = [])
    (h6 : t.irqDis = decide (t.exState = .run ∨ t.exState = .unmask))
    (h7 : t.dlyCnt ≠ 0 → t.exState = .run ∧ countingNext t.exStep = true)
    (h9 : t.outstanding = s.outstanding) : EngineInv t := by
  obtain ⟨d1, d2, d3, d4, d5, d6, d7, d8, d9, d10, d11, d12, d13⟩ := d
  obtain ⟨g1, g2, -, -, -, -, -, g8, g9, g10, g11, g12, g13, g14, g15, g16, g17⟩ := h
  refine ⟨d11 ▸ g1, d1 ▸ g2, h3, h4, h5, h6, h7, ?_, ?_, ?_, ?_, ?_, d6 ▸ g13, d7 ▸ g14, ?_, ?_, ?_⟩
  · rw [d2, d3]; exact g8
  · rw [h9, g9, State.waiting, State.waiting, d3]
  · rw [d12, d13, g10, State.waiting, State.waiting, d3]
  · rw [d5, d3]; exact g11
  · rw [d5, d3]; exact g12
  · unfold State.opStart State.opLength; rw [d4, d8]; exact g15
  · unfold State.opLength; rw [d4, d8, d9]; exact g16
  · unfold State.opStart State.opLength; rw [d4, d8, d9, d10]; exact g17

/-! ### The dispatch sequencer's actions -/

/-- What the dispatch sequencer does not write, as far as the invariant speaks of it, agrees in `s` and `t`. -/
structure SameExecutor (s t : State) : Prop where
  exState  : t.exState = s.exState
  exStep   : t.exStep = s.exStep
  pinDir   : t.pinDir = s.pinDir
  pinLatch : t.pinLatch = s.pinLatch
  irqDis   : t.irqDis = s.irqDis
  dlyCnt   : t.dlyCnt = s.dlyCnt

/-- The invariant after an action of the dispatch sequencer: its own clauses suffice. -/
theorem EngineInv.of_dispatch {s t : State} (h : EngineInv s) (d : SameExecutor s t)
    (h2 : bufWf t.buf = true) (h8 : t.dlyD ≠ 0 → t.dState = .delay)
    (h9 : t.outstanding = t.waiting) (h10 : t.reqCount = t.rspCount + t.waiting)
    (h11 : t.resValid = true → t.dState = .idle ∨ t.dState = .done)
    (h12 : t.dState = .done → t.resValid = true) (h13 : opcodeField t.acc = 0) (h14 : t.resLen.toNat ≤ 128)
    (h15 : t.dStep.inBlock = true → t.opStart + t.opLength ≤ 128)
    (h16 : t.dStep = .blkLoop → t.idx.toNat ≤ t.opLength)
    (h17 : t.dStep.inRead = true →
      t.idx.toNat < t.opLength ∧ t.curAddr.toNat = t.opStart + t.idx.toNat) : EngineInv t := by
  obtain ⟨d1, d2, d3, d4, d5, d6⟩ := d
  obtain ⟨g1, -, g3, g4, g5, g6, g7, -⟩ := h
  refine ⟨d4 ▸ g1, h2, ?_, ?_, ?_, ?_, ?_, h8, h9, h10, h11, h12, h13, h14, h15, h16, h17⟩
  · rw [d1, d3]; exact g3
  · rw [d1, d2, d3]; exact g4
  · rw [d1, d2]; exact g5
  · rw [d1, d5]; exact g6
  · rw [d1, d2, d6]; exact g7

/-- What the invariant says of a state in `D_RUN`: nothing outstanding, the settle counter idle, no result yet. -/
structure Running (s : State) : Prop where
  reqEmpty  : s.reqSlot = none
  rspEmpty  : s.rspSlot = none
  waiting   : s.exState = .wait
  settleOff : s.dlyD = 0
  noResult  : s.resValid = false
  counts    : s.reqCount = s.rspCount

theorem EngineInv.running {s : State} (h : EngineInv s) (hd : s.dState = .run) : Running s := by
  have g := h.alternation
  have g2 := h.counts
  have g3 := h.settleIdle
  have g4 := h.validAtRest
  simp only [State.outstanding, State.waiting, hd] at g g2 g3 g4
  cases h1 : s.reqSlot <;> cases h2 : s.rspSlot <;> by_cases h3 : s.exState = .wait <;>
    constructor <;> simp_all

/-- A push at a line keeps the invariant. -/
theorem EngineInv.request {s : State} (h : EngineInv s) (hd : s.dState = .run) (opc payload : Byte) (next : DStep)
    (h15 : next.inBlock = true → s.opStart + s.opLength ≤ 128) (h16 : next ≠ .blkLoop)
    (h17 : next.inRead = true → s.idx.toNat < s.opLength ∧ s.curAddr.toNat = s.opStart + s.idx.toNat) :
    EngineInv (Sys2Proof.Machine.request opc payload next s) := by
  obtain ⟨f1, f2, f3, f4, f5, f6⟩ := h.running hd
  unfold Sys2Proof.Machine.request
  rw [f1]
  refine h.of_dispatch ⟨rfl, rfl, rfl, rfl, rfl, rfl⟩ h.bufCanonical (fun e => absurd f4 e) ?_ ?_ ?_ ?_ h.accTopZero
    h.lengthBound h15 (fun e => absurd e h16) h17
  · simp [State.outstanding, State.waiting, pushRequest, goto, f2, f3]
  · simp [State.waiting, pushRequest, goto, f6]
  · simp [pushRequest, goto, f5]
  · simp [pushRequest]

/-- Ending an operation keeps the invariant. -/
theorem EngineInv.finish {s : State} (h : EngineInv s) (hd : s.dState = .run) (status : Byte) (data : Word) (len : Byte)
    (hl : len.toNat ≤ 128) : EngineInv (Sys2Proof.Machine.finish status data len s) := by
  obtain ⟨f1, f2, f3, f4, f5, f6⟩ := h.running hd
  refine h.of_dispatch ⟨rfl, rfl, rfl, rfl, rfl, rfl⟩ h.bufCanonical (fun e => absurd f4 e) ?_ ?_ ?_ ?_ h.accTopZero
    hl ?_ ?_ ?_
  · simp [State.outstanding, State.waiting, Sys2Proof.Machine.finish, f1, f2, f3]
  · simp [State.waiting, Sys2Proof.Machine.finish, f6]
  · simp [Sys2Proof.Machine.finish]
  · simp [Sys2Proof.Machine.finish]
  · simp [Sys2Proof.Machine.finish, DStep.inBlock]
  · simp [Sys2Proof.Machine.finish]
  · simp [Sys2Proof.Machine.finish, DStep.inRead, DStep.inBlock]

/-- Going to a line keeps the invariant if the line's own bounds hold. -/
theorem EngineInv.goto {s : State} (h : EngineInv s) (next : DStep)
    (h15 : next.inBlock = true → s.opStart + s.opLength ≤ 128) (h16 : next = .blkLoop → s.idx.toNat ≤ s.opLength)
    (h17 : next.inRead = true → s.idx.toNat < s.opLength ∧ s.curAddr.toNat = s.opStart + s.idx.toNat) :
    EngineInv (Sys2Proof.Machine.goto next s) :=
  h.of_dispatch ⟨rfl, rfl, rfl, rfl, rfl, rfl⟩ h.bufCanonical h.settleIdle h.alternation h.counts h.validAtRest
    h.doneIsValid h.accTopZero h.lengthBound h15 h16 h17

/-- Writing the Read Sample Set keeps the invariant. -/
theorem EngineInv.setSample {s : State} (h : EngineInv s) (k : Pass) (r : Result) :
    EngineInv (Sys2Proof.Machine.setSample k r s) := by
  cases k <;>
    exact h.of_dispatch ⟨rfl, rfl, rfl, rfl, rfl, rfl⟩ h.bufCanonical h.settleIdle h.alternation h.counts
      h.validAtRest h.doneIsValid h.accTopZero h.lengthBound h.blockInRange h.idxBound h.addrInBlock

/-- Starting a settle delay keeps the invariant. -/
theorem EngineInv.startSettle {s : State} (h : EngineInv s) (hd : s.dState = .run) (us : Nat) (next : DStep)
    (h15 : next.inBlock = true → s.opStart + s.opLength ≤ 128) (h16 : next = .blkLoop → s.idx.toNat ≤ s.opLength)
    (h17 : next.inRead = true → s.idx.toNat < s.opLength ∧ s.curAddr.toNat = s.opStart + s.idx.toNat) :
    EngineInv (Sys2Proof.Machine.startSettle us next s) := by
  obtain ⟨f1, f2, f3, f4, f5, f6⟩ := h.running hd
  refine h.of_dispatch ⟨rfl, rfl, rfl, rfl, rfl, rfl⟩ h.bufCanonical (fun _ => rfl) ?_ ?_ ?_ ?_ h.accTopZero
    h.lengthBound h15 h16 h17
  · simp [State.outstanding, State.waiting, Sys2Proof.Machine.startSettle, f1, f2, f3]
  · simp [State.waiting, Sys2Proof.Machine.startSettle, f6]
  · simp [Sys2Proof.Machine.startSettle, f5]
  · simp [Sys2Proof.Machine.startSettle]

end Sys2Proof.Machine
end

