-- ==== Sys2Proof/Laws/PerInstr.lean ====
section
/-! SUPPORT. The per-instruction family `TableRow`: the words of each instruction match its own row
of spec/opcode_table.json. -/

namespace Sys2Proof.Laws.TableRow

open Sys2Proof

/-- A row of the opcode table: its width in bits, `match` and `mask`. -/
structure Row where
  width : Nat
  bits  : Nat
  mask  : Nat
  deriving DecidableEq, Repr

/-- The row of an instruction, as spec/opcode_table.json writes it. -/
def row : Instr → Row
  | .chanTransmitByte _ => ⟨32, 0x01000000, 0xFF000000⟩
  | .chanDiscovery => ⟨32, 0x02000000, 0xFF000000⟩
  | .chanReceiveByte _ => ⟨32, 0x03000000, 0xFF000000⟩
  | .hostDiscovery => ⟨32, 0x10000000, 0xFF000000⟩
  | .hostTransmitByte _ => ⟨32, 0x11000000, 0xFF000000⟩
  | .hostReceiveByte => ⟨32, 0x12000000, 0xFF000000⟩
  | .hostManufacturerId _ => ⟨32, 0x13000000, 0xFF000000⟩
  | .hostReadBlock _ _ _ => ⟨32, 0x14000000, 0xFF000000⟩
  | .hostSetSpeed _ => ⟨32, 0x15000000, 0xFF000000⟩
  | .busEepromW _ => ⟨8, 0xA0, 0xF1⟩
  | .busEepromR _ => ⟨8, 0xA1, 0xF1⟩
  | .busMfgidR _ => ⟨8, 0xC1, 0xF1⟩

/-- The width and the bits of a code. -/
def width : Code → Nat
  | .chan _ => 32
  | .host _ => 32
  | .bus _ => 8

/-- The bits of a code as a number. -/
def number : Code → Nat
  | .chan w => w.toNat
  | .host w => w.toNat
  | .bus b => b.toNat

/-- The words of the instruction match its row. -/
def Statement (i : Instr) : Prop :=
  width (encode i) = (row i).width ∧ number (encode i) &&& (row i).mask = (row i).bits

/-- Where the top byte is `o`, the mask of the top byte leaves `o` there. -/
theorem masked_word (w : Word) (o : Byte) (h : opcodeField w = o) :
    w.toNat &&& 0xFF000000 = o.toNat * 2 ^ 24 := by
  have h1 : o.toNat = w.toNat / 2 ^ 24 := by
    rw [← h]
    simp only [opcodeField, BitVec.extractLsb'_toNat, Nat.shiftRight_eq_div_pow]
    omega
  have h2 : (w &&& 0xFF000000#32).toNat = w.toNat / 2 ^ 24 * 2 ^ 24 := by
    have h3 : w &&& 0xFF000000#32 = (w >>> 24) <<< 24 := by
      ext i hi
      simp only [BitVec.getElem_and, BitVec.getElem_shiftLeft]
      interval_cases i <;> simp
    rw [h3]
    simp only [BitVec.toNat_shiftLeft, BitVec.toNat_ushiftRight, Nat.shiftLeft_eq, Nat.shiftRight_eq_div_pow]
    omega
  rw [h1, ← h2]
  rfl

theorem chanTransmitByte (payload : Byte) : Statement (.chanTransmitByte payload) :=
  ⟨rfl, masked_word _ _ (opcodeField_requestWord opcTx payload)⟩

theorem chanDiscovery : Statement .chanDiscovery := ⟨rfl, masked_word _ _ (opcodeField_requestWord opcDisc 0)⟩

theorem chanReceiveByte (payload : Byte) : Statement (.chanReceiveByte payload) :=
  ⟨rfl, masked_word _ _ (opcodeField_requestWord opcRx payload)⟩

theorem hostDiscovery : Statement .hostDiscovery := ⟨rfl, masked_word _ _ (opcodeField_hostWord hopDiscovery 0 0 0)⟩

theorem hostTransmitByte (byte : Byte) : Statement (.hostTransmitByte byte) :=
  ⟨rfl, masked_word _ _ (opcodeField_hostWord hopTxByte 0 byte 0)⟩

theorem hostReceiveByte : Statement .hostReceiveByte := ⟨rfl, masked_word _ _ (opcodeField_hostWord hopRxByte 0 0 0)⟩

theorem hostManufacturerId (dev : Byte) : Statement (.hostManufacturerId dev) :=
  ⟨rfl, masked_word _ _ (opcodeField_hostWord hopMfgId dev 0 0)⟩

theorem hostReadBlock (dev start length : Byte) : Statement (.hostReadBlock dev start length) :=
  ⟨rfl, masked_word _ _ (opcodeField_hostWord hopReadBlock dev start length)⟩

theorem hostSetSpeed (speed : Byte) : Statement (.hostSetSpeed speed) :=
  ⟨rfl, masked_word _ _ (opcodeField_hostWord hopSetSpeed 0 speed 0)⟩

/-- A bus opcode byte under the mask of its row keeps the opcode and the read/write bit. -/
theorem masked_byte (b : BitVec 4) (dev : Byte) (rw : Bool) :
    (devByte b dev rw).toNat &&& 0xF1 = b.toNat * 16 + rw.toNat := by
  have h : ∀ d : BitVec 3, ∀ b : BitVec 4, ∀ rw : Bool,
      (b ++ d ++ BitVec.ofBool rw).toNat &&& 0xF1 = b.toNat * 16 + rw.toNat := by decide +kernel
  exact h _ _ _

theorem busEepromW (dev : Byte) : Statement (.busEepromW dev) := ⟨rfl, masked_byte busOpcEeprom dev false⟩

theorem busEepromR (dev : Byte) : Statement (.busEepromR dev) := ⟨rfl, masked_byte busOpcEeprom dev true⟩

theorem busMfgidR (dev : Byte) : Statement (.busMfgidR dev) := ⟨rfl, masked_byte busOpcMfgId dev true⟩

end Sys2Proof.Laws.TableRow
end

