-- ==== Sys2Proof/Laws/Trips.lean ====
section
/-! SUPPORT. A channel round trip and a settle delay as the expected states of Safety.lean, and what the next line levels
and the response are after one. -/

namespace Sys2Proof.Machine

open Sys2Proof

theorem chanTx_trip (b : Byte) (s : State) (h : s.quiet = true) : chan opcTx b s = txTrip 8 b s := chanTx_eq b s h

theorem chanDisc_trip (s : State) (h : s.quiet = true) : chan opcDisc 0 s = discTrip s := chanDisc_eq 0 s h

theorem chanRx_trip (sendAck : Bool) (s : State) (h : s.quiet = true) :
    chan opcRx (ackPayload sendAck) s = rxTrip 8 sendAck s := by
  rw [chanRx_eq _ s h]; cases sendAck <;> rfl

theorem delayDispatch_idle (us : Nat) (s : State) : delayDispatch us s = idleFor us s := rfl

/-! ### Nothing outstanding afterwards -/

theorem quiet_txTrip (n : BitVec 4) (b : Byte) (s : State) : (txTrip n b s).quiet = s.quiet := rfl
theorem quiet_rxTrip (n : BitVec 4) (a : Bool) (s : State) : (rxTrip n a s).quiet = s.quiet := rfl
theorem quiet_discTrip (s : State) : (discTrip s).quiet = s.quiet := rfl
theorem quiet_idleFor (us : Nat) (s : State) : (idleFor us s).quiet = s.quiet := rfl

/-! ### The next levels -/

theorem levelAt_txTrip (n : BitVec 4) (b : Byte) (s : State) (k : Nat) :
    levelAt (txTrip n b s) k = levelAt s (1 + k) := levelAt_drop s (txTrip n b s) 1 k rfl rfl

theorem levelAt_discTrip (s : State) (k : Nat) : levelAt (discTrip s) k = levelAt s (1 + k) :=
  levelAt_drop s (discTrip s) 1 k rfl rfl

theorem levelAt_rxTrip (n : BitVec 4) (a : Bool) (s : State) (k : Nat) :
    levelAt (rxTrip n a s) k = levelAt s (8 + k) := levelAt_drop s (rxTrip n a s) 8 k rfl rfl

theorem levelAt_idleFor (us : Nat) (s : State) (k : Nat) : levelAt (idleFor us s) k = levelAt s k := rfl

/-! ### The response -/

theorem rsp_txTrip (n : BitVec 4) (b : Byte) (s : State) : (txTrip n b s).rsp = rspOfLevel (levelAt s 0) := rfl
theorem rsp_discTrip (s : State) : (discTrip s).rsp = rspOfLevel (levelAt s 0) := rfl
theorem rsp_rxTrip (n : BitVec 4) (a : Bool) (s : State) : (rxTrip n a s).rsp = byteMsbFirst (levelAt s) := rfl

/-- A response other than `RSP_ACK` is a 1 on the line (R94). -/
theorem rspOfLevel_ne_ack (b : Bool) : rspOfLevel b ≠ rspAck ↔ b = true := by cases b <;> decide

end Sys2Proof.Machine
end

