-- ==== Sys2Proof/Tests/Slice0.lean ====
section
/-! SUPPORT. Tests: the well-formedness smoke, words written out from 30_encoding.md, vectors and programs of
95_test_vectors.md (named in each comment) run for one step under the illustration `CFG_EX`, and a witness for the
hypotheses of each obligation. -/

namespace Sys2Proof.Tests

open Sys2Proof Sys2Proof.Machine

/-! ### Helpers -/

/-- After reset under `CFG_EX`, with the levels `l` to come. -/
def start (l : List Bool) : State := { State.resetOf exampleConfig with lineIn := l }

/-- `l` written as digits, most significant first. -/
def bits (l : List Nat) : List Bool := l.map (fun d => decide (d = 1))

/-- The state after the one step that runs the word `w` of `n` bits from `s`. -/
def after (n w : Nat) (s : State) : State :=
  match step (s.withFetchWord n w) with
  | .next t => t
  | _ => s

/-- `ONE`, `ZERO`, `RD(b)` and `DISC(b)` of 95_test_vectors.md, under `P_EX`. -/
def one : List Event := [.low 1, .high 19]
def zero : List Event := [.low 10, .high 10]
def rd (b : Bool) : List Event := [.low 1, .high 1, .sample b, .high 18]
def disc (b : Bool) : List Event :=
  [.high 200, .low 500, .high 20, .low 1, .high 2, .sample b, .high 150]

/-! ### Well-formedness: an ill-formed term for each check -/

theorem test_wf_refuses_manufacturerId_dev8 : (Instr.hostManufacturerId 8).wf = false := by decide
theorem test_wf_refuses_readBlock_dev8 : (Instr.hostReadBlock 8 0 0).wf = false := by decide
theorem test_wf_refuses_setSpeed_2 : (Instr.hostSetSpeed 2).wf = false := by decide
theorem test_wf_refuses_eepromW_dev8 : (Instr.busEepromW 8).wf = false := by decide
theorem test_wf_refuses_eepromR_dev8 : (Instr.busEepromR 8).wf = false := by decide
theorem test_wf_refuses_mfgidR_dev8 : (Instr.busMfgidR 8).wf = false := by decide
theorem test_wf_accepts_dev7 : (Instr.hostReadBlock 7 255 255).wf = true := by decide

/-! Configurations the spec refuses: V-BT12, V-BT13, V-DL5. -/

theorem test_config_refuses_VBT12 : (Profile.mk 2 1 2 1 1).wf = false := by decide
theorem test_config_refuses_VBT13 : (Profile.mk 20 1 1 1 1).wf = false := by decide
theorem test_config_refuses_VDL5 : { exampleParams with tSettleA := 34359739 }.wf = false := by decide
theorem test_config_accepts_corner_VBT11 : (Profile.mk 3 1 2 1 1).wf = true := by decide

/-! ### Decoding words written out from the spec's encodings -/

/-- V-EN1, V-EN6. -/
theorem test_decode_TransmitByte :
    decodeTableWord 32 0b00000001000000000000000010100000 = some (.chanTransmitByte 0xA0) ∧
    decodeTableWord 32 0x01ABCDA0 = some (.chanTransmitByte 0xA0) := by decide
/-- V-EN2, V-EN7. -/
theorem test_decode_Discovery :
    decodeTableWord 32 0b00000010000000000000000000000000 = some .chanDiscovery ∧
    decodeTableWord 32 0x0200005A = some .chanDiscovery := by decide
/-- V-EN3, V-EN5. -/
theorem test_decode_ReceiveByte :
    decodeTableWord 32 0b00000011000000000000000000000001 = some (.chanReceiveByte 1) ∧
    decodeTableWord 32 0x030000FF = some (.chanReceiveByte 0xFF) := by decide
/-- V-HW1. -/
theorem test_decode_discovery : decodeTableWord 32 0x10000000 = some .hostDiscovery := by decide
/-- V-HW2. -/
theorem test_decode_transmitByte : decodeTableWord 32 0x1100A000 = some (.hostTransmitByte 0xA0) := by decide
/-- V-HW3. -/
theorem test_decode_receiveByte : decodeTableWord 32 0x12000000 = some .hostReceiveByte := by decide
/-- V-HW5; bits 23:19 are ignored (R102). -/
theorem test_decode_manufacturerId :
    decodeTableWord 32 0x13030000 = some (.hostManufacturerId 3) ∧
    decodeTableWord 32 0x13FB0000 = some (.hostManufacturerId 3) := by decide
/-- V-HW7, V-HW8. -/
theorem test_decode_readBlock :
    decodeTableWord 32 0x14011001 = some (.hostReadBlock 1 0x10 1) ∧
    decodeTableWord 32 0x14000080 = some (.hostReadBlock 0 0 0x80) := by decide
/-- V-HW9, V-HW12. -/
theorem test_decode_setSpeed :
    decodeTableWord 32 0x15000100 = some (.hostSetSpeed 1) ∧
    decodeTableWord 32 0x15FFFEFF = some (.hostSetSpeed 0) := by decide
/-- V-DB1, V-DB4. -/
theorem test_decode_EEPROM_W :
    decodeTableWord 8 0b10100000 = some (.busEepromW 0) ∧ decodeTableWord 8 0b10101010 = some (.busEepromW 5) := by
  decide
/-- V-DB2, V-DB5. -/
theorem test_decode_EEPROM_R :
    decodeTableWord 8 0b10100001 = some (.busEepromR 0) ∧ decodeTableWord 8 0b10101011 = some (.busEepromR 5) := by
  decide
/-- V-DB3, V-DB6. -/
theorem test_decode_MFGID_R :
    decodeTableWord 8 0b11000001 = some (.busMfgidR 0) ∧ decodeTableWord 8 0b11001111 = some (.busMfgidR 7) := by
  decide

/-- V-DB7: only `dev[2:0]` is used. -/
theorem test_devByte_ignores_high_bits : devByte busOpcEeprom 9 false = 0xA2 := by decide

/-- V-EN8, V-EN9, V-EN10: unknown channel opcodes are rejected by name. -/
theorem test_decode_rejects_channel :
    decode (.chan 0x00000000) = .error (.unknownChannelOpcode 0x00) ∧
    decode (.chan 0x7F000012) = .error (.unknownChannelOpcode 0x7F) ∧
    decode (.chan 0x04000000) = .error (.unknownChannelOpcode 0x04) := ⟨rfl, rfl, rfl⟩
/-- V-HW11. -/
theorem test_decode_rejects_host :
    decode (.host 0x0F000000) = .error (.unknownHostOperation 0x0F) ∧
    decode (.host 0x16000000) = .error (.unknownHostOperation 0x16) := ⟨rfl, rfl⟩
/-- R105: 0xC0 is no byte the engine builds. -/
theorem test_decode_rejects_bus : decode (.bus 0xC0) = .error (.notABusOpcodeByte 0xC0) := rfl

/-! ### One step of each instruction -/

/-- V-CH1: `TransmitByte(0xA0)` acknowledged, with the trace of V-TX1. -/
theorem test_TransmitByte_VCH1 :
    (after 32 0x010000A0 (start [false])).rspSlot = some 0x00 ∧
    (after 32 0x010000A0 (start [false])).trace =
      [.irq true] ++ one ++ zero ++ one ++ zero ++ zero ++ zero ++ zero ++ zero ++ rd false ++ [.irq false] := by
  decide +kernel
/-- V-CH2. -/
theorem test_TransmitByte_VCH2 : (after 32 0x010000A0 (start [true])).rspSlot = some 0xFF := by decide +kernel
/-- V-CH3. -/
theorem test_Discovery_VCH3 :
    (after 32 0x02000000 (start [false])).rspSlot = some 0x00 ∧
    (after 32 0x02000000 (start [false])).trace = [.irq true] ++ disc false ++ [.irq false] := by decide +kernel
/-- V-CH5: 0x11 received, NACK sent. -/
theorem test_ReceiveByte_VCH5 :
    (after 32 0x03000000 (start (bits [0,0,0,1,0,0,0,1]))).rspSlot = some 0x11 ∧
    (after 32 0x03000000 (start (bits [0,0,0,1,0,0,0,1]))).trace =
      [.irq true] ++ rd false ++ rd false ++ rd false ++ rd true ++ rd false ++ rd false ++ rd false ++ rd true ++
        one ++ [.irq false] := by decide +kernel
/-- V-RX1, V-RX2: the samples 1,0,1,0,0,1,0,1 are 0xA5, and ACK ends with a zero symbol. -/
theorem test_ReceiveByte_VRX2 :
    (after 32 0x03000001 (start (bits [1,0,1,0,0,1,0,1]))).rspSlot = some 0xA5 ∧
    (after 32 0x03000001 (start (bits [1,0,1,0,0,1,0,1]))).trace.drop 33 = zero ++ [.irq false] := by decide +kernel
/-- V-CH4: an unknown opcode is answered 0xFF without a line action; as the table has no such row, the word stands in
`req_slot`. -/
theorem test_unknown_request_VCH4 :
    (match step { start [] with dState := .waitRsp, reqSlot := some 0x7F000012 } with
      | .next t => (t.rspSlot, t.trace)
      | _ => (none, [])) = (some 0xFF, [.irq true, .irq false]) := by decide +kernel

/-- P6, third word: no device. -/
theorem test_discovery_P6 :
    (after 32 0x10000000 (start [true])).resData = 0x000000FF ∧
    (after 32 0x10000000 (start [true])).resStatus = 0 ∧
    (after 32 0x10000000 (start [true])).trace = [.irq true] ++ disc true ++ [.irq false] := by decide +kernel
/-- P4: a NACK is a result, not an error. -/
theorem test_transmitByte_P4 :
    (after 32 0x1100A000 (start [true])).resData = 0x000000FF ∧
    (after 32 0x1100A000 (start [true])).resStatus = 0 := by decide +kernel
/-- P5, third word: under profile 1. -/
theorem test_transmitByte_P5 :
    (after 32 0x1100A000 { start [false] with profSel := 1 }).trace =
      [.irq true, .low 1, .high 9, .low 6, .high 4, .low 1, .high 9, .low 6, .high 4, .low 6, .high 4, .low 6, .high 4,
        .low 6, .high 4, .low 6, .high 4, .low 1, .high 1, .sample false, .high 8, .irq false] := by decide +kernel
/-- P4, fifth word: 0x3C, then NACK. -/
theorem test_receiveByte_P4 :
    (after 32 0x12000000 (start (bits [0,0,1,1,1,1,0,0]))).resData = 0x0000003C ∧
    (after 32 0x12000000 (start (bits [0,0,1,1,1,1,0,0]))).trace.drop 33 = one ++ [.irq false] := by decide +kernel
/-- P1: an AT21CS01-class id. -/
theorem test_manufacturerId_P1 :
    (after 32 0x13000000 (start (bits ([0,0] ++ [0,0,0,0,0,0,0,0] ++ [1,1,0,1,0,0,1,0] ++ [0,0,0,0,0,0,0,0])))).resData =
      0x0000D200 ∧
    (after 32 0x13000000 (start (bits ([0,0] ++ [0,0,0,0,0,0,0,0] ++ [1,1,0,1,0,0,1,0] ++ [0,0,0,0,0,0,0,0])))).reqCount =
      5 := by decide +kernel
/-- P1b and P1c: nothing answers, or the opcode byte is NACKed. -/
theorem test_manufacturerId_P1b_P1c :
    ((after 32 0x13000000 (start [true])).resData, (after 32 0x13000000 (start [true])).reqCount) = (0, 1) ∧
    ((after 32 0x13000000 (start [false, true])).resData, (after 32 0x13000000 (start [false, true])).reqCount) = (0, 2) := by
  decide +kernel

/-- The sample bits of P2. -/
def levelsP2 : List Bool :=
  bits ([0] ++ [0,0,0, 0,0,0,1,0,0,0,1] ++ [0,0,0, 0,0,0,1,0,0,0,1] ++
    [0,0,0, 0,0,1,0,0,0,1,0] ++ [0,0,0, 0,0,1,0,0,0,1,0] ++
    [0,0,0, 0,0,1,1,0,0,1,1] ++ [0,0,0, 0,0,1,1,0,0,1,1] ++
    [0,0,0, 0,1,0,0,0,1,0,0] ++ [0,0,0, 0,1,0,0,0,1,0,0])

/-- The data of P2. -/
def dataP2 (k : Nat) : Byte := [(0x11 : Byte), 0x22, 0x33, 0x44].getD k 0

/-- P2: the source's end-to-end block read; nominal time 8633. -/
theorem test_readBlock_P2 :
    (after 32 0x14000004 (start levelsP2)).resStatus = 0 ∧ (after 32 0x14000004 (start levelsP2)).resLen = 4 ∧
    (after 32 0x14000004 (start levelsP2)).buf = [(0, 0x11), (1, 0x22), (2, 0x33), (3, 0x44)] ∧
    (after 32 0x14000004 (start levelsP2)).reqCount = 33 ∧
    traceTime (after 32 0x14000004 (start levelsP2)).trace = 8633 := by decide +kernel
/-- P3b: an integrity error at address 1 aborts the block. -/
theorem test_readBlock_P3b :
    let t := after 32 0x14000002 (start (bits ([0] ++ [0,0,0, 0,0,0,1,0,0,0,1] ++ [0,0,0, 0,0,0,1,0,0,0,1] ++
      [0,0,0, 0,0,0,0,0,1,0,1] ++ [0,0,0, 0,0,0,0,0,1,1,0] ++ [0,0,0, 0,0,0,0,0,1,1,1])))
    (t.resStatus, t.resLen, t.idx, t.reqCount) = (0xF9, 0, 1, 21) ∧ t.buf = [(0, 0x11)] := by decide +kernel
/-- V-HW12: only bit 8 of the word counts. -/
theorem test_setSpeed_VHW12 :
    (after 32 0x15FFFF00 (start [])).profSel = 1 ∧ (after 32 0x15FFFEFF { start [] with profSel := 1 }).profSel = 0 := by
  decide +kernel
/-- V-ER6: `E_UNKNOWN_OP`, no request. -/
theorem test_unknown_operation_VER6 :
    (after 32 0x16000000 (start [])).resStatus = 0xF8 ∧ (after 32 0x16000000 (start [])).reqCount = 0 ∧
    (after 32 0x16000000 (start [])).trace = [] := by decide +kernel
/-- V-ER5: `E_RANGE`, no request. -/
theorem test_range_VER5 :
    (after 32 0x14007F02 (start [])).resStatus = 0xFF ∧ (after 32 0x14007F02 (start [])).trace = [] := by
  decide +kernel
/-- V-ER3: three different errors are an integrity error. -/
theorem test_vote_VER3 :
    (after 32 0x14000501 (start (bits [0, 1, 0,1, 0,0,1]))).resStatus = 0xF9 ∧
    (after 32 0x14000501 (start (bits [0, 1, 0,1, 0,0,1]))).reqCount = 7 := by decide +kernel
/-- V-DB4, V-LA7: `EEPROM_W` for device 5 goes out as 0x010000AA. -/
theorem test_EEPROM_W_VLA7 :
    (after 8 0xAA (start [false])).curReq = 0x010000AA ∧ (after 8 0xAA (start [false])).rsp = 0x00 := by decide +kernel
/-- V-RB1: `EEPROM_R` for device 0, here NACKed. -/
theorem test_EEPROM_R :
    (after 8 0xA1 (start [true])).curReq = 0x010000A1 ∧ (after 8 0xA1 (start [true])).rsp = 0xFF := by decide +kernel
/-- V-ID6: `MFGID_R` for device 3 goes out as 0x010000C7. -/
theorem test_MFGID_R_VID6 :
    (after 8 0xC7 (start [false])).curReq = 0x010000C7 ∧ (after 8 0xC7 (start [false])).rsp = 0x00 := by decide +kernel

/-- V-LN1, V-LN4. -/
theorem test_line_VLN1_VLN4 :
    (driveLow (start [])).sioOe = true ∧ lineLevel (driveLow (start [])) true = false ∧
    sampledBit (driveLow (start [true])) = true ∧ (sample (driveLow (start [true]))).pinDir = false := by decide
/-- V-DL2: `Delay(0)` takes no cycle and emits an event of duration 0. -/
theorem test_delay_VDL2 :
    (ticks 2 { start [] with exState := .run, exStep := [.delay 0] }).trace = [.high 0] := by decide +kernel
/-- V-DL1: `Delay(6)` loads 750. -/
theorem test_delay_VDL1 :
    (tick { start [] with exState := .run, exStep := [.delay 6] }).dlyCnt = 750 := by decide +kernel

/-! ### Witnesses: concrete states and operands that meet the hypotheses of each obligation, clause by clause -/

/-- The executor in `EX_MASK` with a request popped, `rsp_slot` empty. -/
def serving (w : Word) (l : List Bool) : State :=
  { start l with curReq := w, exState := .mask, dState := .waitRsp, reqCount := 1 }

/-- The dispatch sequencer in `D_RUN` on line `d`. -/
def atLine (d : DStep) (l : List Bool) : State := { start l with dState := .run, dStep := d }

theorem witness_DecodeOfEncodeIsTheInstruction : (Instr.hostReadBlock 7 0xFF 0xFF).wf = true := by decide
theorem witness_DecodedInstructionIsWellFormed : decode (.bus 0xCF) = .ok (.busMfgidR 7) := rfl
theorem witness_BusByteDecodesExactly : decodeBus 0xAF = .ok (.busEepromR 7) ∧ (Instr.busEepromR 7).wf = true ∧
    encode (.busEepromR 7) = .bus 0xAF := ⟨rfl, by decide, rfl⟩
/-- Both sides of each bound. -/
theorem witness_ReservedWordsDecodeToNothing :
    decodeChan 0x01000000 = .ok (.chanTransmitByte 0) ∧ decodeChan 0x03000000 = .ok (.chanReceiveByte 0) ∧
    decodeChan 0x00000000 = .error (.unknownChannelOpcode 0) ∧ decodeHost 0x10000000 = .ok .hostDiscovery ∧
    decodeHost 0x15000000 = .ok (.hostSetSpeed 0) ∧ decodeHost 0x0F000000 = .error (.unknownHostOperation 0x0F) :=
  ⟨rfl, rfl, rfl, rfl, rfl, rfl⟩
theorem witness_IgnoredBitsDoNotMatter :
    (0x01ABCDA0 : Word).extractLsb' 24 8 = (0x010000A0 : Word).extractLsb' 24 8 ∧
    (0x01ABCDA0 : Word).extractLsb' 0 8 = (0x010000A0 : Word).extractLsb' 0 8 ∧
    (0x13FB0000 : Word).extractLsb' 24 8 = (0x13030000 : Word).extractLsb' 24 8 ∧
    (0x13FB0000 : Word).extractLsb' 0 19 = (0x13030000 : Word).extractLsb' 0 19 ∧
    (0x15FFFEFF : Word).extractLsb' 24 8 = 0x15 ∧
    (0x15FFFEFF : Word).getLsbD 8 = (0x15000000 : Word).getLsbD 8 := by decide
theorem witness_DriveLowForcesTheLineLow : (start []).pinLatch = false ∧ (driveLow (start [])).pinDir = true := by
  decide
theorem witness_ReleaseHighLeavesTheLineToOthers : (start []).pinDir = false := by decide
/-- Both agents; for the executor also the delay of 0, for the sequencer both settle delays. -/
theorem witness_DelayCountsExactly :
    (let s : State := { start [] with exState := .run, exStep := [.delay 0] }
     s.exState = .run ∧ s.exStep = .delay 0 :: [] ∧ resetAwaited s = false ∧
       0 * s.cfg.params.cyclesPerUs < 2 ^ 32) ∧
    (let s := atLine (.addr .first) []
     s.dState = .run ∧ s.quiet = true ∧ resetAwaited s = false ∧ s.dStep = .addr .first ∧ s.rsp = rspAck) ∧
    (let s := atLine (.received .third) []
     s.dState = .run ∧ s.quiet = true ∧ resetAwaited s = false ∧ s.dStep = .received .third) := by decide
theorem witness_EverySymbolLastsOneBitPeriod : readAckNack ∈ [transmitOne, transmitZero, readBit, readAckNack] := by
  simp
/-- A device that sends the bits of 0xA5. -/
theorem witness_ReceiveByteShape :
    ∀ j < 8, levelAt (start (bits [1,0,1,0,0,1,0,1])) j = (0xA5 : Byte).getLsbD (7 - j) := by decide
/-- An unknown request word, a `loadAddress` and a `readByte` that succeed, at the last address. -/
theorem witness_NominalDurations :
    (let s : State := { start [] with dState := .waitRsp, reqSlot := some 0x04000000 }
     (0x04000000 : Word).extractLsb' 24 8 ∉ [(0x01 : Byte), 0x02, 0x03] ∧ s.exState = .wait ∧
       s.reqSlot = some 0x04000000 ∧ resetAwaited s = false) ∧
    (start [false, false]).quiet = true ∧ (loadAddress 0 127 (start [false, false])).1 = none ∧
    (readByte 0 127 (start (bits [0,0,0, 0,0,0,1,0,0,0,1]))).1 = .val 0x11 := by decide +kernel
theorem witness_ChanDiscoveryAnswersPresence :
    (0x0200005A : Word).extractLsb' 24 8 = 0x02 ∧ (serving 0x0200005A [true]).rspSlot = none := by decide
theorem witness_ChanTransmitByteAnswersAcknowledge :
    (0x01ABCDA0 : Word).extractLsb' 24 8 = 0x01 ∧ (serving 0x01ABCDA0 [true]).rspSlot = none := by decide
theorem witness_ChanReceiveByteAnswersTheByte :
    (0x030000FF : Word).extractLsb' 24 8 = 0x03 ∧ (serving 0x030000FF [true]).rspSlot = none := by decide
/-- The bounds 0x00 and 0x04. -/
theorem witness_UnknownRequestAnswersNack :
    (let s : State := { start [] with dState := .waitRsp, reqSlot := some 0x04000000 }
     (0x04000000 : Word).extractLsb' 24 8 ∉ [(0x01 : Byte), 0x02, 0x03] ∧ s.exState = .wait ∧
       s.reqSlot = some 0x04000000 ∧ s.rspSlot = none ∧ resetAwaited s = false) ∧
    (0x00000000 : Word).extractLsb' 24 8 ∉ [(0x01 : Byte), 0x02, 0x03] := by decide
theorem witness_PushAndPopWait :
    ({ serving 0x02000000 [] with rspSlot := some 0x5A } : State).rspSlot = some 0x5A ∧
    (let s : State := { start [] with dState := .waitRsp }
     s.dState = .waitRsp ∧ s.quiet = true ∧ resetAwaited s = false) := by decide
theorem witness_ExecutorStagesInOrder : resetNow (serving 0x02000000 []) = false := by decide
theorem witness_ChanCompletesAndAlternates : (start []).quiet = true ∧ (start []).pinDir = false := by decide
theorem witness_SlotsAreImmutableWhileFull :
    ({ start [] with reqSlot := some 0x02000000 } : State).reqSlot = some 0x02000000 ∧
    ({ start [] with rspSlot := some 0xFF } : State).rspSlot = some 0xFF := by decide

/-- A quiet engine; the addresses 127 and 128 on the two sides of the bound (V-LA2, V-LA3), each outcome reached. -/
theorem witness_LoadAddressOutcomes :
    (start [false, false]).quiet = true ∧
    (loadAddress 0 127 (start [false, false])).1 = none ∧ (loadAddress 0 128 (start [])).1 = some .badAddr ∧
    (loadAddress 0 5 (start [true])).1 = some .wselNack ∧
    (loadAddress 0 5 (start [false, true])).1 = some .addrNack := by decide +kernel
/-- V-RB1 and a NACK of the read-intent byte. -/
theorem witness_ReadByteOutcomes :
    (start (bits [0,0,0, 0,0,0,1,0,0,0,1])).quiet = true ∧
    (readByte 0 0 (start (bits [0,0,0, 0,0,0,1,0,0,0,1]))).1 = .val 0x11 ∧
    (readByte 0 127 (start (bits [0,0,1]))).1 = .err .rselNack ∧
    (readByte 0 128 (start [])).1 = .err .badAddr := by decide +kernel
/-- The four outcomes of S4, on a sequencer in `D_RUN`: 5 5; 6 5 6; 5 6 6; 5 6 7. -/
theorem witness_VerifiedReadVotes :
    let five := [0,0,0, 0,0,0,0,0,1,0,1]
    let six := [0,0,0, 0,0,0,0,0,1,1,0]
    let seven := [0,0,0, 0,0,0,0,0,1,1,1]
    let vote := fun l => (verifiedRead 0 0 (atLine (.loadAddr .first) (bits l))).1
    (atLine (.loadAddr .first) []).quiet = true ∧ (atLine (.loadAddr .first) []).dState = .run ∧
    vote (five ++ five) = .val 5 ∧ vote (six ++ five ++ six) = .val 6 ∧ vote (five ++ six ++ six) = .val 6 ∧
    vote (five ++ six ++ seven) = .err .integrity := by decide +kernel
theorem witness_BusOpcodeBytesComplete : (atLine .ret [false]).quiet = true := by decide
/-- Each of the three cases. -/
theorem witness_ManufacturerIdOutcomes :
    (0x13030000 : Word).extractLsb' 24 8 = 0x13 ∧ (start [true]).quiet = true ∧ levelAt (start [true]) 0 = true ∧
    levelAt (start [false, true]) 0 = false ∧ levelAt (start [false, true]) 1 = true ∧
    levelAt (start [false, false]) 1 = false := by decide
/-- V-ER5 (127 + 2) and 200 + 100. -/
theorem witness_BlockOutOfRangeIsRejected :
    (start []).quiet = true ∧ 128 < (127 : Byte).toNat + (2 : Byte).toNat ∧
    128 < (200 : Byte).toNat + (100 : Byte).toNat := by decide
/-- 127 + 1, 0 + 128 and 128 + 0, all in range (R181). -/
theorem witness_BlockWithoutDeviceStops :
    (start [true]).quiet = true ∧ (127 : Byte).toNat + (1 : Byte).toNat ≤ 128 ∧
    (0 : Byte).toNat + (128 : Byte).toNat ≤ 128 ∧ (128 : Byte).toNat + (0 : Byte).toNat ≤ 128 ∧
    levelAt (start [true]) 0 = true := by decide

theorem readsAs_iff (s : State) (base : Nat) (d : Byte) : ReadsAs s base d ↔
    (∀ j < 3, levelAt s (base + j) = false) ∧ ∀ j < 8, levelAt s (base + 3 + j) = d.getLsbD (7 - j) := Iff.rfl

/-- The state in which address `k` of a block at device 1, start 0x10 is begun, where the bytes read are `d`. -/
def begun (d : Nat → Byte) (s : State) : Nat → State
  | 0 => { discTrip s with idx := 0 }
  | k + 1 =>
    let v := (verifiedRead 1 (BitVec.ofNat 8 (16 + k)) { begun d s k with curAddr := BitVec.ofNat 8 (16 + k) }).2
    { v with buf := bufWrite v.buf k (d k), idx := BitVec.ofNat 8 (k + 1) }

theorem begun_fst (d : Nat → Byte) (s : State) (r : Result) (k : Nat)
    (h : (verifiedRead 1 (BitVec.ofNat 8 (16 + k)) { begun d s k with curAddr := BitVec.ofNat 8 (16 + k) }).1 = r) :
    ∃ v, verifiedRead 1 (BitVec.ofNat 8 (16 + k)) { begun d s k with curAddr := BitVec.ofNat 8 (16 + k) } = (r, v) ∧
      begun d s (k + 1) = { v with buf := bufWrite v.buf k (d k), idx := BitVec.ofNat 8 (k + 1) } :=
  ⟨_, Prod.ext h rfl, rfl⟩

/-- P3a: the one address reads 6, 5, 6. -/
def levelsP3a : List Bool :=
  bits ([0] ++ [0,0,0, 0,0,0,0,0,1,1,0] ++ [0,0,0, 0,0,0,0,0,1,0,1] ++ [0,0,0, 0,0,0,0,0,1,1,0])

/-- P2: a consistent device; P3a: an address that needs its third sample. -/
theorem witness_BlockOverConsistentDeviceSucceeds :
    ((start levelsP2).quiet = true ∧ bufWf (start levelsP2).buf = true ∧
      (0 : Byte).toNat + (4 : Byte).toNat ≤ 128 ∧ levelAt (start levelsP2) 0 = false ∧
      ∀ k < (4 : Byte).toNat, ReadsAs (start levelsP2) (1 + 22 * k) (dataP2 k) ∧
        ReadsAs (start levelsP2) (12 + 22 * k) (dataP2 k)) ∧
    ((start levelsP3a).quiet = true ∧ bufWf (start levelsP3a).buf = true ∧
      (0x10 : Byte).toNat + (1 : Byte).toNat ≤ 128 ∧ levelAt (start levelsP3a) 0 = false ∧
      begun (fun _ => 6) (start levelsP3a) 0 = { discTrip (start levelsP3a) with idx := 0 } ∧
      ∀ k < (1 : Byte).toNat, ∃ v,
        verifiedRead 1 (BitVec.ofNat 8 ((0x10 : Byte).toNat + k))
          { begun (fun _ => 6) (start levelsP3a) k with curAddr := BitVec.ofNat 8 ((0x10 : Byte).toNat + k) } =
            (.val 6, v) ∧
        begun (fun _ => 6) (start levelsP3a) (k + 1) =
          { v with buf := bufWrite v.buf k 6, idx := BitVec.ofNat 8 (k + 1) }) := by
  refine ⟨?_, by decide, by decide, by decide, by decide, rfl, fun k hk => ?_⟩
  · simp only [readsAs_iff]
    decide +kernel
  · obtain rfl : k = 0 := by simp at hk; omega
    exact begun_fst _ _ _ 0 (by decide +kernel)
/-- P3a: the vote stores 6. -/
theorem test_readBlock_P3a :
    (let t := after 32 0x14011001 (start levelsP3a)
     (t.resStatus, t.resLen, bufRead t.buf 0, t.reqCount, t.rspCount) = (0x00, 1, 0x06, 13, 13) ∧
       traceTime t.trace = 3783) := by decide +kernel
/-- P3b: address 0 reads 0x11 twice, address 1 reads 5, 6, 7. -/
def levelsP3b : List Bool := bits ([0] ++ [0,0,0, 0,0,0,1,0,0,0,1] ++ [0,0,0, 0,0,0,1,0,0,0,1] ++
  [0,0,0, 0,0,0,0,0,1,0,1] ++ [0,0,0, 0,0,0,0,0,1,1,0] ++ [0,0,0, 0,0,0,0,0,1,1,1])

/-- An integrity error after a stored byte (P3b's levels), and an address NACK in both samples at the first address. -/
theorem witness_BlockAbortsAtTheFirstFailure :
    let u := begun (fun _ => 0x11) (start levelsP3b)
    (start levelsP3b).quiet = true ∧ (0x10 : Byte).toNat + (4 : Byte).toNat ≤ 128 ∧ 1 < (4 : Byte).toNat ∧
    levelAt (start levelsP3b) 0 = false ∧ u 0 = { discTrip (start levelsP3b) with idx := 0 } ∧
    (∀ k < 1, ∃ v,
      verifiedRead 1 (BitVec.ofNat 8 (16 + k)) { u k with curAddr := BitVec.ofNat 8 (16 + k) } = (.val 0x11, v) ∧
      u (k + 1) = { v with buf := bufWrite v.buf k 0x11, idx := BitVec.ofNat 8 (k + 1) }) ∧
    (∃ t, verifiedRead 1 (BitVec.ofNat 8 (16 + 1)) { u 1 with curAddr := BitVec.ofNat 8 (16 + 1) } =
      (.err .integrity, t)) ∧
    ∃ t, verifiedRead 1 (BitVec.ofNat 8 (16 + 0))
      { begun (fun _ => 0) (start (bits [0, 0,1, 0,1])) 0 with curAddr := BitVec.ofNat 8 (16 + 0) } =
        (.err .addrNack, t) := by
  refine ⟨by decide, by decide, by decide, by decide, rfl, fun k hk => ?_, ?_, ?_⟩
  · obtain rfl : k = 0 := by omega
    exact begun_fst _ _ _ 0 (by decide +kernel)
  · exact (begun_fst _ _ _ 1 (by decide +kernel)).imp fun _ h => h.1
  · exact (begun_fst _ _ _ 0 (by decide +kernel)).imp fun _ h => h.1
theorem witness_BlockCompletesWhateverTheLineDoes :
    (0x14000080 : Word).extractLsb' 24 8 = 0x14 ∧ (start []).quiet = true ∧ bufWf (start []).buf = true := by decide
theorem witness_HostDiscoveryCompletes :
    (0x10000000 : Word).extractLsb' 24 8 = 0x10 ∧ (start [true]).quiet = true := by decide
theorem witness_HostTransmitByteCompletes :
    (0x1100A000 : Word).extractLsb' 24 8 = 0x11 ∧ (start [true]).quiet = true := by decide
theorem witness_HostReceiveByteCompletes :
    (0x12000000 : Word).extractLsb' 24 8 = 0x12 ∧ (start [true]).quiet = true := by decide
theorem witness_HostSetSpeedSelectsTheProfile :
    (0x15FFFF00 : Word).extractLsb' 24 8 = 0x15 ∧ (start []).quiet = true := by decide
/-- The bounds 0x0F and 0x16. -/
theorem witness_UnknownHostOperationIsAnError :
    (let s : State := { start [] with hostIn := [.op 0x16000000] }
     0x15 < ((0x16000000 : Word).extractLsb' 24 8).toNat ∧ ((0x0F000000 : Word).extractLsb' 24 8).toNat < 0x10 ∧
       s.hostIn = .op 0x16000000 :: [] ∧ resetNext [] = false ∧ s.dState = .idle ∧ s.quiet = true) := by decide
theorem witness_OperationOnABusyChannelIsRefused : (serving 0x02000000 []).quiet = false := by decide

/-- The engine after reset is quiescent. -/
theorem witness_HostOperationsEndQuiescent :
    Quiescent (start []) ∧ Instr.hostDiscovery ∈ [Instr.hostDiscovery, .hostTransmitByte 0] :=
  ⟨⟨by decide, by decide, by decide, by decide, by decide⟩, by decide⟩
theorem witness_OneHostOperationAtATime :
    (let s : State := { start [] with hostIn := [.op 0x10000000], dState := .done, resValid := true }
     s.hostIn = .op 0x10000000 :: [] ∧ s.dState ≠ .idle ∧ step s = .next s) ∧
    (let s : State := { start [] with hostIn := [.take], dState := .done, resValid := true }
     s.hostIn = .take :: [] ∧ s.dState = .done ∧ s.quiet = true) :=
  ⟨⟨rfl, by decide, rfl⟩, by decide⟩

/-- A request word, a host word and a bus opcode byte in their places. -/
theorem witness_StepRunsTheDecodedInstruction :
    (let s : State := { start [] with dState := .waitRsp, reqSlot := some 0x010000A0 }
     resetAwaited s = false ∧ s.exState = .wait ∧ s.reqSlot = some 0x010000A0 ∧
       decode (.chan 0x010000A0) = .ok (.chanTransmitByte 0xA0)) ∧
    (let s : State := { start [] with hostIn := [.op 0x14000004] }
     s.hostIn = .op 0x14000004 :: [] ∧ resetNext [] = false ∧ s.dState = .idle ∧ s.quiet = true ∧
       decode (.host 0x14000004) = .ok (.hostReadBlock 0 0 4)) ∧
    (let s := atLine (.select 0xAB) []
     resetAwaited s = false ∧ s.dState = .run ∧ s.dStep = .select 0xAB ∧ s.quiet = true ∧
       decode (.bus 0xAB) = .ok (.busEepromR 5)) :=
  ⟨⟨rfl, rfl, rfl, rfl⟩, ⟨rfl, rfl, rfl, rfl, rfl⟩, ⟨rfl, rfl, rfl, rfl, rfl⟩⟩

/-- A step from reset with a host word presented, the engine waiting. -/
theorem witness_StepIsARunOfTheClockedMachine :
    step { start [] with hostIn := [.op 0x15000100] } =
      .next { start [] with opWord := 0x15000100, resValid := true, dState := .done, profSel := 1 } := rfl
theorem witness_ResetAbandonsEverything :
    ({ serving 0x02000000 [] with hostIn := [.rst 0] } : State).hostIn = .rst 0 :: [] := rfl

/-- An engine after reset with a host word presented; the invariant does not look at the inputs. -/
def presented (w : Word) : State := { State.resetOf exampleConfig with hostIn := [.op w] }

theorem inv_presented (w : Word) : EngineInv (presented w) := by
  constructor <;> simp [presented, State.resetOf, bufWf, bufWfFrom, State.outstanding, State.waiting, DStep.inBlock,
    DStep.inRead, opcodeField]

/-- What `setSpeed speed=1` leaves of `presented`. -/
def selected : State :=
  { State.resetOf exampleConfig with opWord := 0x15000100, resValid := true, dState := .done, profSel := 1 }

theorem witness_EveryStepKeepsTheInvariant : EngineInv (presented 0x15000100) ∧ step (presented 0x15000100) = .next selected :=
  ⟨inv_presented _, rfl⟩
theorem witness_EveryStepKeepsTheMaskingDiscipline :
    EngineInv (presented 0x15000100) ∧ MaskedTrace (presented 0x15000100) ∧ step (presented 0x15000100) = .next selected :=
  ⟨inv_presented _, rfl, rfl⟩
theorem witness_ConfigurationNeverChanges : step (presented 0x15000100) = .next selected := rfl
/-- By a `setSpeed`, and by a reset. -/
theorem witness_OnlySetSpeedChangesTheProfile :
    (EngineInv (presented 0x15000100) ∧ step (presented 0x15000100) = .next selected ∧
      selected.profSel ≠ (presented 0x15000100).profSel) ∧
    ({ selected with hostIn := [.rst 0] } : State).profSel ≠ (resetEngine { selected with hostIn := [.rst 0] }).profSel :=
  ⟨⟨inv_presented _, rfl, by decide⟩, by decide⟩
theorem witness_IdleEngineWaits : (start []).hostIn = [] ∧ (start []).dState = .idle ∧ (start []).quiet = true := by
  decide

/-- Two equal reads, two different reads with a third, an id read, a rejected range, and the bounds 0x0F and 0x16. -/
theorem witness_NominalDurationsOfProcedures :
    (let five := [0,0,0, 0,0,0,0,0,1,0,1]
     let six := [0,0,0, 0,0,0,0,0,1,1,0]
     let s := atLine (.loadAddr .first) (bits (five ++ five))
     let r := atLine (.loadAddr .first) (bits (six ++ five ++ six))
     s.quiet = true ∧ s.dState = .run ∧ (readByte 0 127 s).1 = .val 5 ∧
       (readByte 0 127 (takeSample .first 0 127 s)).1 = .val 5 ∧
       (readByte 0 127 r).1 = .val 6 ∧ (readByte 0 127 (takeSample .first 0 127 r)).1 = .val 5 ∧
       (readByte 0 127 (takeSample .second 0 127 (takeSample .first 0 127 r))).1 = .val 6) ∧
    levelAt (start [false, false]) 0 = false ∧ levelAt (start [false, false]) 1 = false ∧
    (start [false, false]).quiet = true ∧ 128 < (127 : Byte).toNat + (2 : Byte).toNat ∧
    ((0x0F000000 : Word).extractLsb' 24 8).toNat < 0x10 ∧ 0x15 < ((0x16000000 : Word).extractLsb' 24 8).toNat ∧
    (let s : State := { start [] with hostIn := [.op 0x16000000] }
     s.hostIn = .op 0x16000000 :: [] ∧ resetNext [] = false ∧ s.dState = .idle ∧ s.quiet = true) := by
  decide +kernel

/-- Address 0 reads 0x11 twice, then the device stops answering. -/
def levelsAbort : List Bool := bits ([0] ++ [0,0,0, 0,0,0,1,0,0,0,1] ++ [0,0,0, 0,0,0,1,0,0,0,1] ++ [1, 1])
theorem witness_BlockStopsWhereTheSelectIsNackedTwice :
    (start levelsAbort).quiet = true ∧ bufWf (start levelsAbort).buf = true ∧
    (0 : Byte).toNat + (4 : Byte).toNat ≤ 128 ∧ 1 < (4 : Byte).toNat ∧ levelAt (start levelsAbort) 0 = false ∧
    (∀ k < 1, ReadsAs (start levelsAbort) (1 + 22 * k) (dataP2 k) ∧
      ReadsAs (start levelsAbort) (12 + 22 * k) (dataP2 k)) ∧
    levelAt (start levelsAbort) (1 + 22 * 1) = true ∧ levelAt (start levelsAbort) (2 + 22 * 1) = true := by
  simp only [readsAs_iff]
  decide +kernel

/-! ### Reset in the middle of an operation -/

/-- Every duration as short as R31 and R7 allow, one cycle a microsecond. -/
def fastConfig : Config :=
  ⟨{ exampleParams with
      cyclesPerUs := 1, tDscStart := 1, tDscReset := 1, tDscRec := 1, tDscReq := 1, tDscSmp := 1, tDscEnd := 1,
      tSettleA := 1, tSettleB := 1, profile0 := ⟨3, 1, 2, 1, 1⟩, profile1 := ⟨3, 1, 2, 1, 1⟩ }, by decide⟩

/-- After reset, the word `w` presented, then a reset `n` actions after it is accepted, the device answering 0. -/
def thenReset (w : Word) (n : Nat) : State :=
  { State.resetOf fastConfig with hostIn := [.op w, .rst n, .take], lineIn := List.replicate 40 false }

/-- The state `k` steps on. -/
def atStep (k : Nat) (s : State) : State :=
  match core.run k s with
  | .next t => t
  | _ => s

/-- R280, R281: a reset that falls in the first low pulse of Discovery releases the pin and leaves no result. -/
theorem test_reset_cuts_low_pulse :
    (let t := atStep 9 (thenReset 0x10000000 8)
     (t.exState, t.dState, t.pinDir, t.irqDis, t.hostIn) = (.run, .waitRsp, true, true, [.rst 0, .take])) ∧
    (let t := atStep 10 (thenReset 0x10000000 8)
     (t.exState, t.dState, t.pinDir, t.irqDis, t.hostIn) = (.wait, .idle, false, false, [.take]) ∧
       t.resValid = false ∧ t.reqSlot = none ∧ t.trace = [] ∧ t.reqCount = 0) := by decide +kernel
/-- R280: a reset that falls in a settle delay of a block, and one that falls while a result waits. -/
theorem test_reset_in_settle_and_done :
    (let s : State := { atLine (.addr .first) [] with hostIn := [.rst 1] }
     (atStep 1 s).dState = .delay ∧ (atStep 1 s).dlyD ≠ 0 ∧ (atStep 2 s).dState = .idle ∧ (atStep 2 s).dlyD = 0) ∧
    (let t := atStep 3 (thenReset 0x15000100 2)
     (t.dState, t.resValid, t.profSel, t.hostIn) = (.done, true, 1, [.rst 0, .take])) ∧
    (let t := atStep 4 (thenReset 0x15000100 2)
     (t.dState, t.resValid, t.profSel) = (.idle, false, fastConfig.params.defaultSpeed)) := by decide +kernel

/-- Resets 0 and 2 actions away, in an operation; one behind a word. -/
theorem witness_AResetLandsOnItsEdge :
    ({ serving 0x02000000 [] with hostIn := [.rst 0] } : State).hostIn = .rst 0 :: [] ∧
    ({ serving 0x02000000 [] with hostIn := [.rst 2, .take] } : State).hostIn = .rst 2 :: [.take] ∧
    (thenReset 0x10000000 0).hostIn = .op 0x10000000 :: .rst 0 :: [.take] ∧ (thenReset 0x10000000 0).dState = .idle ∧
    (thenReset 0x10000000 0).quiet = true := ⟨rfl, rfl, rfl, rfl, rfl⟩

end Sys2Proof.Tests
end

/-! ## What one action of a sequencer writes

The frames of the two contexts, said once: the executor leaves the dispatch side and the inputs alone, a line of the
dispatch sequencer leaves the executor, the trace and the inputs alone. -/

namespace Sys2Proof.Machine

open Sys2Proof

/-! ### The executor -/

/-- What no action of the executor writes agrees in `s` and `t`. -/
structure DispatchSide (s t : State) : Prop extends SameDispatch s t where
  cfg     : t.cfg = s.cfg
  hostIn  : t.hostIn = s.hostIn
  profSel : t.profSel = s.profSel

/-- A line writes neither slot, stage nor mask, and nothing of the dispatch side. -/
structure ActFrame (s t : State) : Prop extends DispatchSide s t where
  exState : t.exState = s.exState
  irqDis  : t.irqDis = s.irqDis
  reqSlot : t.reqSlot = s.reqSlot
  rspSlot : t.rspSlot = s.rspSlot

theorem doAct_frame (a : Act) (s : State) : ActFrame s (doAct a s) := by
  cases a with
  | counting us =>
    show ActFrame s (if _ then _ else _)
    split <;> exact ⟨⟨by constructor <;> rfl, rfl, rfl, rfl⟩, rfl, rfl, rfl, rfl⟩
  | _ => exact ⟨⟨by constructor <;> rfl, rfl, rfl, rfl⟩, rfl, rfl, rfl, rfl⟩

theorem popRequest_dispatchSide (s : State) : DispatchSide s (popRequest s) := by
  unfold popRequest
  split <;> exact ⟨by constructor <;> rfl, rfl, rfl, rfl⟩

theorem pushResponse_dispatchSide (s : State) : DispatchSide s (pushResponse s) := by
  unfold pushResponse
  split <;> exact ⟨by constructor <;> rfl, rfl, rfl, rfl⟩

theorem runLine_dispatchSide (s : State) : DispatchSide s (runLine s) := by
  unfold runLine
  split
  · exact ⟨by constructor <;> rfl, rfl, rfl, rfl⟩
  · next a rest _ =>
    obtain ⟨⟨⟨h1, h2, h3, h4, h5, h6, h7, h8, h9, h10, h11, h12, h13⟩, h14, h15, h16⟩, -⟩ :=
      doAct_frame a { s with exStep := rest }
    exact ⟨⟨h1, h2, h3, h4, h5, h6, h7, h8, h9, h10, h11, h12, h13⟩, h14, h15, h16⟩

theorem tickExecutor_dispatchSide (s : State) : DispatchSide s (tickExecutor s) := by
  unfold tickExecutor
  split
  · exact popRequest_dispatchSide s
  · exact ⟨by constructor <;> rfl, rfl, rfl, rfl⟩
  · exact runLine_dispatchSide s
  · exact ⟨by constructor <;> rfl, rfl, rfl, rfl⟩
  · exact pushResponse_dispatchSide s

/-! ### The dispatch sequencer -/

/-- What a line of the dispatch sequencer leaves of `s`: the executor, the trace, the inputs, the response slot and a
full request slot; `prof_sel` but for the first line of a `setSpeed`. -/
structure LineFrame (s t : State) : Prop extends SameExecutor s t where
  cfg     : t.cfg = s.cfg
  hostIn  : t.hostIn = s.hostIn
  trace   : t.trace = s.trace
  rspSlot : t.rspSlot = s.rspSlot
  reqSlot : ∀ w, s.reqSlot = some w → t.reqSlot = some w
  profSel : t.profSel = s.profSel ∨ s.dStep = .entry ∧
    ∃ speed, decodeHost s.opWord = .ok (.hostSetSpeed speed) ∧ t.profSel = speed.extractLsb' 0 1

/-- The results, the procedures' registers and the position are the dispatch sequencer's own. -/
theorem finish_lineFrame (status : Byte) (data : Word) (len : Byte) (s : State) :
    LineFrame s (finish status data len s) :=
  ⟨by constructor <;> rfl, rfl, rfl, rfl, rfl, fun _ h => h, .inl rfl⟩

theorem startSettle_lineFrame (us : Nat) (d : DStep) (s : State) : LineFrame s (startSettle us d s) :=
  ⟨by constructor <;> rfl, rfl, rfl, rfl, rfl, fun _ h => h, .inl rfl⟩

theorem request_lineFrame (opc payload : Byte) (d : DStep) (s : State) :
    LineFrame s (request opc payload d s) := by
  unfold request
  split
  · exact ⟨by constructor <;> rfl, rfl, rfl, rfl, rfl, fun _ h => h, .inl rfl⟩
  · next h => exact ⟨by constructor <;> rfl, rfl, rfl, rfl, rfl, by simp [h], .inl rfl⟩

/-- The end of a verified read, one sample just written (R177). -/
theorem endVerified_lineFrame (k : Pass) (r r' : Result) (s : State) :
    LineFrame s (endVerified r (setSample k r' s)) := by
  cases k <;> cases r <;> exact ⟨by constructor <;> rfl, rfl, rfl, rfl, rfl, fun _ h => h, .inl rfl⟩

theorem endRead_lineFrame (k : Pass) (r : Result) (s : State) : LineFrame s (endRead k r s) := by
  cases k with
  | first => exact ⟨by constructor <;> rfl, rfl, rfl, rfl, rfl, fun _ h => h, .inl rfl⟩
  | second =>
    show LineFrame s (if _ then _ else _)
    split
    · exact endVerified_lineFrame ..
    · exact ⟨by constructor <;> rfl, rfl, rfl, rfl, rfl, fun _ h => h, .inl rfl⟩
  | third => exact endVerified_lineFrame ..

theorem startOperation_lineFrame {s : State} (h : s.dStep = .entry) : LineFrame s (startOperation s) := by
  unfold startOperation
  split
  · exact request_lineFrame ..
  · exact request_lineFrame ..
  · exact request_lineFrame ..
  · exact request_lineFrame ..
  · split
    · exact finish_lineFrame ..
    · exact request_lineFrame ..
  · next speed hw => exact ⟨by constructor <;> rfl, rfl, rfl, rfl, rfl, fun _ h => h, .inr ⟨h, speed, hw, rfl⟩⟩
  · exact finish_lineFrame ..

theorem LineFrame.ite {s t u : State} {p : Prop} [Decidable p] (ht : LineFrame s t) (hu : LineFrame s u) :
    LineFrame s (if p then t else u) := by split <;> assumption

theorem runDispatchLine_lineFrame (s : State) : LineFrame s (runDispatchLine s) := by
  cases hd : s.dStep <;> simp only [runDispatchLine, hd]
  case entry => exact startOperation_lineFrame hd
  case primitiveRsp => exact finish_lineFrame ..
  case mfgDisc => exact .ite (finish_lineFrame ..) (request_lineFrame ..)
  case mfgOpcode => exact .ite (finish_lineFrame ..) (request_lineFrame ..)
  case mfgByte0 => exact request_lineFrame ..
  case mfgByte1 => exact request_lineFrame ..
  case blkDisc =>
    exact .ite (finish_lineFrame ..) ⟨by constructor <;> rfl, rfl, rfl, rfl, rfl, fun _ h => h, .inl rfl⟩
  case blkLoop =>
    exact .ite ⟨by constructor <;> rfl, rfl, rfl, rfl, rfl, fun _ h => h, .inl rfl⟩ (finish_lineFrame ..)
  case loadAddr => exact .ite (endRead_lineFrame ..) (request_lineFrame ..)
  case wsel => exact .ite (endRead_lineFrame ..) (request_lineFrame ..)
  case addr => exact .ite (endRead_lineFrame ..) (startSettle_lineFrame ..)
  case rselSend => exact request_lineFrame ..
  case rsel => exact .ite (endRead_lineFrame ..) (request_lineFrame ..)
  case received => exact startSettle_lineFrame ..
  case returnVal => exact endRead_lineFrame ..
  case select => exact request_lineFrame ..
  all_goals exact ⟨by constructor <;> rfl, rfl, rfl, rfl, rfl, fun _ h => h, .inl rfl⟩

/-- What no action of the dispatch sequencer writes agrees in `s` and `t`. -/
structure ExecutorSide (s t : State) : Prop extends SameExecutor s t where
  cfg : t.cfg = s.cfg

theorem countSettle_executorSide (s : State) : ExecutorSide s (countSettle s) := by
  unfold countSettle
  split
  · split <;> exact ⟨by constructor <;> rfl, rfl⟩
  · exact ⟨by constructor <;> rfl, rfl⟩

theorem popResponse_executorSide (s : State) : ExecutorSide s (popResponse s) := by
  unfold popResponse
  split <;> exact ⟨by constructor <;> rfl, rfl⟩

theorem tickDispatch_executorSide (s : State) : ExecutorSide s (tickDispatch s) := by
  unfold tickDispatch
  split
  · split <;> exact ⟨by constructor <;> rfl, rfl⟩
  · exact ⟨(runDispatchLine_lineFrame s).toSameExecutor, (runDispatchLine_lineFrame s).cfg⟩
  · exact popResponse_executorSide s
  · exact countSettle_executorSide s
  · split <;> exact ⟨by constructor <;> rfl, rfl⟩

/-! ### The engine -/

/-- No action changes the configuration (R21). -/
theorem tick_cfg (s : State) : (tick s).cfg = s.cfg := by
  unfold tick tickSequencers
  split
  · rfl
  · split
    · exact (tickExecutor_dispatchSide _).cfg
    · exact (tickDispatch_executorSide _).cfg

end Sys2Proof.Machine

/-! ## The engine invariant is kept by every action

The executor's stages, then the dispatch sequencer's lines, then reset. -/

namespace Sys2Proof.Machine

open Sys2Proof

/-! ### The executor -/

/-- In `EX_WAIT` and `EX_MASK`, `EX_UNMASK`, `EX_PUSH` the pin is released, the counter idle and no line left. -/
structure OutsideRun (s : State) : Prop where
  pin     : s.pinDir = false
  steps   : s.exStep = []
  counter : s.dlyCnt = 0

theorem EngineInv.outsideRun {s : State} (h : EngineInv s) (hx : s.exState ≠ .run) : OutsideRun s where
  pin := h.releasedOutside hx
  steps := h.stepsInRun hx
  counter := by
    by_contra hc
    exact hx (h.counterIdle hc).1

theorem EngineInv.popRequest {s : State} (h : EngineInv s) (hx : s.exState = .wait) :
    EngineInv (Sys2Proof.Machine.popRequest s) := by
  obtain ⟨hp, hs, hc⟩ := h.outsideRun (by simp [hx])
  have hm := h.maskInRun
  cases hq : s.reqSlot with
  | none => simpa [Sys2Proof.Machine.popRequest, hq] using h
  | some w =>
    refine h.of_executor (popRequest_dispatchSide s).toSameDispatch ?_ ?_ ?_ ?_ ?_ ?_ <;>
      simp [Sys2Proof.Machine.popRequest, hq, hp, hs, hc, hm, hx, State.outstanding]

/-- The lines of every request end with the pin released (R208). -/
theorem endsReleased_requestActs (s : State) : endsReleased false (requestActs s) = true := by
  unfold requestActs
  split
  · rfl
  · split
    · rfl
    · split
      · cases h : sendAckOf (lowField s.curReq) <;> rfl
      · rfl

theorem EngineInv.loadActs {s : State} (h : EngineInv s) (hx : s.exState = .mask) :
    EngineInv { maskIrq s with exStep := requestActs s } := by
  obtain ⟨hp, hs, hc⟩ := h.outsideRun (by simp [hx])
  refine h.of_executor ⟨rfl, rfl, rfl, rfl, rfl, rfl, rfl, rfl, rfl, rfl, rfl, rfl, rfl⟩ ?_ ?_ ?_ ?_ ?_ ?_ <;>
    simp [hp, hc, hx, State.outstanding, endsReleased_requestActs]

/-- A line leaves as the pin's end what the lines promised with it. -/
theorem doAct_endsReleased (a : Act) (rest : List Act) (s : State) (hs : s.exStep = rest) :
    endsReleased (doAct a s).pinDir (doAct a s).exStep = endsReleased s.pinDir (a :: rest) := by
  subst hs
  cases a with
  | symbol => cases h : s.sh.msb <;> simp [doAct, h, symbolActs, pushActs, endsReleased]
  | counting us => simp only [doAct]; split <;> rfl
  | _ => rfl

/-- The counter runs only while a running delay is the next line (R124). -/
theorem doAct_counter (a : Act) (rest : List Act) (s : State)
    (h : s.dlyCnt ≠ 0 → countingNext (a :: rest) = true) :
    (doAct a s).dlyCnt ≠ 0 → countingNext (doAct a s).exStep = true := by
  cases a with
  | delay us => exact fun _ => rfl
  | counting us =>
    simp only [doAct]
    split
    · next h0 => exact fun h1 => absurd h0 h1
    · exact fun _ => rfl
  | _ => exact fun h1 => absurd (h h1) (by simp [countingNext])

theorem EngineInv.runLine {s : State} (h : EngineInv s) (hx : s.exState = .run) :
    EngineInv (Sys2Proof.Machine.runLine s) := by
  have he := h.endsReleased hx
  have hm := h.maskInRun
  have hc := h.counterIdle
  have hd := (runLine_dispatchSide s).toSameDispatch
  unfold Sys2Proof.Machine.runLine at hd ⊢
  split at hd
  · next hl =>
    have hp : s.pinDir = false := by simpa [hl, Sys2Proof.Machine.endsReleased] using he
    have h0 : s.dlyCnt = 0 := by simpa [hl, hx, countingNext] using hc
    refine h.of_executor hd ?_ ?_ ?_ ?_ ?_ ?_ <;> simp [hp, h0, hl, hm, hx, State.outstanding]
  · next a rest hl =>
    have f := doAct_frame a { s with exStep := rest }
    have hx' : (doAct a { s with exStep := rest }).exState = .run := f.exState.trans hx
    rw [hl] at he hc
    refine h.of_executor hd (fun hn => absurd hx' hn) (fun _ => ?_) (fun hn => absurd hx' hn) ?_ (fun hn => ⟨hx', ?_⟩) ?_
    · rw [doAct_endsReleased a rest _ rfl]; exact he
    · rw [hx', f.irqDis]; rw [hx] at hm; exact hm
    · exact doAct_counter a rest _ (fun h1 => (hc h1).2) hn
    · simp only [State.outstanding, f.reqSlot, f.rspSlot, f.exState]

theorem EngineInv.unmaskIrq {s : State} (h : EngineInv s) (hx : s.exState = .unmask) :
    EngineInv (Sys2Proof.Machine.unmaskIrq s) := by
  obtain ⟨hp, hs, hc⟩ := h.outsideRun (by simp [hx])
  refine h.of_executor ⟨rfl, rfl, rfl, rfl, rfl, rfl, rfl, rfl, rfl, rfl, rfl, rfl, rfl⟩ ?_ ?_ ?_ ?_ ?_ ?_ <;>
    simp [hp, hc, hx, State.outstanding]

theorem EngineInv.pushResponse {s : State} (h : EngineInv s) (hx : s.exState = .push) :
    EngineInv (Sys2Proof.Machine.pushResponse s) := by
  obtain ⟨hp, hs, hc⟩ := h.outsideRun (by simp [hx])
  have hm := h.maskInRun
  cases hq : s.rspSlot with
  | some r => simpa [Sys2Proof.Machine.pushResponse, hq] using h
  | none =>
    refine h.of_executor (pushResponse_dispatchSide s).toSameDispatch ?_ ?_ ?_ ?_ ?_ ?_ <;>
      simp [Sys2Proof.Machine.pushResponse, hq, hp, hs, hc, hm, hx, State.outstanding]

theorem EngineInv.tickExecutor {s : State} (h : EngineInv s) : EngineInv (Sys2Proof.Machine.tickExecutor s) := by
  unfold Sys2Proof.Machine.tickExecutor
  split
  · next hx => exact h.popRequest hx
  · next hx => exact h.loadActs hx
  · next hx => exact h.runLine hx
  · next hx => exact h.unmaskIrq hx
  · next hx => exact h.pushResponse hx

/-! ### The lines of the dispatch sequencer -/

/-- The bounds of the line an address is read on (R23, R181). -/
theorem EngineInv.readBounds {s : State} (h : EngineInv s) (hd : s.dStep.inRead = true) :
    s.opStart + s.opLength ≤ 128 ∧ s.idx.toNat < s.opLength ∧ s.curAddr.toNat = s.opStart + s.idx.toNat := by
  refine ⟨h.blockInRange ?_, h.addrInBlock hd⟩
  revert hd
  cases s.dStep <;> simp [DStep.inRead, DStep.inBlock]

theorem EngineInv.ite {p : Prop} [Decidable p] {t u : State} (ht : p → EngineInv t) (hu : ¬ p → EngineInv u) :
    EngineInv (if p then t else u) := by
  split
  · exact ht ‹_›
  · exact hu ‹_›

theorem EngineInv.finishErr {s : State} (h : EngineInv s) (hd : s.dState = .run) (e : ErrCode) :
    EngineInv (Sys2Proof.Machine.finishErr e s) := h.finish hd _ _ _ (by decide)

/-- The byte voted for is stored inside the block (R180). -/
theorem EngineInv.storeByte {s : State} (h : EngineInv s) (hr : s.dStep.inRead = true) (b : Byte) :
    EngineInv (Sys2Proof.Machine.goto .blkLoop (Sys2Proof.Machine.storeByte b s)) := by
  obtain ⟨hb, hi, -⟩ := h.readBounds hr
  refine h.of_dispatch ⟨rfl, rfl, rfl, rfl, rfl, rfl⟩ (bufWrite_wf h.bufCanonical ?_) h.settleIdle h.alternation
    h.counts h.validAtRest h.doneIsValid h.accTopZero h.lengthBound (fun _ => hb) (fun _ => ?_) ?_
  · unfold eepromSize; omega
  · show (s.idx + 1).toNat ≤ s.opLength
    rw [BitVec.toNat_add]
    exact (Nat.mod_le _ _).trans hi
  · simp [Sys2Proof.Machine.goto, DStep.inRead]

theorem EngineInv.endVerified {s : State} (h : EngineInv s) (hd : s.dState = .run) (hr : s.dStep.inRead = true)
    (r : Result) : EngineInv (Sys2Proof.Machine.endVerified r s) := by
  cases r with
  | err e => exact h.finishErr hd e
  | val b => exact h.storeByte hr b

/-- From one line of an address's read to another. -/
theorem EngineInv.gotoRead {s : State} (h : EngineInv s) (hr : s.dStep.inRead = true) {next : DStep}
    (hn : next.inRead = true) : EngineInv (Sys2Proof.Machine.goto next s) := by
  obtain ⟨hb, hi⟩ := h.readBounds hr
  refine h.goto next (fun _ => hb) (fun e => ?_) (fun _ => hi)
  subst e; cases hn

theorem EngineInv.endRead {s : State} (h : EngineInv s) (hd : s.dState = .run) (hr : s.dStep.inRead = true)
    (k : Pass) (r : Result) : EngineInv (Sys2Proof.Machine.endRead k r s) := by
  have hs := h.setSample k r
  have hd' : (Sys2Proof.Machine.setSample k r s).dState = .run := by cases k <;> exact hd
  have hr' : (Sys2Proof.Machine.setSample k r s).dStep.inRead = true := by cases k <;> exact hr
  cases k with
  | first => exact hs.gotoRead hr' rfl
  | second => exact .ite (fun _ => hs.endVerified hd' hr' _) (fun _ => hs.gotoRead hr' rfl)
  | third => exact hs.endVerified hd' hr' _

/-- A push from one line of an address's read to another. -/
theorem EngineInv.requestRead {s : State} (h : EngineInv s) (hd : s.dState = .run) (hr : s.dStep.inRead = true)
    (opc payload : Byte) {next : DStep} (hn : next.inRead = true) :
    EngineInv (Sys2Proof.Machine.request opc payload next s) := by
  obtain ⟨hb, hi⟩ := h.readBounds hr
  refine h.request hd opc payload next (fun _ => hb) (fun e => ?_) (fun _ => hi)
  subst e; cases hn

theorem EngineInv.startSettleRead {s : State} (h : EngineInv s) (hd : s.dState = .run) (hr : s.dStep.inRead = true)
    (us : Nat) {next : DStep} (hn : next.inRead = true) :
    EngineInv (Sys2Proof.Machine.startSettle us next s) := by
  obtain ⟨hb, hi⟩ := h.readBounds hr
  refine h.startSettle hd us next (fun _ => hb) (fun e => ?_) (fun _ => hi)
  subst e; cases hn

/-- A push to a line outside a block. -/
theorem EngineInv.requestPlain {s : State} (h : EngineInv s) (hd : s.dState = .run) (opc payload : Byte)
    {next : DStep} (hn : next.inBlock = false) : EngineInv (Sys2Proof.Machine.request opc payload next s) := by
  refine h.request hd opc payload next (fun e => ?_) (fun e => ?_) (fun e => ?_)
  · simp [hn] at e
  · subst e; cases hn
  · cases next <;> simp_all [DStep.inRead, DStep.inBlock]

/-- The operands of a `readBlock` are the fields of its word (R100, R101). -/
theorem decodeHost_readBlock {w : Word} {dev start length : Byte}
    (h : decodeHost w = .ok (.hostReadBlock dev start length)) :
    opcodeField w = hopReadBlock ∧ dev = devField w ∧ start = arg1Field w ∧ length = lowField w := by
  unfold decodeHost at h
  repeat' split at h
  all_goals cases h
  exact ⟨‹_›, rfl, rfl, rfl⟩

theorem blockOutOfRange_iff (start length : Byte) :
    blockOutOfRange start length = true ↔ 128 < start.toNat + length.toNat := by
  simp [blockOutOfRange, eepromSize]

theorem EngineInv.setSpeed {s : State} (h : EngineInv s) (speed : Byte) :
    EngineInv (Sys2Proof.Machine.setSpeed speed s) :=
  ⟨h.latchZero, h.bufCanonical, h.releasedOutside, h.endsReleased, h.stepsInRun, h.maskInRun, h.counterIdle, h.settleIdle,
    h.alternation, h.counts, h.validAtRest, h.doneIsValid, h.accTopZero, h.lengthBound, h.blockInRange, h.idxBound,
    h.addrInBlock⟩

theorem EngineInv.startOperation {s : State} (h : EngineInv s) (hd : s.dState = .run) :
    EngineInv (Sys2Proof.Machine.startOperation s) := by
  unfold Sys2Proof.Machine.startOperation
  split
  · exact h.requestPlain hd _ _ rfl
  · exact h.requestPlain hd _ _ rfl
  · exact h.requestPlain hd _ _ rfl
  · exact h.requestPlain hd _ _ rfl
  · next dev start length hw =>
    obtain ⟨-, -, rfl, rfl⟩ := decodeHost_readBlock hw
    refine .ite (fun _ => h.finishErr hd _) (fun hb => h.request hd _ _ _ (fun _ => ?_) (by simp) (by simp [DStep.inRead]))
    rw [blockOutOfRange_iff] at hb
    exact Nat.le_of_not_lt hb
  · exact (h.setSpeed _).finish hd _ _ _ (by decide)
  · exact h.finishErr hd _

/-- The test of the block loop: the next address is within the device, or the block ends with its length (R180, R181). -/
theorem EngineInv.blkLoop {s : State} (h : EngineInv s) (hd : s.dState = .run) (hs : s.dStep = .blkLoop) :
    EngineInv (if s.idx.toNat < (lowField s.opWord).toNat then
      Sys2Proof.Machine.goto (.loadAddr .first) (setCurAddr (arg1Field s.opWord) s)
    else Sys2Proof.Machine.finish 0 0 (lowField s.opWord) s) := by
  have hb : s.opStart + s.opLength ≤ 128 := h.blockInRange (by rw [hs]; rfl)
  have hl : (lowField s.opWord).toNat = s.opLength := rfl
  refine .ite (fun hi => ?_) (fun _ => h.finish hd _ _ _ (by omega))
  refine h.of_dispatch ⟨rfl, rfl, rfl, rfl, rfl, rfl⟩ h.bufCanonical h.settleIdle h.alternation
    h.counts h.validAtRest h.doneIsValid h.accTopZero h.lengthBound (fun _ => hb) (by simp [Sys2Proof.Machine.goto])
    (fun _ => ⟨hi, ?_⟩)
  show (arg1Field s.opWord + s.idx).toNat = (arg1Field s.opWord).toNat + s.idx.toNat
  have ha : (arg1Field s.opWord).toNat = s.opStart := rfl
  rw [BitVec.toNat_add, Nat.mod_eq_of_lt (by omega)]

theorem EngineInv.runDispatchLine {s : State} (h : EngineInv s) (hd : s.dState = .run) :
    EngineInv (Sys2Proof.Machine.runDispatchLine s) := by
  obtain ⟨f1, f2, f3, f4, f5, f6⟩ := h.running hd
  have hread (d : DStep) (hs : s.dStep = d) (hr : d.inRead = true) : s.dStep.inRead = true := hs ▸ hr
  cases hs : s.dStep <;> simp only [Sys2Proof.Machine.runDispatchLine, hs]
  case entry => exact h.startOperation hd
  case primitiveRsp => exact h.finish hd _ _ _ (by decide)
  case mfgDisc => exact .ite (fun _ => h.finish hd _ _ _ (by decide)) (fun _ => h.requestPlain hd _ _ rfl)
  case mfgOpcode => exact .ite (fun _ => h.finish hd _ _ _ (by decide)) (fun _ => h.requestPlain hd _ _ rfl)
  case mfgByte0 => exact h.requestPlain hd _ _ rfl
  case mfgByte1 => exact h.requestPlain hd _ _ rfl
  case mfgByte2 b0 b1 =>
    have ha : EngineInv (setAcc b0 b1 s.rsp s) :=
      h.of_dispatch ⟨rfl, rfl, rfl, rfl, rfl, rfl⟩ h.bufCanonical h.settleIdle h.alternation h.counts h.validAtRest
        h.doneIsValid (opcodeField_hostWord 0 b0 b1 s.rsp) h.lengthBound h.blockInRange h.idxBound h.addrInBlock
    exact ha.finish hd _ _ _ (by decide)
  case blkDisc =>
    refine .ite (fun _ => h.finishErr hd _) (fun _ => ?_)
    exact h.of_dispatch ⟨rfl, rfl, rfl, rfl, rfl, rfl⟩ h.bufCanonical h.settleIdle h.alternation h.counts h.validAtRest
      h.doneIsValid h.accTopZero h.lengthBound (fun _ => h.blockInRange (by rw [hs]; rfl)) (fun _ => Nat.zero_le _)
      (by simp [Sys2Proof.Machine.goto, DStep.inRead])
  case blkLoop => exact h.blkLoop hd hs
  case loadAddr k =>
    exact .ite (fun _ => h.endRead hd (hread _ hs rfl) _ _) (fun _ => h.requestRead hd (hread _ hs rfl) _ _ rfl)
  case wsel k =>
    exact .ite (fun _ => h.endRead hd (hread _ hs rfl) _ _) (fun _ => h.requestRead hd (hread _ hs rfl) _ _ rfl)
  case addr k =>
    exact .ite (fun _ => h.endRead hd (hread _ hs rfl) _ _) (fun _ => h.startSettleRead hd (hread _ hs rfl) _ rfl)
  case rselSend k => exact h.requestRead hd (hread _ hs rfl) _ _ rfl
  case rsel k =>
    exact .ite (fun _ => h.endRead hd (hread _ hs rfl) _ _) (fun _ => h.requestRead hd (hread _ hs rfl) _ _ rfl)
  case received k => exact h.startSettleRead hd (hread _ hs rfl) _ rfl
  case returnVal k => exact h.endRead hd (hread _ hs rfl) _ _
  case select b => exact h.requestPlain hd _ _ rfl
  case ret =>
    refine h.of_dispatch ⟨rfl, rfl, rfl, rfl, rfl, rfl⟩ h.bufCanonical (fun e => absurd f4 e) ?_ ?_ ?_ ?_ h.accTopZero
      h.lengthBound ?_ ?_ ?_ <;>
      simp [State.outstanding, State.waiting, f1, f2, f3, f5, f6, DStep.inBlock, DStep.inRead]
  case settleA => exact h
  case settleB => exact h

/-! ### The other stages of the dispatch sequencer -/

theorem EngineInv.acceptHost {s : State} (h : EngineInv s) (hd : s.dState = .idle) (w : Word) :
    EngineInv (Sys2Proof.Machine.acceptHost w s) := by
  have ha := h.alternation
  have hc := h.counts
  have hz : s.dlyD = 0 := by
    by_contra hz
    simpa [hd] using h.settleIdle hz
  simp only [State.outstanding, State.waiting, hd] at ha hc
  refine h.of_dispatch ⟨rfl, rfl, rfl, rfl, rfl, rfl⟩ h.bufCanonical (fun e => absurd hz e) ?_ ?_ ?_ ?_ h.accTopZero
    h.lengthBound ?_ ?_ ?_ <;>
    simp_all [State.outstanding, State.waiting, DStep.inBlock, DStep.inRead]

theorem EngineInv.takeResult {s : State} (h : EngineInv s) (hd : s.dState = .idle ∨ s.dState = .done) :
    EngineInv (Sys2Proof.Machine.takeResult s) := by
  have hw : s.waiting = 0 := by rcases hd with hd | hd <;> simp [State.waiting, hd]
  have hz : s.dlyD = 0 := by
    by_contra hz
    rcases hd with hd | hd <;> simpa [hd] using h.settleIdle hz
  refine h.of_dispatch ⟨rfl, rfl, rfl, rfl, rfl, rfl⟩ h.bufCanonical (fun e => absurd hz e)
    (h.alternation.trans hw) (h.counts.trans (by rw [hw]; rfl)) (fun _ => .inl rfl) (by simp) h.accTopZero
    h.lengthBound h.blockInRange h.idxBound h.addrInBlock

theorem EngineInv.popResponse {s : State} (h : EngineInv s) (hd : s.dState = .waitRsp) :
    EngineInv (Sys2Proof.Machine.popResponse s) := by
  have ha := h.alternation
  have hc := h.counts
  have hv := h.validAtRest
  have hz : s.dlyD = 0 := by
    by_contra hz
    simpa [hd] using h.settleIdle hz
  cases hq : s.rspSlot with
  | none => simpa [Sys2Proof.Machine.popResponse, hq] using h
  | some r =>
    simp only [State.outstanding, State.waiting, hd, hq] at ha hc hv
    unfold Sys2Proof.Machine.popResponse
    rw [hq]
    refine h.of_dispatch ⟨rfl, rfl, rfl, rfl, rfl, rfl⟩ h.bufCanonical (fun e => absurd hz e) ?_ ?_ ?_ ?_ h.accTopZero
      h.lengthBound h.blockInRange h.idxBound h.addrInBlock
    · simp [State.outstanding, State.waiting] at ha ⊢; omega
    · simp [State.waiting] at hc ⊢; omega
    · simpa using hv
    · simp

theorem EngineInv.endSettle {s : State} (h : EngineInv s) (hd : s.dState = .delay) (us : Nat)
    (hr : s.dStep.inRead = true) {next : DStep} (hn : next.inRead = true) :
    EngineInv (Sys2Proof.Machine.endSettle us next s) := by
  have hw : s.waiting = 0 := by simp [State.waiting, hd]
  have hv : s.resValid = false := by simpa [hd] using h.validAtRest
  obtain ⟨hb, hi⟩ := h.readBounds hr
  refine h.of_dispatch ⟨rfl, rfl, rfl, rfl, rfl, rfl⟩ h.bufCanonical (fun e => absurd rfl e)
    (h.alternation.trans hw) (h.counts.trans (by rw [hw]; rfl)) ?_ ?_ h.accTopZero h.lengthBound (fun _ => hb) ?_
    (fun _ => hi)
  · simp [Sys2Proof.Machine.endSettle, hv]
  · simp [Sys2Proof.Machine.endSettle]
  · rintro rfl; cases hn

theorem EngineInv.countSettle {s : State} (h : EngineInv s) (hd : s.dState = .delay) :
    EngineInv (Sys2Proof.Machine.countSettle s) := by
  unfold Sys2Proof.Machine.countSettle
  split
  · split
    · next hs => exact h.endSettle hd _ (by rw [hs]; rfl) rfl
    · next hs => exact h.endSettle hd _ (by rw [hs]; rfl) rfl
    · exact h
  · exact h.of_dispatch ⟨rfl, rfl, rfl, rfl, rfl, rfl⟩ h.bufCanonical (fun _ => hd) h.alternation h.counts h.validAtRest
      h.doneIsValid h.accTopZero h.lengthBound h.blockInRange h.idxBound h.addrInBlock

theorem EngineInv.tickDispatch {s : State} (h : EngineInv s) : EngineInv (Sys2Proof.Machine.tickDispatch s) := by
  unfold Sys2Proof.Machine.tickDispatch
  split
  · next hd =>
    split
    · exact h.acceptHost hd _
    · exact h.takeResult (.inl hd)
    · exact h
  · next hd => exact h.runDispatchLine hd
  · next hd => exact h.popResponse hd
  · next hd => exact h.countSettle hd
  · next hd =>
    split
    · exact h.takeResult (.inr hd)
    · exact h

/-! ### Every action -/

theorem engineInv_resetOf (c : Config) : EngineInv (State.resetOf c) := by
  constructor <;> simp [State.resetOf, bufWf, bufWfFrom, State.outstanding, State.waiting, DStep.inBlock, DStep.inRead,
    opcodeField]

theorem engineInv_resetEngine (s : State) : EngineInv (resetEngine s) := by
  have h := (engineInv_resetOf s.cfg).withInputs s.hostIn.tail
  exact ⟨h.latchZero, h.bufCanonical, h.releasedOutside, h.endsReleased, h.stepsInRun, h.maskInRun, h.counterIdle,
    h.settleIdle, h.alternation, h.counts, h.validAtRest, h.doneIsValid, h.accTopZero, h.lengthBound, h.blockInRange,
    h.idxBound, h.addrInBlock⟩

theorem EngineInv.tick {s : State} (h : EngineInv s) : EngineInv (Sys2Proof.Machine.tick s) := by
  have hi : EngineInv { s with hostIn := countDown s.hostIn } := h.withInputs _
  unfold Sys2Proof.Machine.tick tickSequencers
  exact .ite (fun _ => engineInv_resetEngine s) (fun _ => .ite (fun _ => hi.tickExecutor) (fun _ => hi.tickDispatch))

/-- What every action keeps, every run of actions keeps. -/
theorem Reaches.keeps {P : State → Prop} (htick : ∀ s, P s → P (tick s)) {s t : State} (h : Reaches s t)
    (hs : P s) : P t := by
  obtain ⟨n, rfl⟩ := h
  induction n generalizing s with
  | zero => exact hs
  | succ n ih => exact ih (htick s hs)

end Sys2Proof.Machine

/-! ## The masking discipline is kept by every action -/

namespace Sys2Proof.Machine

open Sys2Proof

theorem maskOfTrace_append (m : Bool) (l : List Event) (e : Event) :
    maskOfTrace m (l ++ [e]) = (maskOfTrace m l).bind (maskAfter · e) := by
  induction l generalizing m with
  | nil => cases h : maskAfter m e <;> simp [maskOfTrace, h]
  | cons e' l ih => cases h : maskAfter m e' <;> simp [maskOfTrace, h, ih]

/-- An action without an event leaves the discipline as it was. -/
theorem MaskedTrace.of_same {s t : State} (h : MaskedTrace s) (ht : t.trace = s.trace) (hm : t.irqDis = s.irqDis) :
    MaskedTrace t := by
  unfold MaskedTrace at h ⊢
  rw [ht, hm, h]

/-- An action with an event that is allowed under the mask as it stands keeps the discipline. -/
theorem MaskedTrace.of_event {s t : State} {e : Event} (h : MaskedTrace s) (ht : t.trace = s.trace ++ [e])
    (hm : maskAfter s.irqDis e = some t.irqDis) : MaskedTrace t := by
  unfold MaskedTrace at h ⊢
  rw [ht, maskOfTrace_append, h]
  exact hm

/-! ### The executor's events -/

/-- A line emits nothing or one event that belongs under the mask (R292). -/
theorem doAct_trace (a : Act) (s : State) :
    (doAct a s).trace = s.trace ∨
      ∃ e, (doAct a s).trace = s.trace ++ [e] ∧ maskAfter true e = some true := by
  cases a with
  | counting us =>
    simp only [doAct]
    split
    · refine .inr ⟨holdEvent s us, rfl, ?_⟩
      unfold holdEvent
      split <;> rfl
    · exact .inl rfl
  | sampleBit rest => exact .inr ⟨_, rfl, rfl⟩
  | samplePresence => exact .inr ⟨_, rfl, rfl⟩
  | _ => exact .inl rfl

theorem MaskedTrace.runLine {s : State} (h : MaskedTrace s) (hm : s.irqDis = true) :
    MaskedTrace (Sys2Proof.Machine.runLine s) := by
  unfold Sys2Proof.Machine.runLine
  split
  · exact h.of_same rfl rfl
  · next a rest _ =>
    have hi := (doAct_frame a { s with exStep := rest }).irqDis
    obtain ht | ⟨e, ht, he⟩ := doAct_trace a { s with exStep := rest }
    · exact h.of_same ht hi
    · exact h.of_event ht (by rw [hi, hm]; exact he)

theorem MaskedTrace.tickExecutor {s : State} (h : MaskedTrace s) (hi : EngineInv s) :
    MaskedTrace (Sys2Proof.Machine.tickExecutor s) := by
  have hm := hi.maskInRun
  unfold Sys2Proof.Machine.tickExecutor
  split
  · unfold popRequest; split <;> exact h.of_same rfl rfl
  · next hx => exact h.of_event (e := .irq true) rfl (by rw [hm, hx]; rfl)
  · next hx => exact h.runLine (by rw [hm, hx]; rfl)
  · next hx => exact h.of_event (e := .irq false) rfl (by rw [hm, hx]; rfl)
  · unfold pushResponse; split <;> exact h.of_same rfl rfl

/-! ### The settle delays -/

/-- With no request outstanding the mask is open (R207, R208). -/
theorem EngineInv.maskOpen {s : State} (h : EngineInv s) (hd : s.dState ≠ .waitRsp) : s.irqDis = false := by
  have ha := h.alternation
  have hx : s.exState = .wait := by
    by_contra hx
    simp [State.outstanding, State.waiting, hd, hx] at ha
  rw [h.maskInRun, hx]
  rfl

theorem MaskedTrace.countSettle {s : State} (h : MaskedTrace s) (hm : s.irqDis = false) :
    MaskedTrace (Sys2Proof.Machine.countSettle s) := by
  have hidle (us : Nat) (d : DStep) : MaskedTrace (endSettle us d s) :=
    h.of_event (e := .idle us) rfl (by rw [hm]; exact congrArg some hm.symm)
  unfold Sys2Proof.Machine.countSettle
  split
  · split
    · exact hidle _ _
    · exact hidle _ _
    · exact h
  · exact h.of_same rfl rfl

theorem MaskedTrace.tickDispatch {s : State} (h : MaskedTrace s) (hi : EngineInv s) :
    MaskedTrace (Sys2Proof.Machine.tickDispatch s) := by
  unfold Sys2Proof.Machine.tickDispatch
  split
  · split <;> exact h.of_same rfl rfl
  · exact h.of_same (runDispatchLine_lineFrame s).trace (runDispatchLine_lineFrame s).irqDis
  · unfold popResponse; split <;> exact h.of_same rfl rfl
  · next hd => exact h.countSettle (hi.maskOpen (by simp [hd]))
  · split <;> exact h.of_same rfl rfl

/-- The mask stands as the trace says after every action, reset included (R26, R292). -/
theorem MaskedTrace.tick {s : State} (h : MaskedTrace s) (hi : EngineInv s) :
    MaskedTrace (Sys2Proof.Machine.tick s) := by
  have hi' : EngineInv { s with hostIn := countDown s.hostIn } := hi.withInputs _
  have h' : MaskedTrace { s with hostIn := countDown s.hostIn } := h
  unfold Sys2Proof.Machine.tick tickSequencers
  split
  · exact rfl
  · split
    · exact h'.tickExecutor hi'
    · exact h'.tickDispatch hi'

end Sys2Proof.Machine

/-! ## What a step can be

A step is one action, or one of the three whole instructions; each is a run of actions. -/

namespace Sys2Proof.Machine

open Sys2Proof

/-- The whole host operation that `op_word` selects, from the accepted word to its result (R220 to R227). -/
def runHostOperation (s : State) : State :=
  match decodeHost s.opWord with
  | .ok .hostDiscovery => singleRequest opcDisc 0 s
  | .ok (.hostTransmitByte byte) => singleRequest opcTx byte s
  | .ok .hostReceiveByte => singleRequest opcRx (ackPayload rxDefaultAck) s
  | .ok (.hostManufacturerId dev) => finishManufacturerId dev s
  | .ok (.hostReadBlock dev start length) => finishBlock length (readBlock dev start length s)
  | .ok (.hostSetSpeed speed) => finish 0 0 0 (setSpeed speed s)
  | _ => finishErr .unknownOp s

/-- The meaning of an accepted host word is its operation. -/
theorem exec_host {i : Instr} {s : State} (hq : s.quiet = true) (h : decodeHost s.opWord = .ok i) :
    exec i s = .next (runHostOperation s) := by
  unfold runHostOperation
  rw [h]
  unfold decodeHost at h
  repeat' split at h
  all_goals cases h
  all_goals simp only [exec, execHostDiscovery, execHostTransmitByte, execHostReceiveByte, execHostManufacturerId,
    execHostReadBlock, execHostSetSpeed, whenQuiet, hq, if_true]

/-- The host operation of a word that is none is the error (R227). -/
theorem runHostOperation_unknown {e : DecodeError} {s : State} (h : decodeHost s.opWord = .error e) :
    runHostOperation s = finishErr .unknownOp s := by
  unfold runHostOperation
  rw [h]

/-- The four things a step can be: one action, an executor turn, a bus opcode byte alone, a host operation. -/
inductive StepRuns (s : State) : State → Prop
  | action : StepRuns s (tick s)
  | request (w : Word) : resetAwaited s = false → s.exState = .wait → s.reqSlot = some w →
      StepRuns s (executorTurn s)
  | busByte (b : Byte) : resetAwaited s = false → s.dState = .run → s.quiet = true → s.dStep = .select b →
      StepRuns s (chan opcTx b (goto .ret s))
  | hostWord (w : Word) (rest : List HostInput) : s.hostIn = .op w :: rest → resetNext rest = false →
      s.dState = .idle → s.quiet = true → StepRuns s (runHostOperation (acceptHost w s))

theorem stepRuns_of_step {s t : State} (h : step s = .next t) : StepRuns s t := by
  unfold step at h
  split at h
  · next c s' hf =>
    cases c with
    | chan w =>
      obtain ⟨hr, hx, hq, rfl⟩ := fetch_chan hf
      have hw : (popRequest s).curReq = w := by simp [popRequest, hq]
      have ht : (.next (executorTurn s) : Host.Outcome State Fault Refusal) = .next t := by
        split at h
        · next hd => exact (exec_chan (popRequest s) hw hd).symm.trans h
        · next hd => exact (exec_chanUnknown (popRequest s) hw hd).symm.trans h
      cases ht
      exact .request w hr hx hq
    | bus b =>
      obtain ⟨hr, hd, hq, hs, rfl⟩ := fetch_bus hf
      have hq' : (goto .ret s).quiet = true := hq
      have ht : (.next (chan opcTx b (goto .ret s)) : Host.Outcome State Fault Refusal) = .next t := by
        split at h
        · next hi => exact (exec_bus _ hq' hi).symm.trans h
        · simpa [runUnknownCode, execBusRaw, whenQuiet, hq'] using h
      cases ht
      exact .busByte b hr hd hq hs
    | host w =>
      obtain ⟨-, hd, hq, ⟨rest, hh, hr⟩, rfl⟩ := fetch_host hf
      have hq' : (acceptHost w s).quiet = true := hq
      have ht : (.next (runHostOperation (acceptHost w s)) : Host.Outcome State Fault Refusal) = .next t := by
        split at h
        · next i hi =>
          have hi' : decodeHost (acceptHost w s).opWord = .ok i := hi
          exact (exec_host hq' hi').symm.trans h
        · next e hi =>
          have hi' : decodeHost (acceptHost w s).opWord = .error e := hi
          rw [runHostOperation_unknown hi']
          exact h
      cases ht
      exact .hostWord w rest hh hr hd hq
  · cases h
    exact .action

/-! ### The host operations as runs of actions -/

/-- A host operation of one request (R221, R222, R223). -/
theorem reaches_singleRequest {opc : Byte} (ho : IsOpcode opc) (payload : Byte) {s : State} (h : AtLine s)
    (hr : resetAwaited s = false) :
    Reaches (request opc payload .primitiveRsp (goto .entry s)) (singleRequest opc payload s) := by
  have f := chan_frame ho payload h.quiet
  refine reaches_roundTrip ho payload .entry .primitiveRsp h hr ?_
  exact reaches_dispatchLine f.2.2 (noReset_frame hr f.1) (Reaches.refl _)

/-- The three bytes of an id and their packing (R172). -/
theorem reaches_receiveId {s : State} (h : AtLine s) (hr : resetAwaited s = false) (d : DStep) :
    Reaches (request opcRx (ackPayload true) .mfgByte0 (goto d s)) (finish 0 (receiveId s).acc 0 (receiveId s)) := by
  have f1 := chan_frame isOpcode_rx (ackPayload true) h.quiet
  have r1 := noReset_frame hr f1.1
  have f2 := chan_frame isOpcode_rx (ackPayload true) f1.2.2.quiet
  have r2 := noReset_frame r1 f2.1
  have f3 := chan_frame isOpcode_rx (ackPayload false) f2.2.2.quiet
  have r3 := noReset_frame r2 f3.1
  refine reaches_roundTrip isOpcode_rx _ _ _ h hr (reaches_dispatchLine f1.2.2 r1 ?_)
  refine reaches_roundTrip isOpcode_rx _ _ _ f1.2.2 r1 (reaches_dispatchLine f2.2.2 r2 ?_)
  refine reaches_roundTrip isOpcode_rx _ _ _ f2.2.2 r2 (reaches_dispatchLine f3.2.2 r3 ?_)
  exact Reaches.refl _

theorem reaches_manufacturerId {s : State} (h : AtLine s) (hr : resetAwaited s = false) :
    Reaches (request opcDisc 0 .mfgDisc (goto .entry s)) (finishManufacturerId (devField s.opWord) s) := by
  have f1 := chan_frame isOpcode_disc 0 h.quiet
  have r1 := noReset_frame hr f1.1
  refine reaches_roundTrip isOpcode_disc _ _ _ h hr (reaches_dispatchLine f1.2.2 r1 ?_)
  unfold finishManufacturerId readManufacturerId
  rw [← f1.1.opWord]
  generalize chan opcDisc 0 s = s1 at f1 r1 ⊢
  simp only [runDispatchLine, goto_dStep, goto_rsp, goto_opWord]
  by_cases h1 : s1.rsp ≠ rspAck
  · simp only [h1, not_false_eq_true, if_true, ne_eq]
    exact Reaches.refl _
  simp only [h1, if_false]
  have f2 := chan_frame isOpcode_tx (devByte busOpcMfgId (devField s1.opWord) true) f1.2.2.quiet
  have r2 := noReset_frame r1 f2.1
  refine reaches_roundTrip isOpcode_tx _ _ _ f1.2.2 r1 (reaches_dispatchLine f2.2.2 r2 ?_)
  unfold sendMfgidR
  generalize chan opcTx (devByte busOpcMfgId (devField s1.opWord) true) s1 = s2 at f2 r2 ⊢
  simp only [runDispatchLine, goto_dStep, goto_rsp]
  by_cases h2 : s2.rsp ≠ rspAck
  · simp only [h2, not_false_eq_true, if_true, ne_eq]
    exact Reaches.refl _
  · simp only [h2, if_false]
    exact reaches_receiveId f2.2.2 r2 _

/-- A block in range, from its Discovery (R180). -/
theorem reaches_readBlock {s : State} (h : AtLine s) (hr : resetAwaited s = false)
    (hb : blockOutOfRange (arg1Field s.opWord) (lowField s.opWord) = false) :
    Reaches (request opcDisc 0 .blkDisc (goto .entry s))
      (finishBlock (lowField s.opWord)
        (readBlock (devField s.opWord) (arg1Field s.opWord) (lowField s.opWord) s)) := by
  have f1 := chan_frame isOpcode_disc 0 h.quiet
  have r1 := noReset_frame hr f1.1
  refine reaches_roundTrip isOpcode_disc _ _ _ h hr (reaches_dispatchLine f1.2.2 r1 ?_)
  unfold readBlock
  rw [hb, ← f1.1.opWord]
  generalize chan opcDisc 0 s = s1 at f1 r1 ⊢
  simp only [runDispatchLine, goto_dStep, goto_rsp, Bool.false_eq_true, if_false]
  by_cases h1 : s1.rsp ≠ rspAck
  · simp only [h1, not_false_eq_true, if_true, ne_eq]
    exact Reaches.refl _
  · simp only [h1, if_false]
    have h2 : AtLine (clearIdx s1) := ⟨f1.2.2.quiet, f1.2.2.run⟩
    exact reaches_blockLoop _ h2 r1 (by simp)

/-- The operand of a `manufacturerId` is the field of its word (R100, R101). -/
theorem decodeHost_manufacturerId {w : Word} {dev : Byte} (h : decodeHost w = .ok (.hostManufacturerId dev)) :
    dev = devField w := by
  unfold decodeHost at h
  repeat' split at h
  all_goals cases h
  rfl

/-- The host operation that `op_word` selects, from its first line to its result. -/
theorem reaches_hostOperation {s : State} (h : AtLine s) (hr : resetAwaited s = false) :
    Reaches (goto .entry s) (runHostOperation s) := by
  refine reaches_dispatchLine h hr ?_
  simp only [runDispatchLine, goto_dStep, startOperation, goto_opWord]
  unfold runHostOperation
  cases hw : decodeHost s.opWord with
  | error e => exact Reaches.refl _
  | ok i =>
    cases i with
    | hostDiscovery => exact reaches_singleRequest isOpcode_disc _ h hr
    | hostTransmitByte byte => exact reaches_singleRequest isOpcode_tx _ h hr
    | hostReceiveByte => exact reaches_singleRequest isOpcode_rx _ h hr
    | hostManufacturerId dev =>
      obtain rfl := decodeHost_manufacturerId hw
      exact reaches_manufacturerId h hr
    | hostReadBlock dev start length =>
      obtain ⟨-, rfl, rfl, rfl⟩ := decodeHost_readBlock hw
      cases hb : blockOutOfRange (arg1Field s.opWord) (lowField s.opWord) with
      | true =>
        simp only [readBlock, hb, if_true]
        exact Reaches.refl _
      | false =>
        simp only [hb, Bool.false_eq_true, if_false]
        exact reaches_readBlock h hr hb
    | _ => exact Reaches.refl _

/-- The handshake, and the operation after it. -/
theorem reaches_hostWord {s : State} {w : Word} {rest : List HostInput} (hh : s.hostIn = .op w :: rest)
    (hr : resetNext rest = false) (hd : s.dState = .idle) (hq : s.quiet = true) :
    Reaches s (runHostOperation (acceptHost w s)) := by
  have hr0 : resetAwaited s = false := by simp [resetAwaited, hh, resetNext]
  have hr1 : resetAwaited (acceptHost w s) = false := by simpa [resetAwaited, acceptHost, hh] using hr
  have ht : tick s = goto .entry (acceptHost w s) := by
    rw [tick_quiet hq hr0]
    simp only [tickDispatch, hd, hh]
    rfl
  exact .tick_then (ht ▸ reaches_hostOperation ⟨hq, rfl⟩ hr1)

/-- The dispatch sequencer's line `select` (log 6). -/
theorem reaches_busByte {s : State} {b : Byte} (hr : resetAwaited s = false) (hd : s.dState = .run)
    (hq : s.quiet = true) (hs : s.dStep = .select b) : Reaches s (chan opcTx b (goto .ret s)) := by
  have ht : tick s = request opcTx b .ret s := by
    rw [tick_quiet hq hr]
    simp only [tickDispatch, hd, runDispatchLine, hs]
  rw [chan_goto isOpcode_tx b .ret hq]
  exact .tick_then (ht ▸ reaches_request isOpcode_tx b .ret ⟨hq, hd⟩ hr)

/-- A step is a run of the clocked machine (R211). -/
theorem reaches_of_step {s t : State} (h : step s = .next t) : Reaches s t := by
  cases stepRuns_of_step h with
  | action => exact .of_tick rfl
  | request w hr hx hq => exact reaches_executorTurn s w hx hq hr
  | busByte b hr hd hq hs => exact reaches_busByte hr hd hq hs
  | hostWord w rest hh hr hd hq => exact reaches_hostWord hh hr hd hq

/-! ### What every step keeps -/

/-- Settles O52: every action keeps the invariant, and a step is a run of actions. -/
theorem everyStepKeepsTheInvariant : Obligations.EveryStepKeepsTheInvariant :=
  fun _ _ hs h => (reaches_of_step h).keeps (P := EngineInv) (fun _ => EngineInv.tick) hs

/-- Settles O53: every action keeps the discipline together with the invariant, and a step is a run of actions. -/
theorem everyStepKeepsTheMaskingDiscipline : Obligations.EveryStepKeepsTheMaskingDiscipline := by
  intro s t hi hm h
  have hkeep (u : State) (hu : EngineInv u ∧ MaskedTrace u) : EngineInv (tick u) ∧ MaskedTrace (tick u) :=
    ⟨hu.1.tick, hu.2.tick hu.1⟩
  exact ((reaches_of_step h).keeps hkeep ⟨hi, hm⟩).2

/-- Settles O54: no action changes the configuration, and a step is a run of actions. -/
theorem configurationNeverChanges : Obligations.ConfigurationNeverChanges :=
  fun s _ h => (reaches_of_step h).keeps (P := fun u => u.cfg = s.cfg) (fun u hu => (tick_cfg u).trans hu) rfl

/-- Settles O50: each value is the one `State.resetOf` writes. -/
theorem resetValuesAreTheSpecs : Obligations.ResetValuesAreTheSpecs := by
  intro c
  exact ⟨rfl, rfl, rfl, rfl, rfl, rfl, rfl, rfl, rfl, rfl, rfl, rfl, rfl, rfl, rfl, rfl⟩

/-- Settles O51: the invariant of the reset values, an empty trace, nothing in flight. -/
theorem invariantHoldsAtReset : Obligations.InvariantHoldsAtReset :=
  ⟨engineInv_resetOf _, rfl, ⟨rfl, rfl, rfl, ⟨rfl, rfl⟩, rfl⟩⟩

end Sys2Proof.Machine

/-! ## Stages, slots and the host's inputs, action by action -/

namespace Sys2Proof.Machine

open Sys2Proof

/-! ### The executor's stages (R24) -/

theorem tickExecutor_stage (s : State) :
    (tickExecutor s).exState = s.exState ∨ (tickExecutor s).exState = s.exState.succ := by
  unfold tickExecutor
  split
  · next hx =>
    rw [hx]
    unfold popRequest
    split
    · exact .inr rfl
    · exact .inl hx
  · next hx => exact .inr (by rw [hx]; rfl)
  · next hx =>
    unfold runLine
    split
    · exact .inr (by rw [hx]; rfl)
    · next a rest _ => exact .inl (doAct_frame a { s with exStep := rest }).exState
  · next hx => exact .inr (by rw [hx]; rfl)
  · next hx =>
    rw [hx]
    unfold pushResponse
    split
    · exact .inl hx
    · exact .inr rfl

/-- Settles O23: the executor's own actions move on by one stage at most, the dispatch sequencer's by none. -/
theorem executorStagesInOrder : Obligations.ExecutorStagesInOrder := by
  intro s hr
  unfold tick tickSequencers
  rw [if_neg (by simp [hr])]
  split
  · exact tickExecutor_stage { s with hostIn := countDown s.hostIn }
  · exact .inl (tickDispatch_executorSide _).exState

/-! ### The channel's slots (R37, R205) -/

/-- A full slot keeps its value or is emptied. -/
def SlotKept {α : Type} (x y : Option α) : Prop := ∀ v, x = some v → y = some v ∨ y = none

theorem SlotKept.refl {α : Type} (x : Option α) : SlotKept x x := fun _ h => .inl h
theorem SlotKept.emptied {α : Type} (x : Option α) : SlotKept x none := fun _ _ => .inr rfl

/-- Both slots of `t` are those of `s`, or emptied, or were empty in `s`. -/
structure SlotsKept (s t : State) : Prop where
  req : SlotKept s.reqSlot t.reqSlot
  rsp : SlotKept s.rspSlot t.rspSlot

theorem popRequest_slots (s : State) : SlotsKept s (popRequest s) := by
  unfold popRequest
  split
  · exact ⟨.emptied _, .refl _⟩
  · exact ⟨.refl _, .refl _⟩

theorem pushResponse_slots (s : State) : SlotsKept s (pushResponse s) := by
  unfold pushResponse
  split
  · exact ⟨.refl _, .refl _⟩
  · next h => exact ⟨.refl _, fun r hr => by simp [h] at hr⟩

theorem popResponse_slots (s : State) : SlotsKept s (popResponse s) := by
  unfold popResponse
  split
  · exact ⟨.refl _, .emptied _⟩
  · exact ⟨.refl _, .refl _⟩

theorem runLine_slots (s : State) : SlotsKept s (runLine s) := by
  unfold runLine
  split
  · exact ⟨.refl _, .refl _⟩
  · next a rest _ =>
    have f := doAct_frame a { s with exStep := rest }
    exact ⟨fun w hw => .inl (f.reqSlot.trans hw), fun r hr => .inl (f.rspSlot.trans hr)⟩

theorem countSettle_slots (s : State) : SlotsKept s (countSettle s) := by
  unfold countSettle
  split
  · split <;> exact ⟨.refl _, .refl _⟩
  · exact ⟨.refl _, .refl _⟩

theorem tickExecutor_slots (s : State) : SlotsKept s (tickExecutor s) := by
  unfold tickExecutor
  split
  · exact popRequest_slots s
  · exact ⟨.refl _, .refl _⟩
  · exact runLine_slots s
  · exact ⟨.refl _, .refl _⟩
  · exact pushResponse_slots s

theorem tickDispatch_slots (s : State) : SlotsKept s (tickDispatch s) := by
  unfold tickDispatch
  split
  · split <;> exact ⟨.refl _, .refl _⟩
  · have f := runDispatchLine_lineFrame s
    exact ⟨fun w hw => .inl (f.reqSlot w hw), fun r hr => .inl (f.rspSlot.trans hr)⟩
  · exact popResponse_slots s
  · exact countSettle_slots s
  · split <;> exact ⟨.refl _, .refl _⟩

theorem tick_slots (s : State) : SlotsKept s (tick s) := by
  unfold tick tickSequencers
  split
  · exact ⟨.emptied _, .emptied _⟩
  · split
    · obtain ⟨h1, h2⟩ := tickExecutor_slots { s with hostIn := countDown s.hostIn }
      exact ⟨h1, h2⟩
    · obtain ⟨h1, h2⟩ := tickDispatch_slots { s with hostIn := countDown s.hostIn }
      exact ⟨h1, h2⟩

/-- Settles O25: an action that writes a slot finds it empty or empties it. -/
theorem slotsAreImmutableWhileFull : Obligations.SlotsAreImmutableWhileFull :=
  fun s => ⟨(tick_slots s).req, (tick_slots s).rsp⟩

/-! ### One host operation at a time (R220) -/

theorem runRequest_dispatchSide (s : State) : DispatchSide s (runRequest s) := by
  unfold runRequest
  split
  · rw [runTransmitByte, transmitByte_eq]
    exact ⟨by constructor <;> rfl, rfl, rfl, rfl⟩
  · split
    · rw [runDiscovery, discovery_eq]
      exact ⟨by constructor <;> rfl, rfl, rfl, rfl⟩
    · split
      · rw [runReceiveByte, receiveByte_eq]
        exact ⟨by constructor <;> rfl, rfl, rfl, rfl⟩
      · exact ⟨by constructor <;> rfl, rfl, rfl, rfl⟩

/-- A whole executor turn leaves the inputs and the profile alone. -/
theorem executorTurn_frame (s : State) :
    (executorTurn s).hostIn = s.hostIn ∧ (executorTurn s).profSel = s.profSel := by
  have h1 := popRequest_dispatchSide s
  have h2 := runRequest_dispatchSide (maskIrq (popRequest s))
  have h3 := pushResponse_dispatchSide (unmaskIrq (runRequest (maskIrq (popRequest s))))
  exact ⟨h3.hostIn.trans (h2.hostIn.trans h1.hostIn), h3.profSel.trans (h2.profSel.trans h1.profSel)⟩

/-- Outside `D_IDLE` no word is taken off the inputs. -/
theorem tickDispatch_hostIn {s : State} {w : Word} {rest : List HostInput} (hh : s.hostIn = .op w :: rest)
    (hd : s.dState ≠ .idle) : (tickDispatch s).hostIn = s.hostIn := by
  unfold tickDispatch
  split
  · next h => exact absurd h hd
  · exact (runDispatchLine_lineFrame s).hostIn
  · unfold popResponse; split <;> rfl
  · unfold countSettle
    split
    · split <;> rfl
    · rfl
  · simp [hh]

theorem tick_hostIn {s : State} {w : Word} {rest : List HostInput} (hh : s.hostIn = .op w :: rest)
    (hd : s.dState ≠ .idle) : (tick s).hostIn = s.hostIn := by
  rw [tick_noReset (by simp [resetAwaited, hh, resetNext])]
  split
  · exact (tickExecutor_dispatchSide s).hostIn
  · exact tickDispatch_hostIn hh hd

/-- With nothing outstanding the executor pops no request (R200). -/
theorem pendingRequest_quiet {s : State} (hq : s.quiet = true) : pendingRequest s = none := by
  simp [pendingRequest, ((quiet_iff s).1 hq).1]

/-- Outside `D_RUN` no bus opcode byte is sent. -/
theorem selectByte_notRunning {s : State} (hd : s.dState ≠ .run) : selectByte s = none := by
  unfold selectByte
  split
  · exact if_neg fun h => hd h.1
  · rfl

/-- With nothing outstanding and the sequencer in `D_DONE`, no instruction starts. -/
theorem fetch_done {s : State} (hd : s.dState = .done) (hq : s.quiet = true) : fetch s = none := by
  have h3 : presentedWord s = none := by
    unfold presentedWord
    split
    · simp [hd]
    · rfl
  unfold fetch
  rw [pendingRequest_quiet hq, selectByte_notRunning (by simp [hd]), h3]
  exact ite_self _

/-- Settles O43: a word is taken off the inputs in `D_IDLE` alone, and `D_DONE` waits for `take`. -/
theorem oneHostOperationAtATime : Obligations.OneHostOperationAtATime := by
  refine ⟨fun s t w rest hh hd h => ?_, fun s rest hh hd hq => ?_⟩
  · cases stepRuns_of_step h with
    | action => exact tick_hostIn hh hd
    | request => exact (executorTurn_frame s).1
    | busByte b _ _ hq => exact (chan_frame isOpcode_tx b (s := goto .ret s) hq).1.hostIn
    | hostWord _ _ _ _ hi => exact absurd hi hd
  · have hr : resetAwaited s = false := by simp [resetAwaited, hh, resetNext]
    unfold step
    rw [fetch_done hd hq]
    show (.next (tick s) : Host.Outcome State Fault Refusal) = _
    rw [tick_quiet hq hr]
    simp only [tickDispatch, hd, hh, takeResult, List.tail_cons]

end Sys2Proof.Machine

/-! ## Host operations of one request, and those without one -/

namespace Sys2Proof.Machine

open Sys2Proof

theorem whenQuiet_quiet (why : Refusal) (f : State → State) {s : State} (h : s.quiet = true) :
    whenQuiet why f s = .next (f s) := by simp [whenQuiet, h]

theorem zext32_rspOfLevel (b : Bool) : zext32 (rspOfLevel b) = if b then 0xFF else 0x00 := by
  cases b <;> rfl

/-- A host word whose bits 31:24 are one of the six codes is that operation (R100, R101). -/
theorem decodeHost_eq (w : Word) : decodeHost w =
    if w.extractLsb' 24 8 = 0x10 then .ok .hostDiscovery
    else if w.extractLsb' 24 8 = 0x11 then .ok (.hostTransmitByte (w.extractLsb' 8 8))
    else if w.extractLsb' 24 8 = 0x12 then .ok .hostReceiveByte
    else if w.extractLsb' 24 8 = 0x13 then .ok (.hostManufacturerId ((w.extractLsb' 16 3).setWidth 8))
    else if w.extractLsb' 24 8 = 0x14 then
      .ok (.hostReadBlock ((w.extractLsb' 16 3).setWidth 8) (w.extractLsb' 8 8) (w.extractLsb' 0 8))
    else if w.extractLsb' 24 8 = 0x15 then .ok (.hostSetSpeed ((w.extractLsb' 8 1).setWidth 8))
    else .error (.unknownHostOperation (w.extractLsb' 24 8)) := rfl

/-- Settles O36: the operation is one Discovery round trip, then the result. -/
theorem hostDiscoveryCompletes : Obligations.HostDiscoveryCompletes := by
  intro w s hw hq
  refine ⟨by simp [decode, decodeHost_eq, hw], ?_⟩
  rw [exec, execHostDiscovery, whenQuiet_quiet _ _ hq, singleRequest, chanDisc_trip s hq, rsp_discTrip,
    zext32_rspOfLevel]
  rfl

/-- Settles O37: the operation is one TransmitByte round trip, then the result. -/
theorem hostTransmitByteCompletes : Obligations.HostTransmitByteCompletes := by
  intro w s hw hq
  refine ⟨by simp [decode, decodeHost_eq, hw], 8, ?_⟩
  rw [exec, execHostTransmitByte, whenQuiet_quiet _ _ hq, singleRequest, chanTx_trip _ s hq, rsp_txTrip,
    zext32_rspOfLevel]
  rfl

theorem zext32_eq_append (b : Byte) : zext32 b = 0#24 ++ b := by
  revert b; decide +kernel

/-- Settles O38: the operation is one ReceiveByte round trip, then the result. -/
theorem hostReceiveByteCompletes : Obligations.HostReceiveByteCompletes := by
  intro w s hw hq
  refine ⟨by simp [decode, decodeHost_eq, hw], 8, ?_⟩
  rw [exec, execHostReceiveByte, whenQuiet_quiet _ _ hq, singleRequest, chanRx_trip _ s hq, rsp_rxTrip,
    zext32_eq_append]
  rfl

/-- The speed `setSpeed` writes is bit 8 of its word (R101, R226). -/
theorem speedBit (w : Word) : ((w.extractLsb' 8 1).setWidth 8).extractLsb' 0 1 = w.extractLsb' 8 1 := by
  generalize w.extractLsb' 8 1 = b
  revert b; decide

/-- Settles O39: bit 8 is the speed, and nothing else is written but the result. -/
theorem hostSetSpeedSelectsTheProfile : Obligations.HostSetSpeedSelectsTheProfile := by
  intro w s hw hq
  refine ⟨by simp [decode, decodeHost_eq, hw], ?_⟩
  rw [exec, execHostSetSpeed, whenQuiet_quiet _ _ hq, setSpeed, speedBit]
  rfl

/-- Settles O31: the range check is the first line of `readBlock`. -/
theorem blockOutOfRangeIsRejected : Obligations.BlockOutOfRangeIsRejected := by
  intro dev start length s hq hr
  rw [exec, execHostReadBlock, whenQuiet_quiet _ _ hq, readBlock, if_pos ((blockOutOfRange_iff _ _).2 hr)]
  rfl

/-- A block in range begins with its Discovery, and ends there where nothing answers (R180). -/
theorem readBlock_inRange {dev start length : Byte} {s : State} (hq : s.quiet = true)
    (hr : start.toNat + length.toNat ≤ 128) :
    readBlock dev start length s =
      if levelAt s 0 then (some .noDevice, discTrip s)
      else blockLoop dev start length.toNat (clearIdx (discTrip s)) := by
  have hb : ¬ blockOutOfRange start length = true := by rw [blockOutOfRange_iff]; omega
  simp only [readBlock, if_neg hb, chanDisc_trip s hq, rsp_discTrip, rspOfLevel_ne_ack]

/-- Settles O32: a block in range begins with its Discovery. -/
theorem blockWithoutDeviceStops : Obligations.BlockWithoutDeviceStops := by
  intro dev start length s hq hr hl
  rw [exec, execHostReadBlock, whenQuiet_quiet _ _ hq, readBlock_inRange hq hr, if_pos hl]
  rfl

/-- A host word presented to an idle engine is fetched (R220). -/
theorem fetch_presented {s : State} {w : Word} {rest : List HostInput} (hh : s.hostIn = .op w :: rest)
    (hr : resetNext rest = false) (hd : s.dState = .idle) (hq : s.quiet = true) :
    fetch s = some (.host w, acceptHost w s) := by
  have h0 : resetAwaited s = false := by simp [resetAwaited, hh, resetNext]
  have h3 : presentedWord s = some w := by simp [presentedWord, hh, hr, hd, hq]
  unfold fetch
  rw [h0, pendingRequest_quiet hq, selectByte_notRunning (by simp [hd]), h3]
  rfl

/-- A word whose bits 31:24 are none of the six codes is no operation (R102). -/
theorem decodeHost_unknown {w : Word}
    (hw : (w.extractLsb' 24 8).toNat < 0x10 ∨ 0x15 < (w.extractLsb' 24 8).toNat) :
    decodeHost w = .error (.unknownHostOperation (w.extractLsb' 24 8)) := by
  have hne (c : Byte) (hc : 0x10 ≤ c.toNat ∧ c.toNat ≤ 0x15) : w.extractLsb' 24 8 ≠ c := by
    rintro rfl; omega
  rw [decodeHost_eq, if_neg (hne _ (by decide)), if_neg (hne _ (by decide)), if_neg (hne _ (by decide)),
    if_neg (hne _ (by decide)), if_neg (hne _ (by decide)), if_neg (hne _ (by decide))]

/-- Settles O40: the word is fetched, decodes to nothing, and the error is written. -/
theorem unknownHostOperationIsAnError : Obligations.UnknownHostOperationIsAnError := by
  intro w rest s hw hh hr hd hq
  unfold step
  rw [fetch_presented hh hr hd hq]
  simp only [decode, decodeHost_unknown hw, runUnknownCode, execHostUnknown, finishErr, finish, acceptHost, hh,
    List.tail_cons]
  rfl

/-! ### `manufacturerId` (R172, R224) -/

/-- The three bytes of an id are three round trips (R172). -/
theorem receiveId_trips {s : State} (hq : s.quiet = true) :
    receiveId s = withAcc
      (packId (byteMsbFirst (levelAt s)) (byteMsbFirst fun j => levelAt s (8 + j))
        (byteMsbFirst fun j => levelAt s (16 + j)))
      (rxTrip 8 false (rxTrip 8 true (rxTrip 8 true s))) := by
  have h8 : levelAt (rxTrip 8 true s) = fun j => levelAt s (8 + j) := by
    funext j; exact levelAt_rxTrip ..
  have h16 : levelAt (rxTrip 8 true (rxTrip 8 true s)) = fun j => levelAt s (16 + j) := by
    funext j
    rw [levelAt_rxTrip, levelAt_rxTrip, ← Nat.add_assoc]
  unfold receiveId
  simp only [chanRx_trip true s hq, chanRx_trip true (rxTrip 8 true s) hq,
    chanRx_trip false (rxTrip 8 true (rxTrip 8 true s)) hq, rsp_rxTrip, h8, h16]
  rfl

theorem readManufacturerId_trips {dev : Byte} {s : State} (hq : s.quiet = true) :
    readManufacturerId dev s =
      let s2 := txTrip 8 (devByte busOpcMfgId dev true) (discTrip s)
      if levelAt s 0 then (0, discTrip s)
      else if levelAt s 1 then (0, s2)
      else ((receiveId s2).acc, receiveId s2) := by
  have h1 : (discTrip s).quiet = true := hq
  simp only [readManufacturerId, sendMfgidR, chanDisc_trip s hq, chanTx_trip _ _ h1, rsp_discTrip, rsp_txTrip,
    rspOfLevel_ne_ack, levelAt_discTrip, Nat.add_zero]

/-- Settles O30: the Discovery, the opcode byte and the three bytes as round trips. -/
theorem manufacturerIdOutcomes : Obligations.ManufacturerIdOutcomes := by
  intro w s hw hq
  refine ⟨by simp [decode, decodeHost_eq, hw], 8, ?_⟩
  have hq2 (b : Byte) : (txTrip 8 b (discTrip s)).quiet = true := hq
  have hl (b : Byte) : levelAt (txTrip 8 b (discTrip s)) = fun j => levelAt s (2 + j) := by
    funext j
    rw [levelAt_txTrip, levelAt_discTrip, ← Nat.add_assoc]
  rw [exec, execHostManufacturerId, whenQuiet_quiet _ _ hq, finishManufacturerId, readManufacturerId_trips hq]
  dsimp only
  split
  · rfl
  · split
    · rfl
    · rw [receiveId_trips (hq2 _), hl]
      simp only [← Nat.add_assoc]
      rfl

end Sys2Proof.Machine

/-! ## What the procedures keep

Every procedure of the dispatch sequencer is made of round trips, settle delays and writes of its own registers. What these
keep, the procedures keep. -/

namespace Sys2Proof.Machine

open Sys2Proof

/-! ### The principle -/

/-- What a `verifiedRead` is made of keeps `P`. -/
structure KeptByReads (P : State → Prop) : Prop where
  chan    : ∀ {opc : Byte} (payload : Byte) {s : State}, IsOpcode opc → s.quiet = true → P s → P (chan opc payload s)
  idle    : ∀ (us : Nat) {s : State}, P s → P (delayDispatch us s)
  samples : ∀ (k : Pass) (r : Result) {s : State}, P s → P (setSample k r s)

/-- What a block read is made of keeps `P`. -/
structure KeptByBlock (P : State → Prop) : Prop extends KeptByReads P where
  clear   : ∀ {s : State}, P s → P (clearIdx s)
  curAddr : ∀ (start : Byte) {s : State}, P s → P (setCurAddr start s)
  store   : ∀ (b : Byte) {s : State}, P s → P (storeByte b s)

section Reads

variable {P : State → Prop} (hP : KeptByReads P) (dev a : Byte) {s : State}
include hP

theorem KeptByReads.loadAddress (h : AtLine s) (hs : P s) : P (Sys2Proof.Machine.loadAddress dev a s).2 := by
  unfold Sys2Proof.Machine.loadAddress
  split
  · exact hs
  · have h1 := chan_frame isOpcode_tx (devByte busOpcEeprom dev false) h.quiet
    have p1 := hP.chan (devByte busOpcEeprom dev false) isOpcode_tx h.quiet hs
    dsimp only [sendEepromW]
    split
    · exact p1
    · split <;> exact hP.chan a isOpcode_tx h1.2.2.quiet p1

theorem KeptByReads.readByte (h : AtLine s) (hs : P s) : P (Sys2Proof.Machine.readByte dev a s).2 := by
  have p1 := hP.loadAddress dev a h hs
  have f1 := loadAddress_frame dev a h
  unfold Sys2Proof.Machine.readByte
  generalize Sys2Proof.Machine.loadAddress dev a s = r at p1 f1 ⊢
  obtain ⟨e, s1⟩ := r
  cases e with
  | some e => exact p1
  | none =>
    have f2 := delayDispatch_frame s1.cfg.params.tSettleA f1.2.2.quiet
    have f3 := chan_frame isOpcode_tx (devByte busOpcEeprom dev true) f2.2.2.quiet
    have p3 := hP.chan (devByte busOpcEeprom dev true) isOpcode_tx f2.2.2.quiet (hP.idle _ p1)
    dsimp only [sendEepromR]
    split
    · exact p3
    · exact hP.idle _ (hP.chan _ isOpcode_rx f3.2.2.quiet p3)

theorem KeptByReads.takeSample (k : Pass) (h : AtLine s) (hs : P s) :
    P (Sys2Proof.Machine.takeSample k dev a s) :=
  hP.samples k _ (hP.readByte dev a h hs)

theorem KeptByReads.verifiedRead (h : AtLine s) (hs : P s) : P (Sys2Proof.Machine.verifiedRead dev a s).2 := by
  have f1 := takeSample_frame .first dev a h
  have f2 := takeSample_frame .second dev a f1.2
  have p2 := hP.takeSample dev a .second f1.2 (hP.takeSample dev a .first h hs)
  unfold Sys2Proof.Machine.verifiedRead
  dsimp only
  split
  · exact p2
  · exact hP.takeSample dev a .third f2.2 p2

end Reads

section Blocks

variable {P : State → Prop} (hP : KeptByBlock P) (dev start : Byte) {s : State}
include hP

theorem KeptByBlock.blockLoop (n : Nat) (h : AtLine s) (hs : P s) :
    P (Sys2Proof.Machine.blockLoop dev start n s).2 := by
  induction n generalizing s with
  | zero => exact hs
  | succ n ih =>
    have h1 : AtLine (setCurAddr start s) := ⟨h.quiet, h.run⟩
    have f := verifiedRead_frame dev (setCurAddr start s).curAddr h1
    have p := hP.verifiedRead dev (setCurAddr start s).curAddr h1 (hP.curAddr start hs)
    unfold Sys2Proof.Machine.blockLoop
    generalize Sys2Proof.Machine.verifiedRead dev (setCurAddr start s).curAddr (setCurAddr start s) = r at f p ⊢
    obtain ⟨r, s1⟩ := r
    cases r with
    | err e => exact p
    | val b => exact ih (storeByte_atLine b f.2) (hP.store b p)

theorem KeptByBlock.readBlock (length : Byte) (hq : s.quiet = true) (hs : P s) :
    P (Sys2Proof.Machine.readBlock dev start length s).2 := by
  have f := chan_frame isOpcode_disc 0 hq
  have p := hP.chan 0 isOpcode_disc hq hs
  unfold Sys2Proof.Machine.readBlock
  split
  · exact hs
  · dsimp only
    split
    · exact p
    · exact hP.blockLoop dev start _ ⟨f.2.2.quiet, f.2.2.run⟩ (hP.clear p)

end Blocks

/-- The id read, where the write of `acc` keeps `P` too. -/
theorem KeptByReads.readManufacturerId {P : State → Prop} (hP : KeptByReads P)
    (hacc : ∀ (b0 b1 b2 : Byte) {s : State}, P s → P (setAcc b0 b1 b2 s)) (dev : Byte) {s : State}
    (hq : s.quiet = true) (hs : P s) : P (Sys2Proof.Machine.readManufacturerId dev s).2 := by
  have f1 := chan_frame isOpcode_disc 0 hq
  have p1 := hP.chan 0 isOpcode_disc hq hs
  have f2 := chan_frame isOpcode_tx (devByte busOpcMfgId dev true) f1.2.2.quiet
  have p2 := hP.chan (devByte busOpcMfgId dev true) isOpcode_tx f1.2.2.quiet p1
  unfold Sys2Proof.Machine.readManufacturerId
  dsimp only [sendMfgidR]
  split
  · exact p1
  · split
    · exact p2
    · have f3 := chan_frame isOpcode_rx (ackPayload true) f2.2.2.quiet
      have p3 := hP.chan (ackPayload true) isOpcode_rx f2.2.2.quiet p2
      have f4 := chan_frame isOpcode_rx (ackPayload true) f3.2.2.quiet
      have p4 := hP.chan (ackPayload true) isOpcode_rx f3.2.2.quiet p3
      exact hacc _ _ _ (hP.chan (ackPayload false) isOpcode_rx f4.2.2.quiet p4)

/-! ### What they keep -/

/-- A round trip ends quiescent where it began so. -/
theorem Quiescent.chan {opc : Byte} (payload : Byte) {s : State} (ho : IsOpcode opc) (h : Quiescent s) :
    Quiescent (Sys2Proof.Machine.chan opc payload s) := by
  have hq := h.channelEmpty
  obtain ⟨hm, hp, hd, -⟩ := chan_executor ho payload hq
  obtain ⟨h1, h2⟩ := chan_counts ho payload hq
  refine ⟨(chan_frame ho payload hq).2.2.quiet, hm, hp, ⟨hd, ?_⟩, by rw [h1, h2, h.countsEqual]⟩
  rcases ho with rfl | rfl | rfl
  · rw [chanTx_eq _ _ hq]; exact h.countersZero.2
  · rw [chanDisc_eq _ _ hq]; exact h.countersZero.2
  · rw [chanRx_eq _ _ hq]; exact h.countersZero.2

/-- Writes outside the channel, the executor and the counters leave an engine quiescent. -/
theorem Quiescent.of_same {s t : State} (h : Quiescent s) (hq : t.quiet = s.quiet) (hm : t.irqDis = s.irqDis)
    (hp : t.pinDir = s.pinDir) (hc : t.dlyCnt = s.dlyCnt) (hd : t.dlyD = s.dlyD) (hr : t.reqCount = s.reqCount)
    (hr' : t.rspCount = s.rspCount) : Quiescent t :=
  ⟨hq.trans h.channelEmpty, hm.trans h.maskOpen, hp.trans h.pinReleased,
    ⟨hc.trans h.countersZero.1, hd.trans h.countersZero.2⟩, hr.trans (h.countsEqual.trans hr'.symm)⟩

theorem quiescent_kept : KeptByBlock Quiescent where
  chan payload _ ho _ h := h.chan payload ho
  idle _ _ h := ⟨h.channelEmpty, h.maskOpen, h.pinReleased, ⟨h.countersZero.1, rfl⟩, h.countsEqual⟩
  samples k _ _ h := by cases k <;> exact h.of_same rfl rfl rfl rfl rfl rfl rfl
  clear h := h.of_same rfl rfl rfl rfl rfl rfl rfl
  curAddr _ _ h := h.of_same rfl rfl rfl rfl rfl rfl rfl
  store _ _ h := h.of_same rfl rfl rfl rfl rfl rfl rfl

theorem operationFrame_kept (s : State) : KeptByBlock (OperationFrame s) where
  chan payload t ho hq h := by
    have f := (chan_frame ho payload hq).1
    exact ⟨f.cfg.trans h.cfg, f.hostIn.trans h.hostIn, f.pinLatch.trans h.pinLatch, f.opWord.trans h.opWord,
      f.profSel.trans h.profSel⟩
  idle _ _ h := ⟨h.cfg, h.hostIn, h.pinLatch, h.opWord, h.profSel⟩
  samples k _ _ h := by cases k <;> exact ⟨h.cfg, h.hostIn, h.pinLatch, h.opWord, h.profSel⟩
  clear h := ⟨h.cfg, h.hostIn, h.pinLatch, h.opWord, h.profSel⟩
  curAddr _ _ h := ⟨h.cfg, h.hostIn, h.pinLatch, h.opWord, h.profSel⟩
  store _ _ h := ⟨h.cfg, h.hostIn, h.pinLatch, h.opWord, h.profSel⟩

theorem OperationFrame.refl (s : State) : OperationFrame s s := ⟨rfl, rfl, rfl, rfl, rfl⟩

/-- `acc` is the manufacturer id's alone (R172). -/
theorem acc_kept (x : Word) : KeptByBlock (fun t => t.acc = x) where
  chan payload _ ho hq h := (chan_frame ho payload hq).1.acc.trans h
  idle _ _ h := h
  samples k _ _ h := by cases k <;> exact h
  clear h := h
  curAddr _ _ h := h
  store _ _ h := h

/-- Every request is answered (R207): as many responses as requests since `s`. -/
def Answered (s t : State) : Prop := t.reqCount + s.rspCount = s.reqCount + t.rspCount

theorem answered_kept (s : State) : KeptByBlock (Answered s) where
  chan payload t ho hq h := by
    obtain ⟨h1, h2⟩ := chan_counts ho payload hq
    unfold Answered at h ⊢
    omega
  idle _ _ h := h
  samples k _ _ h := by cases k <;> exact h
  clear h := h
  curAddr _ _ h := h
  store _ _ h := h

theorem quiet_kept : KeptByBlock (fun t => t.quiet = true) where
  chan payload _ ho hq _ := (chan_frame ho payload hq).2.2.quiet
  idle _ _ h := h
  samples k _ _ h := by cases k <;> exact h
  clear h := h
  curAddr _ _ h := h
  store _ _ h := h

/-! ### The end of a host operation (R229) -/

theorem Quiescent.finish {s : State} (h : Quiescent s) (status : Byte) (data : Word) (len : Byte) :
    Quiescent (Sys2Proof.Machine.finish status data len s) := h.of_same rfl rfl rfl rfl rfl rfl rfl

/-- The end of a block writes the result registers alone. -/
theorem finishBlock_eq (length : Byte) (r : Option ErrCode × State) :
    finishBlock length r = match r.1 with
      | none => finish 0 0 length r.2
      | some e => finish e.status 0 0 r.2 := by
  obtain ⟨e, s⟩ := r
  cases e <;> rfl

theorem Quiescent.finishBlock {length : Byte} {r : Option ErrCode × State} (h : Quiescent r.2) :
    Quiescent (Sys2Proof.Machine.finishBlock length r) ∧ (Sys2Proof.Machine.finishBlock length r).resValid = true ∧
      (Sys2Proof.Machine.finishBlock length r).dState = .done := by
  rw [finishBlock_eq]
  split <;> exact ⟨h.finish .., rfl, rfl⟩

/-- Settles O42: each operation is a procedure that keeps quiescence, then the result. -/
theorem hostOperationsEndQuiescent : Obligations.HostOperationsEndQuiescent := by
  intro s dev start length b h i hi
  have hq := h.channelEmpty
  have hsingle {opc : Byte} (payload : Byte) (ho : IsOpcode opc) :
      Quiescent (singleRequest opc payload s) := (h.chan payload ho).finish ..
  simp only [List.mem_cons, List.not_mem_nil, or_false] at hi
  rcases hi with rfl | rfl | rfl | rfl | rfl | rfl
  · exact ⟨_, whenQuiet_quiet _ _ hq, hsingle _ isOpcode_disc, rfl, rfl⟩
  · exact ⟨_, whenQuiet_quiet _ _ hq, hsingle _ isOpcode_tx, rfl, rfl⟩
  · exact ⟨_, whenQuiet_quiet _ _ hq, hsingle _ isOpcode_rx, rfl, rfl⟩
  · have hid := quiescent_kept.readManufacturerId (fun _ _ _ _ h => h.of_same rfl rfl rfl rfl rfl rfl rfl) dev hq h
    exact ⟨_, whenQuiet_quiet _ _ hq, hid.finish .., rfl, rfl⟩
  · exact ⟨_, whenQuiet_quiet _ (fun s => finishBlock length (readBlock dev start length s)) hq,
      (quiescent_kept.readBlock dev start length hq h).finishBlock⟩
  · have hset : Quiescent (setSpeed b s) := h.of_same rfl rfl rfl rfl rfl rfl rfl
    exact ⟨_, whenQuiet_quiet _ (fun s => finish 0 0 0 (setSpeed b s)) hq, hset.finish .., rfl, rfl⟩

/-! ### The profile (R28, R291) -/

/-- The operand of a `setSpeed` is the field of its word (R100, R101). -/
theorem decodeHost_setSpeed {w : Word} {speed : Byte} (h : decodeHost w = .ok (.hostSetSpeed speed)) :
    w.extractLsb' 24 8 = 0x15 ∧ speed.extractLsb' 0 1 = w.extractLsb' 8 1 := by
  unfold decodeHost at h
  repeat' split at h
  all_goals cases h
  exact ⟨‹opcodeField w = hopSetSpeed›, speedBit w⟩

/-- Of the host operations `setSpeed` alone writes `prof_sel`. -/
theorem runHostOperation_profSel {s : State} (hq : s.quiet = true) :
    (runHostOperation s).profSel = s.profSel ∨
      ∃ speed, decodeHost s.opWord = .ok (.hostSetSpeed speed) ∧
        (runHostOperation s).profSel = speed.extractLsb' 0 1 := by
  have hf := operationFrame_kept s
  have hs := OperationFrame.refl s
  unfold runHostOperation
  split
  · exact .inl (chan_frame isOpcode_disc _ hq).1.profSel
  · exact .inl (chan_frame isOpcode_tx _ hq).1.profSel
  · exact .inl (chan_frame isOpcode_rx _ hq).1.profSel
  · next dev _ =>
    exact .inl (hf.readManufacturerId (fun _ _ _ _ h => ⟨h.cfg, h.hostIn, h.pinLatch, h.opWord, h.profSel⟩)
      dev hq hs).profSel
  · next dev start length _ =>
    have hb := (hf.readBlock dev start length hq hs).profSel
    rw [finishBlock_eq]
    split <;> exact .inl hb
  · next speed hw => exact .inr ⟨speed, hw, rfl⟩
  · exact .inl rfl

theorem tickDispatch_profSel (s : State) :
    (tickDispatch s).profSel = s.profSel ∨ (s.dState = .run ∧ s.dStep = .entry ∧
      ∃ speed, decodeHost s.opWord = .ok (.hostSetSpeed speed) ∧
        (tickDispatch s).profSel = speed.extractLsb' 0 1) := by
  unfold tickDispatch
  split
  · split <;> exact .inl rfl
  · next hd => exact (runDispatchLine_lineFrame s).profSel.imp id fun h => ⟨hd, h⟩
  · exact .inl (by unfold popResponse; split <;> rfl)
  · refine .inl ?_
    unfold countSettle
    split
    · split <;> rfl
    · rfl
  · split <;> exact .inl rfl

/-- An action that changes `prof_sel` is a reset or the first line of a `setSpeed`. -/
theorem tick_profSel (s : State) :
    (tick s).profSel = s.profSel ∨ (resetNow s = true ∧ (tick s).profSel = s.cfg.params.defaultSpeed) ∨
      (s.dState = .run ∧ s.dStep = .entry ∧
        ∃ speed, decodeHost s.opWord = .ok (.hostSetSpeed speed) ∧ (tick s).profSel = speed.extractLsb' 0 1) := by
  unfold tick tickSequencers
  split
  · next hr => exact .inr (.inl ⟨hr, rfl⟩)
  · split
    · exact .inl (tickExecutor_dispatchSide _).profSel
    · exact (tickDispatch_profSel { s with hostIn := countDown s.hostIn }).imp id .inr

/-- Settles O55: of the four things a step can be, two can write `prof_sel`. -/
theorem onlySetSpeedChangesTheProfile : Obligations.OnlySetSpeedChangesTheProfile := by
  intro s t hi h hc
  cases stepRuns_of_step h with
  | action =>
    rcases tick_profSel s with hp | hr | ⟨hd, he, speed, hw, hp⟩
    · exact absurd hp hc
    · exact .inl hr
    · obtain ⟨h15, hb⟩ := decodeHost_setSpeed hw
      have f := hi.running hd
      exact .inr ⟨(quiet_iff s).2 ⟨f.reqEmpty, f.rspEmpty, f.waiting⟩, s.opWord, h15, hp.trans hb, .inr ⟨hd, he, rfl⟩⟩
  | request => exact absurd (executorTurn_frame s).2 hc
  | busByte b _ _ hq => exact absurd (chan_frame isOpcode_tx b (s := goto .ret s) hq).1.profSel hc
  | hostWord w rest hh _ hd hq =>
    have hq' : (acceptHost w s).quiet = true := hq
    rcases runHostOperation_profSel hq' with hp | ⟨speed, hw, hp⟩
    · exact absurd hp hc
    · obtain ⟨h15, hb⟩ := decodeHost_setSpeed hw
      exact .inr ⟨hq, w, h15, hp.trans hb, .inl ⟨hd, by rw [hh]; rfl⟩⟩

end Sys2Proof.Machine

/-! ## Block reads

How far a procedure has advanced: the levels drawn, the requests made, the events added. Then `readByte` as the round
trips it makes, and the block loop address by address. -/

namespace Sys2Proof.Machine

open Sys2Proof

/-! ### Advancing -/

/-- From `s` to `t`: `n` levels drawn, `r` requests made and answered, the events `l` added. -/
structure Advance (n r : Nat) (l : List Event) (s t : State) : Prop where
  lineIn   : t.lineIn = s.lineIn.drop n
  drawn    : t.drawn = s.drawn + n
  reqCount : t.reqCount = s.reqCount + r
  rspCount : t.rspCount = s.rspCount + r
  trace    : t.trace = s.trace ++ l

theorem Advance.trans {n n' r r' : Nat} {l l' : List Event} {s t u : State} (h : Advance n r l s t)
    (h' : Advance n' r' l' t u) : Advance (n + n') (r + r') (l ++ l') s u where
  lineIn := by rw [h'.lineIn, h.lineIn, List.drop_drop]
  drawn := by rw [h'.drawn, h.drawn, Nat.add_assoc]
  reqCount := by rw [h'.reqCount, h.reqCount, Nat.add_assoc]
  rspCount := by rw [h'.rspCount, h.rspCount, Nat.add_assoc]
  trace := by rw [h'.trace, h.trace, List.append_assoc]

theorem Advance.levelAt {n r : Nat} {l : List Event} {s t : State} (h : Advance n r l s t) (j : Nat) :
    Sys2Proof.Machine.levelAt t j = Sys2Proof.Machine.levelAt s (n + j) :=
  levelAt_drop s t n j h.lineIn h.drawn

theorem txTrip_advance (n : BitVec 4) (b : Byte) (s : State) :
    Advance 1 1 (underMask (transmitEvents s.profile b (levelAt s 0))) s (txTrip n b s) := ⟨rfl, rfl, rfl, rfl, rfl⟩

theorem rxTrip_advance (n : BitVec 4) (a : Bool) (s : State) :
    Advance 8 1 (underMask (receiveEvents s.profile (levelAt s) a)) s (rxTrip n a s) := ⟨rfl, rfl, rfl, rfl, rfl⟩

theorem discTrip_advance (s : State) :
    Advance 1 1 (underMask (discoveryEvents s.cfg.params (levelAt s 0))) s (discTrip s) := ⟨rfl, rfl, rfl, rfl, rfl⟩

theorem idleFor_advance (us : Nat) (s : State) : Advance 0 0 [.idle us] s (idleFor us s) := ⟨rfl, rfl, rfl, rfl, rfl⟩

/-- The Read Sample Set is no part of it. -/
theorem Advance.setSample {n r : Nat} {l : List Event} {s t : State} (h : Advance n r l s t) (k : Pass) (v : Result) :
    Advance n r l s (Sys2Proof.Machine.setSample k v t) := by
  obtain ⟨h1, h2, h3, h4, h5⟩ := h
  cases k <;> exact ⟨h1, h2, h3, h4, h5⟩

/-! ### `readByte` as round trips (R175) -/

/-- After the write-intent byte, and after the address byte (R171). -/
def selectTrip (dev : Byte) (s : State) : State := txTrip 8 (devByte busOpcEeprom dev false) s
def addressTrip (dev a : Byte) (s : State) : State := txTrip 8 a (selectTrip dev s)

/-- After the read-intent byte, and after the whole single-byte read (R175). -/
def intentTrip (dev a : Byte) (s : State) : State :=
  txTrip 8 (devByte busOpcEeprom dev true) (idleFor s.cfg.params.tSettleA (addressTrip dev a s))
def readTrip (dev a : Byte) (s : State) : State :=
  idleFor s.cfg.params.tSettleB (rxTrip 8 false (intentTrip dev a s))

theorem addrOutOfRange_false {a : Byte} (ha : a.toNat ≤ 127) : addrOutOfRange a = false := by
  simp [addrOutOfRange, ha]

theorem loadAddress_trips {dev a : Byte} {s : State} (hq : s.quiet = true) (ha : a.toNat ≤ 127) :
    loadAddress dev a s =
      if levelAt s 0 then (some .wselNack, selectTrip dev s)
      else if levelAt s 1 then (some .addrNack, addressTrip dev a s)
      else (none, addressTrip dev a s) := by
  have hq1 : (txTrip 8 (devByte busOpcEeprom dev false) s).quiet = true := hq
  simp only [loadAddress, addrOutOfRange_false ha, Bool.false_eq_true, if_false, sendEepromW, chanTx_trip _ s hq,
    chanTx_trip _ _ hq1, rsp_txTrip, rspOfLevel_ne_ack, levelAt_txTrip, Nat.add_zero]
  rfl

/-- `readByte` of an address within the device: the first NACK of its three bytes ends it, else it returns the byte. -/
theorem readByte_trips {dev a : Byte} {s : State} (hq : s.quiet = true) (ha : a.toNat ≤ 127) :
    readByte dev a s =
      if levelAt s 0 then (.err .wselNack, selectTrip dev s)
      else if levelAt s 1 then (.err .addrNack, addressTrip dev a s)
      else if levelAt s 2 then (.err .rselNack, intentTrip dev a s)
      else (.val (byteMsbFirst (levelAt (intentTrip dev a s))), readTrip dev a s) := by
  have hq2 : (idleFor s.cfg.params.tSettleA (addressTrip dev a s)).quiet = true := hq
  have hq3 : (intentTrip dev a s).quiet = true := hq
  have hl : levelAt (idleFor s.cfg.params.tSettleA (addressTrip dev a s)) 0 = levelAt s 2 := by
    rw [levelAt_idleFor, addressTrip, levelAt_txTrip, selectTrip, levelAt_txTrip]
  have h3 : sendEepromR dev (delayDispatch s.cfg.params.tSettleA (addressTrip dev a s)) = intentTrip dev a s :=
    chanTx_trip _ _ hq2
  unfold readByte
  rw [loadAddress_trips hq ha]
  have hc : (addressTrip dev a s).cfg = s.cfg := rfl
  have h4 : (intentTrip dev a s).rsp = rspOfLevel (levelAt s 2) := congrArg rspOfLevel hl
  cases h0 : levelAt s 0 with
  | true => rfl
  | false =>
    cases h1 : levelAt s 1 with
    | true => rfl
    | false =>
      simp only [Bool.false_eq_true, if_false, hc, h3, h4, chanRx_trip false _ hq3, rsp_rxTrip, rspOfLevel_ne_ack]
      rfl

/-! ### A device that answers (R175, R177) -/

theorem byteMsbFirst_getLsbD (d : Byte) : byteMsbFirst (fun j => d.getLsbD (7 - j)) = d := by
  revert d; decide +kernel

/-- A received byte and its events are made of the next eight levels alone. -/
theorem byteMsbFirst_of_bits {f : Nat → Bool} {d : Byte} (h : ∀ j < 8, f j = d.getLsbD (7 - j)) :
    byteMsbFirst f = d := by
  rw [← byteMsbFirst_getLsbD d]
  unfold byteMsbFirst
  rw [h 0 (by decide), h 1 (by decide), h 2 (by decide), h 3 (by decide), h 4 (by decide), h 5 (by decide),
    h 6 (by decide), h 7 (by decide)]

theorem receiveEvents_of_bits {f g : Nat → Bool} (p : Profile) (a : Bool) (h : ∀ j < 8, f j = g j) :
    receiveEvents p f a = receiveEvents p g a := by
  unfold receiveEvents
  congr 1
  exact List.flatMap_congr fun j hj => by rw [h j (List.mem_range.1 hj)]

theorem intentTrip_levelAt (dev a : Byte) (s : State) (j : Nat) :
    levelAt (intentTrip dev a s) j = levelAt s (3 + j) := by
  rw [intentTrip, levelAt_txTrip, levelAt_idleFor, addressTrip, levelAt_txTrip, selectTrip, levelAt_txTrip]
  congr 1
  omega

/-- Where the next levels are those of a read answered with `d`, the read returns `d`. -/
theorem readByte_answered {dev a d : Byte} {s : State} (hq : s.quiet = true) (ha : a.toNat ≤ 127)
    (hr : ReadsAs s 0 d) : readByte dev a s = (.val d, readTrip dev a s) := by
  obtain ⟨hack, hbits⟩ := hr
  have h0 : levelAt s 0 = false := hack 0 (by decide)
  have h1 : levelAt s 1 = false := hack 1 (by decide)
  have h2 : levelAt s 2 = false := hack 2 (by decide)
  have hd : byteMsbFirst (levelAt (intentTrip dev a s)) = d :=
    byteMsbFirst_of_bits fun j hj => by rw [intentTrip_levelAt, ← hbits j hj, Nat.zero_add]
  rw [readByte_trips hq ha, h0, h1, h2, hd]
  rfl

/-- Such a read draws eleven levels, makes four requests and adds its events. -/
theorem readTrip_advance {dev a d : Byte} {s : State} (hr : ReadsAs s 0 d) :
    Advance 11 4 (readByteEvents s.cfg.params s.profile dev a d) s (readTrip dev a s) := by
  obtain ⟨hack, hbits⟩ := hr
  have h1 := txTrip_advance 8 (devByte busOpcEeprom dev false) s
  have h2 := txTrip_advance 8 a (selectTrip dev s)
  have h3 := idleFor_advance s.cfg.params.tSettleA (addressTrip dev a s)
  have h4 := txTrip_advance 8 (devByte busOpcEeprom dev true) (idleFor s.cfg.params.tSettleA (addressTrip dev a s))
  have h5 := rxTrip_advance 8 false (intentTrip dev a s)
  have h6 := idleFor_advance s.cfg.params.tSettleB (rxTrip 8 false (intentTrip dev a s))
  have l1 : levelAt s 0 = false := hack 0 (by decide)
  have l2 : levelAt (selectTrip dev s) 0 = false := (h1.levelAt 0).trans (hack 1 (by decide))
  have l4 : levelAt (idleFor s.cfg.params.tSettleA (addressTrip dev a s)) 0 = false :=
    (((h1.trans h2).trans h3).levelAt 0).trans (hack 2 (by decide))
  have l5 : ∀ j < 8, levelAt (intentTrip dev a s) j = d.getLsbD (7 - j) := fun j hj => by
    rw [intentTrip_levelAt, ← hbits j hj, Nat.zero_add]
  rw [l1] at h1
  rw [l2] at h2
  rw [l4] at h4
  rw [receiveEvents_of_bits _ _ l5] at h5
  exact ((((h1.trans h2).trans h3).trans h4).trans h5).trans h6

/-- What the device sends in the levels from `n + base` on, it sends from `base` on once `n` levels are drawn. -/
theorem ReadsAs.of_advance {n r base : Nat} {l : List Event} {d : Byte} {s t : State} (ha : Advance n r l s t)
    (h : ReadsAs s (n + base) d) : ReadsAs t base d := by
  refine ⟨fun j hj => ?_, fun j hj => ?_⟩
  · rw [ha.levelAt, ← h.1 j hj, Nat.add_assoc]
  · rw [ha.levelAt, ← h.2 j hj]
    congr 1
    omega

theorem SameOp.profile {s t : State} (h : SameOp s t) : t.profile = s.profile := by
  unfold State.profile
  rw [h.profSel, h.cfg]

/-- The two samples of an address over a device that answers both with `d` agree (R177). -/
theorem verifiedRead_answered {dev a d : Byte} {s : State} (h : AtLine s) (ha : a.toNat ≤ 127)
    (h1 : ReadsAs s 0 d) (h2 : ReadsAs s 11 d) :
    ∃ t, verifiedRead dev a s = (.val d, t) ∧
      Advance 22 8 (readByteEvents s.cfg.params s.profile dev a d ++ readByteEvents s.cfg.params s.profile dev a d) s
        t := by
  have e1 := readByte_answered (dev := dev) h.quiet ha h1
  have f1 := readByte_frame dev a h
  have a1 := (readTrip_advance (dev := dev) (a := a) h1).setSample .first (.val d)
  rw [e1] at f1
  unfold verifiedRead takeSample
  rw [e1]
  generalize readTrip dev a s = t1 at f1 a1 ⊢
  have f1' := f1.1.trans (setSample_sameOp .first (.val d) t1)
  have g1 : (setSample .first (.val d) t1).samp0 = .val d := rfl
  have h1' := setSample_atLine .first (.val d) f1.2.2
  generalize setSample .first (.val d) t1 = t2 at f1' g1 h1' a1 ⊢
  have r2 : ReadsAs t2 0 d := h2.of_advance a1
  have e2 := readByte_answered (dev := dev) h1'.quiet ha r2
  have f2 := readByte_frame dev a h1'
  have a2 := (readTrip_advance (dev := dev) (a := a) r2).setSample .second (.val d)
  rw [e2] at f2
  rw [f1'.cfg, f1'.profile] at a2
  refine ⟨setSample .second (.val d) (readTrip dev a t2), ?_, a1.trans a2⟩
  have g2 : (setSample .second (.val d) (readTrip dev a t2)).samp0 = .val d := f2.2.1.samp0.trans g1
  have g3 : (setSample .second (.val d) (readTrip dev a t2)).samp1 = .val d := rfl
  simp only [e2, g2, g3, if_true]

/-- Two NACKs of the write-intent byte agree (R177, D19). -/
theorem verifiedRead_nacked {dev a : Byte} {s : State} (hq : s.quiet = true) (ha : a.toNat ≤ 127)
    (h0 : levelAt s 0 = true) (h1 : levelAt s 1 = true) :
    ∃ l t, verifiedRead dev a s = (.err .wselNack, t) ∧ Advance 2 2 l s t ∧ t.buf = s.buf := by
  have t1 : takeSample .first dev a s = setSample .first (.err .wselNack) (selectTrip dev s) := by
    rw [takeSample, readByte_trips hq ha, if_pos h0]
  have hq' : (setSample .first (.err .wselNack) (selectTrip dev s)).quiet = true := hq
  have h1' : levelAt (setSample .first (.err .wselNack) (selectTrip dev s)) 0 = true :=
    (levelAt_txTrip 8 (devByte busOpcEeprom dev false) s 0).trans h1
  have t2 : takeSample .second dev a (takeSample .first dev a s) = setSample .second (.err .wselNack)
      (selectTrip dev (setSample .first (.err .wselNack) (selectTrip dev s))) := by
    rw [t1, takeSample, readByte_trips hq' ha, if_pos h1']
  have a1 := (txTrip_advance 8 (devByte busOpcEeprom dev false) s).setSample .first (.err .wselNack)
  have a2 := (txTrip_advance 8 (devByte busOpcEeprom dev false)
    (setSample .first (.err .wselNack) (selectTrip dev s))).setSample .second (.err .wselNack)
  refine ⟨_, _, ?_, a1.trans a2, rfl⟩
  unfold verifiedRead
  rw [t2]
  exact if_pos rfl

/-! ### The block loop address by address (R180) -/

/-- Where every one of the first `m` addresses returns a byte, the loop comes to the next: `P k` says what holds when
address `k` is begun. -/
theorem blockLoop_upTo {dev start : Byte} {P : Nat → State → Prop} (m n : Nat) {s : State} (h0 : P 0 s)
    (hturn : ∀ k < m, ∀ t, P k t → ∃ b v,
      verifiedRead dev (setCurAddr start t).curAddr (setCurAddr start t) = (.val b, v) ∧ P (k + 1) (storeByte b v)) :
    ∃ t, P m t ∧ blockLoop dev start (m + n) s = blockLoop dev start n t := by
  induction m generalizing n with
  | zero => exact ⟨s, h0, by rw [Nat.zero_add]⟩
  | succ m ih =>
    obtain ⟨t, ht, he⟩ := ih (n + 1) fun k hk => hturn k (Nat.lt_succ_of_lt hk)
    obtain ⟨b, v, hv, hp⟩ := hturn m (Nat.lt_succ_self m) t ht
    refine ⟨storeByte b v, hp, ?_⟩
    rw [show m + 1 + n = m + (n + 1) by omega, he, blockLoop, hv]

/-- What `buf` holds when address `k` of a block is begun: `d 0`, …, `d (k - 1)`, the rest as before the block. -/
structure Stored (before : List Host.Cell) (d : Nat → Byte) (k : Nat) (now : List Host.Cell) : Prop where
  canonical : bufWf now = true
  stored    : ∀ j < k, bufRead now j = d j
  rest      : ∀ j, k ≤ j → bufRead now j = bufRead before j

theorem Stored.start {before : List Host.Cell} (h : bufWf before = true) (d : Nat → Byte) : Stored before d 0 before :=
  ⟨h, fun _ hj => absurd hj (Nat.not_lt_zero _), fun _ _ => rfl⟩

theorem Stored.next {before now : List Host.Cell} {d : Nat → Byte} {k : Nat} (h : Stored before d k now)
    (hk : k < 128) : Stored before d (k + 1) (bufWrite now k (d k)) where
  canonical := bufWrite_wf h.canonical hk
  stored j hj := by
    by_cases hjk : j = k
    · subst hjk; exact bufRead_bufWrite_same _ _ _ h.canonical
    · rw [bufRead_bufWrite_ne (Ne.symm hjk) _ _ h.canonical]; exact h.stored j (by omega)
  rest j hj := by
    rw [bufRead_bufWrite_ne (by omega) _ _ h.canonical]
    exact h.rest j (by omega)

/-- The address a turn reads, `idx` being `k` (R180). -/
theorem setCurAddr_at {start : Byte} {t : State} {k : Nat} (hi : t.idx = BitVec.ofNat 8 k) :
    setCurAddr start t = { t with curAddr := BitVec.ofNat 8 (start.toNat + k) } := by
  have ha : start + BitVec.ofNat 8 k = BitVec.ofNat 8 (start.toNat + k) := by
    rw [BitVec.ofNat_add, BitVec.ofNat_toNat, BitVec.setWidth_eq]
  unfold setCurAddr blockAddr
  rw [hi, ha]

theorem addr_inDevice {start : Byte} {k : Nat} (h : start.toNat + k < 128) :
    (BitVec.ofNat 8 (start.toNat + k)).toNat ≤ 127 := by
  rw [BitVec.toNat_ofNat, Nat.mod_eq_of_lt (by omega)]
  omega

/-- The store of a turn, `idx` being `k`. -/
theorem storeByte_at {b : Byte} {v : State} {k : Nat} (hi : v.idx = BitVec.ofNat 8 k) (hk : k < 128) :
    storeByte b v = { v with buf := bufWrite v.buf k b, idx := BitVec.ofNat 8 (k + 1) } := by
  have h1 : (BitVec.ofNat 8 k).toNat = k := by rw [BitVec.toNat_ofNat, Nat.mod_eq_of_lt (by omega)]
  have h2 : BitVec.ofNat 8 k + 1 = BitVec.ofNat 8 (k + 1) := (BitVec.ofNat_add k 1).symm
  unfold storeByte
  rw [hi, h1, h2]

/-- A block whose Discovery is answered runs its loop, and then the result is written. -/
theorem exec_readBlock {dev start length : Byte} {s : State} (hq : s.quiet = true)
    (hr : start.toNat + length.toNat ≤ 128) (hl : levelAt s 0 = false) :
    exec (.hostReadBlock dev start length) s =
      .next (finishBlock length (blockLoop dev start length.toNat (clearIdx (discTrip s)))) := by
  rw [exec, execHostReadBlock, whenQuiet_quiet _ _ hq, readBlock_inRange hq hr, hl]
  rfl

/-! ### A block whose reads return bytes -/

/-- The states `u 0`, …, `u m` in which the addresses of a block are begun, its first `m` reads returning `d`. -/
structure BlockStates (dev start : Byte) (m : Nat) (u : Nat → State) (d : Nat → Byte) : Prop where
  first : AtLine (u 0) ∧ (u 0).idx = 0
  inDevice : start.toNat + m ≤ 128
  turn : ∀ k < m, ∃ v,
    verifiedRead dev (BitVec.ofNat 8 (start.toNat + k)) { u k with curAddr := BitVec.ofNat 8 (start.toNat + k) } =
      (.val (d k), v) ∧
    u (k + 1) = { v with buf := bufWrite v.buf k (d k), idx := BitVec.ofNat 8 (k + 1) }

/-- When address `k` is begun: the state is `u k`, on a line of its own, with `idx` = `k`, and `buf` holds the first `k`
bytes. -/
structure BlockBegun (u : Nat → State) (d : Nat → Byte) (k : Nat) (t : State) : Prop where
  eq     : t = u k
  line   : AtLine t
  idx    : t.idx = BitVec.ofNat 8 k
  stored : bufWf (u 0).buf = true → Stored (u 0).buf d k t.buf

theorem BlockStates.begun {dev start : Byte} {m : Nat} {u : Nat → State} {d : Nat → Byte}
    (h : BlockStates dev start m u d) (n : Nat) :
    BlockBegun u d m (u m) ∧ blockLoop dev start (m + n) (u 0) = blockLoop dev start n (u m) := by
  have h0 : BlockBegun u d 0 (u 0) := ⟨rfl, h.first.1, h.first.2, fun hw => .start hw d⟩
  obtain ⟨t, ht, he⟩ := blockLoop_upTo (dev := dev) (start := start) m n h0 fun k hk t ht => by
    obtain ⟨v, hv, hu⟩ := h.turn k hk
    have hk128 : k < 128 := by have := h.inDevice; omega
    have hs := ht.eq ▸ setCurAddr_at (start := start) ht.idx
    have hA : AtLine (setCurAddr start t) := ⟨ht.line.quiet, ht.line.run⟩
    have f := verifiedRead_frame dev (setCurAddr start t).curAddr hA
    have hvr : verifiedRead dev (setCurAddr start t).curAddr (setCurAddr start t) = (.val (d k), v) := by
      rw [setCurAddr_at ht.idx, ht.eq]; exact hv
    rw [hvr] at f
    have hi : v.idx = BitVec.ofNat 8 k := f.1.idx.trans ht.idx
    have hst := storeByte_at (b := d k) hi hk128
    refine ⟨d k, v, hvr, hst.trans hu.symm, storeByte_atLine _ f.2, by rw [hst], fun hw => ?_⟩
    rw [hst]
    have hb : v.buf = t.buf := f.1.buf
    show Stored _ _ _ (bufWrite v.buf k (d k))
    rw [hb]
    exact (ht.stored hw).next hk128
  obtain rfl := ht.eq
  exact ⟨ht, he⟩

/-- Settles O34: the loop comes to the address that fails, and ends there. -/
theorem blockAbortsAtTheFirstFailure : Obligations.BlockAbortsAtTheFirstFailure := by
  intro dev start length m u d e s t hq hr hm hl h0 hturn hfail
  have hu : BlockStates dev start m u d := ⟨by rw [h0]; exact ⟨⟨hq, rfl⟩, rfl⟩, by omega, hturn⟩
  obtain ⟨hb, he⟩ := hu.begun (length.toNat - m - 1 + 1)
  have hf : verifiedRead dev (setCurAddr start (u m)).curAddr (setCurAddr start (u m)) = (.err e, t) := by
    rw [setCurAddr_at hb.idx]; exact hfail
  have hlast : blockLoop dev start (length.toNat - m - 1 + 1) (u m) = (some e, t) := by rw [blockLoop, hf]
  rw [exec_readBlock hq hr hl, show clearIdx (discTrip s) = u 0 from h0.symm,
    show length.toNat = m + (length.toNat - m - 1 + 1) by omega, he, hlast]
  rfl

/-- The second clause of O33: every read returns a byte. -/
theorem block_allReadsReturn (dev start length : Byte) (u : Nat → State) (d : Nat → Byte) (s : State)
    (hq : s.quiet = true) (hr : start.toNat + length.toNat ≤ 128) (hl : levelAt s 0 = false)
    (h0 : u 0 = { discTrip s with idx := 0 })
    (hturn : ∀ k < length.toNat, ∃ v,
      verifiedRead dev (BitVec.ofNat 8 (start.toNat + k)) { u k with curAddr := BitVec.ofNat 8 (start.toNat + k) } =
        (.val (d k), v) ∧
      u (k + 1) = { v with buf := bufWrite v.buf k (d k), idx := BitVec.ofNat 8 (k + 1) }) :
    exec (.hostReadBlock dev start length) s = .next (withResult (u length.toNat) 0 0 length) ∧
      (bufWf s.buf = true →
        (∀ k < length.toNat, bufRead (u length.toNat).buf k = d k) ∧
        ∀ k, length.toNat ≤ k → bufRead (u length.toNat).buf k = bufRead s.buf k) := by
  have hu : BlockStates dev start length.toNat u d := ⟨by rw [h0]; exact ⟨⟨hq, rfl⟩, rfl⟩, hr, hturn⟩
  obtain ⟨hb, he⟩ := hu.begun 0
  have hbuf : (u 0).buf = s.buf := by rw [h0]; rfl
  refine ⟨?_, fun hw => ?_⟩
  · rw [exec_readBlock hq hr hl, show clearIdx (discTrip s) = u 0 from h0.symm, ← Nat.add_zero length.toNat, he]
    rfl
  · have hst := hb.stored (hbuf ▸ hw)
    rw [hbuf] at hst
    exact ⟨hst.stored, hst.rest⟩

end Sys2Proof.Machine

/-! ## Blocks over a device that answers, and over any line -/

namespace Sys2Proof.Machine

open Sys2Proof

/-! ### A device that answers both samples of every address alike (R180) -/

/-- The events of the two samples of address `start + k`, answered with `data k`. -/
def addressEvents (c : Params) (p : Profile) (dev start : Byte) (data : Nat → Byte) (k : Nat) : List Event :=
  readByteEvents c p dev (BitVec.ofNat 8 (start.toNat + k)) (data k) ++
    readByteEvents c p dev (BitVec.ofNat 8 (start.toNat + k)) (data k)

/-- The events of a block up to address `start + k`. -/
def blockEvents (c : Params) (p : Profile) (dev start : Byte) (data : Nat → Byte) (k : Nat) : List Event :=
  underMask (discoveryEvents c false) ++ (List.range k).flatMap (addressEvents c p dev start data)

/-- When address `k` of a block begun in `s` is begun, every address before it having been answered alike twice. -/
structure ConsistentBegun (dev start : Byte) (data : Nat → Byte) (s : State) (k : Nat) (t : State) : Prop where
  line    : AtLine t
  idx     : t.idx = BitVec.ofNat 8 k
  cfg     : t.cfg = s.cfg
  profile : t.profile = s.profile
  stored  : Stored s.buf data k t.buf
  advance : Advance (1 + 22 * k) (1 + 8 * k) (blockEvents s.cfg.params s.profile dev start data k) s t

theorem ConsistentBegun.start (dev start : Byte) (data : Nat → Byte) {s : State} (hq : s.quiet = true)
    (hw : bufWf s.buf = true) (hl : levelAt s 0 = false) :
    ConsistentBegun dev start data s 0 (clearIdx (discTrip s)) := by
  have ha := discTrip_advance s
  rw [hl] at ha
  obtain ⟨h1, h2, h3, h4, h5⟩ := ha
  exact ⟨⟨hq, rfl⟩, rfl, rfl, rfl, .start hw data, h1, h2, h3, h4, by rw [blockEvents]; simpa using h5⟩

/-- One more address. -/
theorem ConsistentBegun.turn {dev start : Byte} {data : Nat → Byte} {s t : State} {k : Nat}
    (h : ConsistentBegun dev start data s k t) (hk : start.toNat + k < 128)
    (h1 : ReadsAs s (1 + 22 * k) (data k)) (h2 : ReadsAs s (12 + 22 * k) (data k)) :
    ∃ b v, verifiedRead dev (setCurAddr start t).curAddr (setCurAddr start t) = (.val b, v) ∧
      ConsistentBegun dev start data s (k + 1) (storeByte b v) := by
  have hA : AtLine (setCurAddr start t) := ⟨h.line.quiet, h.line.run⟩
  have hc : (setCurAddr start t).curAddr = BitVec.ofNat 8 (start.toNat + k) := by rw [setCurAddr_at h.idx]
  have hadv : Advance (1 + 22 * k) (1 + 8 * k) (blockEvents s.cfg.params s.profile dev start data k) s
      (setCurAddr start t) := by
    obtain ⟨e1, e2, e3, e4, e5⟩ := h.advance
    exact ⟨e1, e2, e3, e4, e5⟩
  have r1 : ReadsAs (setCurAddr start t) 0 (data k) := ReadsAs.of_advance hadv h1
  have r2 : ReadsAs (setCurAddr start t) 11 (data k) :=
    ReadsAs.of_advance hadv (by rwa [show 1 + 22 * k + 11 = 12 + 22 * k by omega])
  have hcfg : (setCurAddr start t).cfg = s.cfg := h.cfg
  have hprof : (setCurAddr start t).profile = s.profile := h.profile
  obtain ⟨v, hv, hav⟩ := verifiedRead_answered (dev := dev) hA (addr_inDevice hk) r1 r2
  have f := verifiedRead_frame dev (BitVec.ofNat 8 (start.toNat + k)) hA
  rw [hv] at f
  rw [hcfg, hprof] at hav
  have hi : v.idx = BitVec.ofNat 8 k := f.1.idx.trans h.idx
  refine ⟨data k, v, by rw [hc, hv], storeByte_atLine _ f.2, ?_, f.1.cfg.trans hcfg, f.1.profile.trans hprof, ?_, ?_⟩
  · rw [storeByte_at hi (by omega)]
  · have hb : v.buf = t.buf := f.1.buf
    rw [storeByte_at hi (by omega)]
    show Stored _ _ _ (bufWrite v.buf k (data k))
    rw [hb]
    exact h.stored.next (by omega)
  · obtain ⟨e1, e2, e3, e4, e5⟩ := hadv.trans hav
    refine ⟨e1, e2, e3, e4, e5.trans ?_⟩
    simp only [blockEvents, addressEvents, List.range_succ, List.flatMap_append, List.flatMap_singleton,
      List.append_assoc]

/-- The loop of such a block comes to address `m`, with `n` addresses to go. -/
theorem blockLoop_consistent {dev start : Byte} {data : Nat → Byte} {s : State} (m n : Nat) (hq : s.quiet = true)
    (hw : bufWf s.buf = true) (hl : levelAt s 0 = false) (hm : start.toNat + m ≤ 128)
    (hd : ∀ k < m, ReadsAs s (1 + 22 * k) (data k) ∧ ReadsAs s (12 + 22 * k) (data k)) :
    ∃ t, ConsistentBegun dev start data s m t ∧
      blockLoop dev start (m + n) (clearIdx (discTrip s)) = blockLoop dev start n t :=
  blockLoop_upTo m n (ConsistentBegun.start dev start data hq hw hl) fun k hk _ ht =>
    ht.turn (by omega) (hd k hk).1 (hd k hk).2

/-- Settles O33: a consistent device by its levels, and any block whose reads all return a byte. -/
theorem blockOverConsistentDeviceSucceeds : Obligations.BlockOverConsistentDeviceSucceeds := by
  refine ⟨fun dev start length data s hq hw hr hl hd => ?_, block_allReadsReturn⟩
  obtain ⟨t, ht, he⟩ := blockLoop_consistent (dev := dev) (start := start) length.toNat 0 hq hw hl hr hd
  refine ⟨finish 0 0 length t, ?_, rfl, rfl, rfl, rfl, rfl, ht.stored.stored, ht.stored.rest, ?_, ?_, ?_, ?_⟩
  · rw [exec_readBlock hq hr hl, ← Nat.add_zero length.toNat, he]
    rfl
  · exact ht.advance.reqCount.trans (Nat.add_assoc ..).symm
  · exact ht.advance.rspCount.trans (Nat.add_assoc ..).symm
  · exact ht.advance.drawn.trans (Nat.add_assoc ..).symm
  · exact ht.advance.trace.trans (List.append_assoc ..).symm

/-- Settles O58: such a block up to address `m`, whose write-intent byte is NACKed in both samples. -/
theorem blockStopsWhereTheSelectIsNackedTwice : Obligations.BlockStopsWhereTheSelectIsNackedTwice := by
  intro dev start length m data s hq hw hr hm hl hd h1 h2
  obtain ⟨t, ht, he⟩ := blockLoop_consistent (dev := dev) (start := start) m (length.toNat - m - 1 + 1) hq hw hl (by omega) hd
  have hc : (setCurAddr start t).curAddr = BitVec.ofNat 8 (start.toNat + m) := by rw [setCurAddr_at ht.idx]
  have l0 : levelAt (setCurAddr start t) 0 = true := (ht.advance.levelAt 0).trans h1
  have l1 : levelAt (setCurAddr start t) 1 = true := by
    refine (ht.advance.levelAt 1).trans ?_
    rw [← h2]
    congr 1
    omega
  have hq' : (setCurAddr start t).quiet = true := ht.line.quiet
  have ha : (BitVec.ofNat 8 (start.toNat + m)).toNat ≤ 127 := addr_inDevice (by omega)
  obtain ⟨l, v, hv, hav, hb⟩ := verifiedRead_nacked (dev := dev) hq' ha l0 l1
  have hlast : blockLoop dev start (length.toNat - m - 1 + 1) t = (some .wselNack, v) := by rw [blockLoop, hc, hv]
  refine ⟨finishErr .wselNack v, ?_, rfl, rfl, rfl, rfl, rfl, fun k hk => ?_, ?_, ?_, ?_⟩
  · rw [exec_readBlock hq hr hl, show length.toNat = m + (length.toNat - m - 1 + 1) by omega, he, hlast]
    rfl
  · show bufRead v.buf k = _
    rw [hb]
    exact ht.stored.rest k hk
  · refine hav.reqCount.trans ?_
    show t.reqCount + 2 = _
    rw [ht.advance.reqCount]; omega
  · refine hav.rspCount.trans ?_
    show t.rspCount + 2 = _
    rw [ht.advance.rspCount]; omega
  · refine hav.drawn.trans ?_
    show t.drawn + 2 = _
    rw [ht.advance.drawn]; omega

/-! ### A block over any line (R191, R225, R245) -/

/-- The errors a read of an address within the device can end with. -/
def ReadError (e : ErrCode) : Prop := e = .wselNack ∨ e = .addrNack ∨ e = .rselNack ∨ e = .integrity

/-- A byte, or one of these errors. -/
def ReadResult (r : Result) : Prop := ∀ e, r = .err e → ReadError e

/-- A `readByte` of an address within the device makes at most four requests. -/
theorem readByte_outcome (dev : Byte) {a : Byte} {s : State} (hq : s.quiet = true) (ha : a.toNat ≤ 127) :
    ReadResult (readByte dev a s).1 ∧ (readByte dev a s).2.reqCount ≤ s.reqCount + 4 := by
  have h1 : (selectTrip dev s).reqCount = s.reqCount + 1 := rfl
  have h2 : (addressTrip dev a s).reqCount = s.reqCount + 2 := rfl
  have h3 : (intentTrip dev a s).reqCount = s.reqCount + 3 := rfl
  have h4 : (readTrip dev a s).reqCount = s.reqCount + 4 := rfl
  rw [readByte_trips hq ha]
  split
  · exact ⟨by rintro _ ⟨⟩; exact .inl rfl, by dsimp only; omega⟩
  · split
    · exact ⟨by rintro _ ⟨⟩; exact .inr (.inl rfl), by dsimp only; omega⟩
    · split
      · exact ⟨by rintro _ ⟨⟩; exact .inr (.inr (.inl rfl)), by dsimp only; omega⟩
      · exact ⟨by rintro _ ⟨⟩, by dsimp only; omega⟩

/-- The vote gives one of the samples, or an integrity error (R177). -/
theorem voteThird_result {s : State} (h0 : ReadResult s.samp0) (h1 : ReadResult s.samp1) : ReadResult (voteThird s) := by
  unfold voteThird
  split
  · exact h0
  · split
    · exact h1
    · rintro _ ⟨⟩
      exact .inr (.inr (.inr rfl))

/-- A `verifiedRead` of an address within the device makes at most twelve requests. -/
theorem verifiedRead_outcome (dev : Byte) {a : Byte} {s : State} (h : AtLine s) (ha : a.toNat ≤ 127) :
    ReadResult (verifiedRead dev a s).1 ∧ (verifiedRead dev a s).2.reqCount ≤ s.reqCount + 12 := by
  have o1 := readByte_outcome dev h.quiet ha
  have f1 := takeSample_frame .first dev a h
  have o2 := readByte_outcome dev f1.2.quiet ha
  have s2 := (readByte_frame dev a f1.2).2.1
  have f2 := takeSample_frame .second dev a f1.2
  have o3 := readByte_outcome dev f2.2.quiet ha
  have s3 := (readByte_frame dev a f2.2).2.1
  have hs0 : (takeSample .second dev a (takeSample .first dev a s)).samp0 = (readByte dev a s).1 := s2.samp0
  have hs1 : (takeSample .second dev a (takeSample .first dev a s)).samp1 =
    (readByte dev a (takeSample .first dev a s)).1 := rfl
  have c1 : (takeSample .first dev a s).reqCount = (readByte dev a s).2.reqCount := rfl
  have c2 : (takeSample .second dev a (takeSample .first dev a s)).reqCount =
    (readByte dev a (takeSample .first dev a s)).2.reqCount := rfl
  have c3 (t : State) : (takeSample .third dev a t).reqCount = (readByte dev a t).2.reqCount := rfl
  have t0 (t : State) : (takeSample .third dev a t).samp0 = (readByte dev a t).2.samp0 := rfl
  have t1 (t : State) : (takeSample .third dev a t).samp1 = (readByte dev a t).2.samp1 := rfl
  unfold verifiedRead
  dsimp only
  split
  · exact ⟨hs0 ▸ o1.1, by dsimp only; omega⟩
  · refine ⟨voteThird_result ?_ ?_, ?_⟩
    · rw [t0, s3.samp0, hs0]; exact o1.1
    · rw [t1, s3.samp1, hs1]; exact o2.1
    · rw [c3]; omega

/-- What the loop of a block in range comes to, from `idx` = `i` with `n` addresses to go. -/
structure LoopOutcome (i n : Nat) (s : State) (r : Option ErrCode × State) : Prop where
  error     : ∀ e, r.1 = some e → ReadError e
  requests  : r.2.reqCount ≤ s.reqCount + 12 * n
  canonical : bufWf r.2.buf = true
  outside   : ∀ k, i + n ≤ k → bufRead r.2.buf k = bufRead s.buf k

theorem blockLoop_outcome (dev start : Byte) (i n : Nat) {s : State} (h : AtLine s) (hi : s.idx = BitVec.ofNat 8 i)
    (hr : start.toNat + i + n ≤ 128) (hw : bufWf s.buf = true) : LoopOutcome i n s (blockLoop dev start n s) := by
  induction n generalizing s i with
  | zero => exact ⟨nofun, Nat.le_refl _, hw, fun _ _ => rfl⟩
  | succ n ih =>
    have hA : AtLine (setCurAddr start s) := ⟨h.quiet, h.run⟩
    have hc : (setCurAddr start s).curAddr = BitVec.ofNat 8 (start.toNat + i) := by rw [setCurAddr_at hi]
    have ha : (BitVec.ofNat 8 (start.toNat + i)).toNat ≤ 127 := addr_inDevice (by omega)
    obtain ⟨ho, hn⟩ := verifiedRead_outcome dev hA ha
    have f := verifiedRead_frame dev (BitVec.ofNat 8 (start.toNat + i)) hA
    unfold blockLoop
    rw [hc]
    generalize verifiedRead dev (BitVec.ofNat 8 (start.toNat + i)) (setCurAddr start s) = vr at ho hn f ⊢
    obtain ⟨r, v⟩ := vr
    have hreq : v.reqCount ≤ s.reqCount + 12 := hn
    have hbuf : v.buf = s.buf := f.1.buf
    cases r with
    | err e =>
      refine ⟨fun e' he' => ?_, by dsimp only; omega, hbuf ▸ hw, fun k _ => by rw [hbuf]⟩
      cases he'
      exact ho e rfl
    | val b =>
      have hv : AtLine v := f.2
      have hst := storeByte_at (b := b) (v := v) (f.1.idx.trans hi) (by omega)
      have hb' : (storeByte b v).buf = bufWrite s.buf i b := by rw [hst, ← hbuf]
      obtain ⟨q1, q2, q3, q4⟩ := ih (i + 1) (storeByte_atLine b hv) (by rw [hst]) (by omega)
        (by rw [hb']; exact bufWrite_wf hw (by unfold eepromSize; omega))
      have hreq' : (storeByte b v).reqCount = v.reqCount := rfl
      refine ⟨q1, by dsimp only; omega, q3, fun k hk => ?_⟩
      rw [q4 k (by omega), hb', bufRead_bufWrite_ne (by omega) _ _ hw]

/-- What a whole `readBlock` comes to, whatever the line does: success, or one of six errors. -/
structure BlockOutcome (length : Byte) (s : State) (r : Option ErrCode × State) : Prop where
  error     : ∀ e, r.1 = some e → e = .range ∨ e = .noDevice ∨ ReadError e
  requests  : r.2.reqCount ≤ s.reqCount + 1 + 12 * length.toNat
  canonical : bufWf r.2.buf = true
  outside   : ∀ k, length.toNat ≤ k → bufRead r.2.buf k = bufRead s.buf k

theorem readBlock_outcome (dev start length : Byte) {s : State} (hq : s.quiet = true) (hw : bufWf s.buf = true) :
    BlockOutcome length s (readBlock dev start length s) := by
  by_cases hr : start.toNat + length.toNat ≤ 128
  · rw [readBlock_inRange hq hr]
    have hreq : (discTrip s).reqCount = s.reqCount + 1 := rfl
    split
    · exact ⟨by rintro _ ⟨⟩; exact .inr (.inl rfl), by dsimp only; omega, hw, fun _ _ => rfl⟩
    · have hA : AtLine (clearIdx (discTrip s)) := ⟨hq, rfl⟩
      obtain ⟨q1, q2, q3, q4⟩ := blockLoop_outcome dev start 0 length.toNat hA rfl hr hw
      exact ⟨fun e he => .inr (.inr (q1 e he)), q2, q3, fun k hk => q4 k (by omega)⟩
  · have hb : blockOutOfRange start length = true := (blockOutOfRange_iff ..).2 (by omega)
    rw [readBlock, if_pos hb]
    exact ⟨by rintro _ ⟨⟩; exact .inl rfl, by dsimp only; omega, hw, fun _ _ => rfl⟩

/-- The six errors a block can end with, as `res_status` (R241). -/
theorem blockError_status {e : ErrCode} (h : e = .range ∨ e = .noDevice ∨ ReadError e) :
    e.status ∈ [(0xFF : Byte), 0xFE, 0xFC, 0xFB, 0xFA, 0xF9] := by
  rcases h with rfl | rfl | rfl | rfl | rfl | rfl <;> decide

/-- Settles O35: the outcome of the procedure, and what its round trips keep. -/
theorem blockCompletesWhateverTheLineDoes : Obligations.BlockCompletesWhateverTheLineDoes := by
  intro w s hw hq hb
  refine ⟨by simp [decode, decodeHost_eq, hw], ?_⟩
  generalize (w.extractLsb' 16 3).setWidth 8 = dev
  generalize w.extractLsb' 8 8 = start
  generalize w.extractLsb' 0 8 = length
  obtain ⟨o1, o2, o3, o4⟩ := readBlock_outcome dev start length hq hb
  have k1 := (quiet_kept).readBlock dev start length hq hq
  have k2 := (operationFrame_kept s).readBlock dev start length hq (.refl s)
  have k3 := (acc_kept s.acc).readBlock dev start length hq rfl
  have k4 : Answered s (readBlock dev start length s).2 := (answered_kept s).readBlock dev start length hq rfl
  refine ⟨_, whenQuiet_quiet _ (fun s => finishBlock length (readBlock dev start length s)) hq, ?_⟩
  rw [finishBlock_eq]
  obtain ⟨f1, f2, f3, f4, f5⟩ := k2
  cases he : (readBlock dev start length s).1 with
  | none => exact ⟨rfl, rfl, rfl, .inl ⟨rfl, rfl⟩, o2, k4, k1, k3, ⟨f1, f2, f3, f4, f5⟩, o3, o4⟩
  | some e =>
    exact ⟨rfl, rfl, rfl, .inr ⟨blockError_status (o1 e he), rfl⟩, o2, k4, k1, k3, ⟨f1, f2, f3, f4, f5⟩, o3, o4⟩

end Sys2Proof.Machine

/-! ## A reset can fall in every stage (R280)

With a reset awaited the sequencers act as with no input (`tickSequencers_inputs`), so what the engine comes to with no
input it stands in when the reset falls. -/

namespace Sys2Proof.Machine

open Sys2Proof

/-! ### Actions towards a reset -/

theorem tickSequencers_noInput (s : State) :
    withInputs [] (tickSequencers (withInputs [] s)) = tickSequencers (withInputs [] s) :=
  (tickSequencers_inputs [] (by simp) s).symm

/-- `n` actions before a reset are those of the engine with no input. -/
theorem ticks_beforeReset (n m : Nat) (rest : List HostInput) (s : State) :
    ticks n (withInputs (.rst (n + m) :: rest) s) = withInputs (.rst m :: rest) (ticks n (withInputs [] s)) := by
  induction n generalizing s with
  | zero => rw [Nat.zero_add]; rfl
  | succ n ih =>
    have hreset : tick (withInputs (.rst (n + 1 + m) :: rest) s) =
        withInputs (.rst (n + m) :: rest) (tickSequencers (withInputs [] s)) := by
      have hh : (withInputs (.rst (n + 1 + m) :: rest) s).hostIn = .rst (n + m + 1) :: rest := by
        rw [show n + m + 1 = n + 1 + m by omega]; rfl
      rw [tick_countDown hh]
      exact tickSequencers_inputs (.rst (n + m) :: rest) (by simp) s
    have hnone : tick (withInputs [] s) = withInputs [] (tickSequencers (withInputs [] s)) := by
      rw [tick_noInput rfl, tickSequencers_noInput]
    show ticks n (tick (withInputs (.rst (n + 1 + m) :: rest) s)) = withInputs (.rst m :: rest) (ticks n (tick (withInputs [] s)))
    rw [hreset, ih, hnone]

/-- The engine after reset with configuration `c` and the word `w` accepted, the levels `l` to come, no further input. -/
def accepted (c : Config) (w : Word) (l : List Bool) : State :=
  { State.resetOf c with lineIn := l, opWord := w, dState := .run }

theorem accepted_atLine (c : Config) (w : Word) (l : List Bool) : AtLine (accepted c w l) := ⟨rfl, rfl⟩

theorem accepted_noReset (c : Config) (w : Word) (l : List Bool) : resetAwaited (accepted c w l) = false := rfl

theorem accepted_tick (c : Config) (w : Word) (n : Nat) (l : List Bool) :
    tick { State.resetOf c with hostIn := [.op w, .rst n], lineIn := l } = withInputs [.rst n] (accepted c w l) := rfl

/-- What the engine comes to after accepting `w`, it stands in when a reset falls that is presented behind `w`. -/
theorem reset_fallsAt {c : Config} {w : Word} {l : List Bool} {t : State} (h : Reaches (accepted c w l) t) :
    ∃ n, ticks (n + 1) { State.resetOf c with hostIn := [.op w, .rst n], lineIn := l } = withInputs [.rst 0] t := by
  obtain ⟨n, rfl⟩ := h
  refine ⟨n, ?_⟩
  show ticks n (tick { State.resetOf c with hostIn := [.op w, .rst n], lineIn := l }) = _
  rw [accepted_tick]
  exact ticks_beforeReset n 0 [] (accepted c w l)

theorem ticks_fixed {s : State} (h : tick s = s) (n : Nat) : ticks n s = s := by
  induction n with
  | zero => rfl
  | succ n ih => show ticks n (tick s) = s; rw [h, ih]

/-! ### The executor's last stages -/

/-- From `EX_MASK` to the end of the last line, to `EX_UNMASK` and to `EX_PUSH` (R200). -/
theorem reaches_unmaskStage {s : State} (hx : s.exState = .mask) (hr : resetAwaited s = false) :
    Reaches s { running [] (runRequest (maskIrq s)) with exState := .unmask } := by
  have h1 : tick s = running (requestActs (maskIrq s)) (maskIrq s) := by
    rw [tick_noReset hr]
    simp only [executorReady, hx, tickExecutor, if_true]
    rfl
  have hr2 : resetAwaited (running [] (runRequest (maskIrq s))) = false :=
    noReset_of hr (runRequest_frame (maskIrq s)).1
  refine .tick_then (h1 ▸ (reaches_runRequest (maskIrq s) hr).trans (.of_tick ?_))
  rw [tick_noReset hr2]
  rfl

theorem reaches_pushStage {s : State} (hx : s.exState = .mask) (hr : resetAwaited s = false) :
    Reaches s (unmaskIrq (runRequest (maskIrq s))) := by
  refine (reaches_unmaskStage hx hr).trans (.of_tick ?_)
  have hr2 : resetAwaited ({ running [] (runRequest (maskIrq s)) with exState := .unmask } : State) = false :=
    noReset_of hr (runRequest_frame (maskIrq s)).1
  rw [tick_noReset hr2]
  rfl

/-! ### The first settle delay -/

/-- Where the device acknowledges the write-intent byte and the address byte, the settle delay between the phases
begins (R171, R175). -/
theorem reaches_settle (k : Pass) {s : State} (h : AtLine s) (hr : resetAwaited s = false) (ha : s.curAddr.toNat ≤ 127)
    (l0 : levelAt s 0 = false) (l1 : levelAt s 1 = false) :
    ∃ t, Reaches (goto (.loadAddr k) s) t ∧ t.dState = .delay := by
  have f1 := chan_frame isOpcode_tx (devByte busOpcEeprom (devField s.opWord) false) h.quiet
  have r1 := noReset_frame hr f1.1
  have e1 := chanTx_trip (devByte busOpcEeprom (devField s.opWord) false) s h.quiet
  have a1 : (chan opcTx (devByte busOpcEeprom (devField s.opWord) false) s).rsp = rspAck := by
    rw [e1, rsp_txTrip, l0]; rfl
  have l2 : levelAt (chan opcTx (devByte busOpcEeprom (devField s.opWord) false) s) 0 = false := by
    rw [e1, levelAt_txTrip]; exact l1
  have hfirst (t : State) : Reaches (goto (.wsel k) (chan opcTx (devByte busOpcEeprom (devField s.opWord) false) s)) t →
      Reaches (goto (.loadAddr k) s) t := by
    intro ht
    refine reaches_dispatchLine h hr ?_
    have hd : runDispatchLine (goto (.loadAddr k) s) =
        request opcTx (devByte busOpcEeprom (devField s.opWord) false) (.wsel k) (goto (.loadAddr k) s) :=
      if_neg (by rw [goto_curAddr, addrOutOfRange_false ha]; decide)
    exact hd ▸ reaches_roundTrip isOpcode_tx _ _ _ h hr ht
  generalize chan opcTx (devByte busOpcEeprom (devField s.opWord) false) s = s1 at f1 r1 a1 l2 hfirst
  have f2 := chan_frame isOpcode_tx s1.curAddr f1.2.2.quiet
  have r2 := noReset_frame r1 f2.1
  have a2 : (chan opcTx s1.curAddr s1).rsp = rspAck := by
    rw [chanTx_trip s1.curAddr s1 f1.2.2.quiet, rsp_txTrip, l2]; rfl
  have hsecond : runDispatchLine (goto (.wsel k) s1) = request opcTx s1.curAddr (.addr k) (goto (.wsel k) s1) :=
    if_neg (by rw [goto_rsp, a1]; decide)
  have hthird : runDispatchLine (goto (.addr k) (chan opcTx s1.curAddr s1)) =
      startSettle (chan opcTx s1.curAddr s1).cfg.params.tSettleA (.settleA k)
        (goto (.addr k) (chan opcTx s1.curAddr s1)) :=
    if_neg (by rw [goto_rsp, a2]; decide)
  refine ⟨_, hfirst _ (reaches_dispatchLine f1.2.2 r1 (hsecond ▸ reaches_roundTrip isOpcode_tx _ _ _ f1.2.2 r1 ?_)),
    congrArg State.dState hthird⟩
  exact reaches_dispatchLine f2.2.2 r2 (Reaches.refl _)

/-- The first line of an accepted word is that of its operation. -/
theorem accepted_first {c : Config} {w : Word} {l : List Bool} {i : Instr} (hw : decodeHost w = .ok i) :
    tick (accepted c w l) = startOperation (accepted c w l) ∧ decodeHost (accepted c w l).opWord = .ok i :=
  ⟨tick_quiet rfl rfl, hw⟩

theorem accepted_discovery (c : Config) :
    tick (accepted c 0x10000000 []) = pushRequest opcDisc 0 (goto .primitiveRsp (accepted c 0x10000000 [])) := by
  obtain ⟨ht, hi⟩ := accepted_first (c := c) (w := 0x10000000) (l := []) (i := .hostDiscovery) rfl
  rw [ht, startOperation, hi]
  rfl

theorem accepted_setSpeed (c : Config) :
    tick (accepted c 0x15000000 []) = finish 0 0 0 (setSpeed 0 (accepted c 0x15000000 [])) := by
  obtain ⟨ht, hi⟩ := accepted_first (c := c) (w := 0x15000000) (l := []) (i := .hostSetSpeed 0) rfl
  rw [ht, startOperation, hi]

theorem accepted_block (c : Config) (l : List Bool) :
    tick (accepted c 0x14000001 l) = request opcDisc 0 .blkDisc (goto .entry (accepted c 0x14000001 l)) := by
  obtain ⟨ht, hi⟩ := accepted_first (c := c) (w := 0x14000001) (l := l) (i := .hostReadBlock 0 0 1) rfl
  rw [ht, startOperation, hi]
  exact if_neg (by decide)

/-- A block read of a device that acknowledges comes to its first settle delay (R180). -/
theorem reaches_blockSettle (c : Config) :
    ∃ t, Reaches (accepted c 0x14000001 [false, false, false]) t ∧ t.dState = .delay := by
  have h0 := accepted_atLine c 0x14000001 [false, false, false]
  have r0 := accepted_noReset c 0x14000001 [false, false, false]
  have f1 := chan_frame isOpcode_disc 0 h0.quiet
  have r1 := noReset_frame r0 f1.1
  have e1 := chanDisc_trip _ h0.quiet
  have a1 : (chan opcDisc 0 (accepted c 0x14000001 [false, false, false])).rsp = rspAck := by
    rw [e1]; rfl
  have l1 (j : Nat) : levelAt (chan opcDisc 0 (accepted c 0x14000001 [false, false, false])) j =
      levelAt (accepted c 0x14000001 [false, false, false]) (1 + j) := by
    rw [e1]; exact levelAt_discTrip ..
  have hfirst (t : State) : Reaches (goto .blkDisc (chan opcDisc 0 (accepted c 0x14000001 [false, false, false]))) t →
      Reaches (accepted c 0x14000001 [false, false, false]) t := fun ht =>
    .tick_then (accepted_block c _ ▸ reaches_roundTrip isOpcode_disc 0 .entry .blkDisc h0 r0 ht)
  have w1 : (chan opcDisc 0 (accepted c 0x14000001 [false, false, false])).opWord = 0x14000001 := f1.1.opWord
  generalize chan opcDisc 0 (accepted c 0x14000001 [false, false, false]) = s1 at f1 r1 a1 l1 hfirst w1
  have hA : AtLine (clearIdx s1) := ⟨f1.2.2.quiet, f1.2.2.run⟩
  have hB : AtLine (setCurAddr (arg1Field s1.opWord) (clearIdx s1)) := ⟨f1.2.2.quiet, f1.2.2.run⟩
  have hdisc : runDispatchLine (goto .blkDisc s1) = goto .blkLoop (clearIdx s1) :=
    if_neg (by rw [goto_rsp, a1]; decide)
  have hloop : runDispatchLine (goto .blkLoop (clearIdx s1)) =
      goto (.loadAddr .first) (setCurAddr (arg1Field s1.opWord) (clearIdx s1)) :=
    if_pos (by rw [goto_opWord, goto_idx, clearIdx_opWord, clearIdx_idx, w1]; decide)
  have ha : (setCurAddr (arg1Field s1.opWord) (clearIdx s1)).curAddr = 0 := by
    rw [setCurAddr_curAddr, clearIdx_idx, w1]; decide
  obtain ⟨t, ht, hd⟩ := reaches_settle .first (s := setCurAddr (arg1Field s1.opWord) (clearIdx s1)) hB r1
    (by rw [ha]; decide) (l1 0) (l1 1)
  exact ⟨t, hfirst t (reaches_dispatchLine f1.2.2 r1 (hdisc ▸ reaches_dispatchLine hA r1 (hloop ▸ ht))), hd⟩

/-- The Discovery request of the host operation `discovery`, pushed and popped (R200, R206). -/
theorem reaches_maskStage (c : Config) :
    ∃ t, Reaches (accepted c 0x10000000 []) t ∧ t.exState = .mask ∧ resetAwaited t = false := by
  refine ⟨popRequest (tick (accepted c 0x10000000 [])), .tick_then (.of_tick ?_), ?_⟩
  · rw [accepted_discovery]; exact tick_noReset rfl
  · rw [accepted_discovery]; exact ⟨rfl, rfl⟩

/-- Settles O60: each stage is one the engine comes to with no further input. -/
theorem everyStageCanBeReset : Obligations.EveryStageCanBeReset := by
  intro c atRest atEdge
  have hedge {w : Word} {l : List Bool} {t : State} (h : Reaches (accepted c w l) t) :
      ∃ n, atEdge w l n = withInputs [.rst 0] t := reset_fallsAt h
  refine ⟨fun levels n => ?_, fun d hd => ?_, fun x hx => ?_⟩
  · have hidle : tick { State.resetOf c with lineIn := levels } = { State.resetOf c with lineIn := levels } := rfl
    have h : atRest levels n = withInputs [.rst 0] { State.resetOf c with lineIn := levels } := by
      refine (ticks_beforeReset n 0 [] { State.resetOf c with lineIn := levels }).trans ?_
      exact congrArg _ (ticks_fixed hidle n)
    rw [h]
    exact ⟨rfl, rfl, rfl⟩
  · have hstage {w : Word} {l : List Bool} {t : State} (h : Reaches (accepted c w l) t) (ht : t.dState = d) :
        ∃ w levels n, (atEdge w levels n).dState = d ∧ resetNow (atEdge w levels n) = true := by
      obtain ⟨n, hn⟩ := hedge h
      exact ⟨w, l, n, by rw [hn]; exact ht, by rw [hn]; rfl⟩
    simp only [List.mem_cons, List.not_mem_nil, or_false] at hd
    rcases hd with rfl | rfl | rfl | rfl
    · exact hstage (w := 0x10000000) (l := []) (Reaches.refl _) rfl
    · exact hstage (.of_tick (accepted_discovery c)) rfl
    · obtain ⟨t, ht, hd⟩ := reaches_blockSettle c
      exact hstage ht hd
    · exact hstage (.of_tick (accepted_setSpeed c)) rfl
  · have hstage {w : Word} {l : List Bool} {t : State} (h : Reaches (accepted c w l) t) (ht : t.exState = x) :
        ∃ w levels n, (atEdge w levels n).exState = x ∧ resetNow (atEdge w levels n) = true := by
      obtain ⟨n, hn⟩ := hedge h
      exact ⟨w, l, n, by rw [hn]; exact ht, by rw [hn]; rfl⟩
    obtain ⟨t, ht, hm, hr⟩ := reaches_maskStage c
    simp only [List.mem_cons, List.not_mem_nil, or_false] at hx
    rcases hx with rfl | rfl | rfl | rfl | rfl
    · exact hstage (w := 0x10000000) (l := []) (Reaches.refl _) rfl
    · exact hstage ht hm
    · refine hstage (ht.trans (.of_tick rfl)) ?_
      rw [tick_noReset hr]
      simp only [executorReady, hm, tickExecutor, if_true]
      rfl
    · exact hstage (ht.trans (reaches_unmaskStage hm hr)) rfl
    · exact hstage (ht.trans (reaches_pushStage hm hr)) rfl

end Sys2Proof.Machine

/-! ## What the decoder answers is well-formed (R61, R101)

The only operands that are no whole byte are a three-bit device address and a one-bit speed index. -/

namespace Sys2Proof

theorem devOk_threeBits (d : BitVec 3) : devOk (d.setWidth 8) = true := by
  revert d; decide

theorem speedOk_oneBit (b : BitVec 1) : speedOk (b.setWidth 8) = true := by
  revert b; decide

theorem decodeChan_wf {w : Word} {i : Instr} (h : decodeChan w = .ok i) : i.wf = true := by
  unfold decodeChan at h
  repeat' split at h
  all_goals cases h
  all_goals rfl

theorem decodeHost_wf {w : Word} {i : Instr} (h : decodeHost w = .ok i) : i.wf = true := by
  unfold decodeHost at h
  repeat' split at h
  all_goals cases h
  · rfl
  · rfl
  · rfl
  · exact devOk_threeBits _
  · exact devOk_threeBits _
  · exact speedOk_oneBit _

theorem decodeBus_wf {b : Byte} {i : Instr} (h : decodeBus b = .ok i) : i.wf = true := by
  unfold decodeBus at h
  repeat' split at h
  all_goals cases h
  all_goals exact devOk_threeBits _

/-- Settles O2: each of the three formats, by the width of its fields. -/
theorem decodedInstructionIsWellFormed : Obligations.DecodedInstructionIsWellFormed := by
  intro c i h
  cases c with
  | chan w => exact decodeChan_wf h
  | host w => exact decodeHost_wf h
  | bus b => exact decodeBus_wf h

end Sys2Proof

/-! ## A channel round trip of any opcode (R206, R207, R208) -/

namespace Sys2Proof.Machine

open Sys2Proof

/-- An opcode outside R92 is answered by the executor without a line action (R95, R204). -/
theorem serveRequest_unknown {s : State} (ho : ¬ IsOpcode (opcodeField s.curReq)) :
    serve runRequest s = serve runUnknown s := by
  simp only [IsOpcode, not_or] at ho
  obtain ⟨htx, hdisc, hrx⟩ := ho
  have hcur : (maskIrq s).curReq = s.curReq := rfl
  rw [serve, runRequest, hcur, if_neg htx, if_neg hdisc, if_neg hrx, serve]

/-- `Chan` of an unknown opcode with nothing outstanding (R204, R206). -/
theorem chanUnknown_eq {opc : Byte} (ho : ¬ IsOpcode opc) (payload : Byte) {s : State} (h : s.quiet = true) :
    chan opc payload s =
      { s with curReq := requestWord opc payload, exStep := [], irqDis := false, exRsp := rspNack, rsp := rspNack,
               dState := .run, reqCount := s.reqCount + 1, rspCount := s.rspCount + 1,
               trace := s.trace ++ underMask [] } := by
  obtain ⟨hreq, hrsp, hex⟩ := (quiet_iff s).1 h
  have hpop : (popRequest (pushRequest opc payload s)).curReq = requestWord opc payload := rfl
  have hroom : (popRequest (pushRequest opc payload s)).rspSlot = none := hrsp
  rw [chan, executorTurn, serveRequest_unknown (by rwa [hpop, opcodeField_requestWord]), serveUnknown_eq _ hroom]
  simp [popRequest, pushRequest, popResponse, hreq, hrsp, hex]

/-- A round trip leaves its request word in `cur_req` and hands the executor's response over (R200, R206). -/
theorem chan_response {opc : Byte} (ho : IsOpcode opc) (payload : Byte) {s : State} (h : s.quiet = true) :
    (chan opc payload s).curReq = requestWord opc payload ∧ (chan opc payload s).rsp = (chan opc payload s).exRsp := by
  rcases ho with rfl | rfl | rfl
  · rw [chanTx_eq _ _ h]; exact ⟨rfl, rfl⟩
  · rw [chanDisc_eq _ _ h]; exact ⟨rfl, rfl⟩
  · rw [chanRx_eq _ _ h]; exact ⟨rfl, rfl⟩

/-- Settles O24: the three opcodes release the pin, and an unknown one does not touch it. -/
theorem chanCompletesAndAlternates : Obligations.ChanCompletesAndAlternates := by
  intro opc payload s hq hpin
  by_cases ho : IsOpcode opc
  · obtain ⟨-, -, hline⟩ := chan_frame ho payload hq
    obtain ⟨hreq, hrsp⟩ := chan_counts ho payload hq
    obtain ⟨hirq, hdir, -, -⟩ := chan_executor ho payload hq
    obtain ⟨hcur, hans⟩ := chan_response ho payload hq
    exact ⟨hline.quiet, hreq, hrsp, hline.run, hcur, hans, hirq, hdir⟩
  · rw [chanUnknown_eq ho payload hq]
    exact ⟨hq, rfl, rfl, rfl, rfl, rfl, rfl, hpin⟩

end Sys2Proof.Machine

/-! ## The decoder code by code, and the round trip (R91, R100, R101, R104, R105)

Each format's decoder is said once per code value; the statements on encodings are read off these equations. -/

namespace Sys2Proof

open Sys2Proof.Machine

/-! ### Format C -/

theorem decodeChan_tx {w : Word} (h : opcodeField w = opcTx) :
    decodeChan w = .ok (.chanTransmitByte (lowField w)) := by
  rw [decodeChan, h]; rfl

theorem decodeChan_disc {w : Word} (h : opcodeField w = opcDisc) : decodeChan w = .ok .chanDiscovery := by
  rw [decodeChan, h]; rfl

theorem decodeChan_rx {w : Word} (h : opcodeField w = opcRx) :
    decodeChan w = .ok (.chanReceiveByte (lowField w)) := by
  rw [decodeChan, h]; rfl

theorem decodeChan_unknown {w : Word} (h : ¬ IsOpcode (opcodeField w)) :
    decodeChan w = .error (.unknownChannelOpcode (opcodeField w)) := by
  simp only [IsOpcode, not_or] at h
  obtain ⟨htx, hdisc, hrx⟩ := h
  rw [decodeChan, if_neg htx, if_neg hdisc, if_neg hrx]

theorem decodeChan_ok_iff (w : Word) : (∃ i, decodeChan w = .ok i) ↔ IsOpcode (opcodeField w) := by
  constructor
  · rintro ⟨i, hi⟩
    by_contra h
    rw [decodeChan_unknown h] at hi
    cases hi
  · rintro (h | h | h)
    · exact ⟨_, decodeChan_tx h⟩
    · exact ⟨_, decodeChan_disc h⟩
    · exact ⟨_, decodeChan_rx h⟩

/-- The assigned channel opcodes are one range (R92, R95). -/
theorem isOpcode_iff (opc : Byte) : IsOpcode opc ↔ 0x01 ≤ opc.toNat ∧ opc.toNat ≤ 0x03 := by
  simp only [IsOpcode, opcTx, opcDisc, opcRx]
  bv_omega

/-! ### Format H -/

theorem decodeHost_discovery {w : Word} (h : opcodeField w = hopDiscovery) : decodeHost w = .ok .hostDiscovery := by
  rw [decodeHost, h]; rfl

theorem decodeHost_txByte {w : Word} (h : opcodeField w = hopTxByte) :
    decodeHost w = .ok (.hostTransmitByte (arg1Field w)) := by
  rw [decodeHost, h]; rfl

theorem decodeHost_rxByte {w : Word} (h : opcodeField w = hopRxByte) : decodeHost w = .ok .hostReceiveByte := by
  rw [decodeHost, h]; rfl

theorem decodeHost_mfgId {w : Word} (h : opcodeField w = hopMfgId) :
    decodeHost w = .ok (.hostManufacturerId (devField w)) := by
  rw [decodeHost, h]; rfl

theorem decodeHost_readBlock {w : Word} (h : opcodeField w = hopReadBlock) :
    decodeHost w = .ok (.hostReadBlock (devField w) (arg1Field w) (lowField w)) := by
  rw [decodeHost, h]; rfl

theorem decodeHost_setSpeed {w : Word} (h : opcodeField w = hopSetSpeed) :
    decodeHost w = .ok (.hostSetSpeed (speedField w)) := by
  rw [decodeHost, h]; rfl

/-- The six host operations are one range of codes (R100, R102). -/
theorem hostCode_cases {hop : Byte} (hlo : 0x10 ≤ hop.toNat) (hhi : hop.toNat ≤ 0x15) :
    hop = hopDiscovery ∨ hop = hopTxByte ∨ hop = hopRxByte ∨ hop = hopMfgId ∨ hop = hopReadBlock ∨
      hop = hopSetSpeed := by
  simp only [hopDiscovery, hopTxByte, hopRxByte, hopMfgId, hopReadBlock, hopSetSpeed]
  bv_omega

theorem decodeHost_ok_iff (w : Word) :
    (∃ i, decodeHost w = .ok i) ↔ 0x10 ≤ (opcodeField w).toNat ∧ (opcodeField w).toNat ≤ 0x15 := by
  constructor
  · rintro ⟨i, hi⟩
    by_contra h
    rw [decodeHost_unknown (w := w) (by simp only [opcodeField] at h; omega)] at hi
    cases hi
  · rintro ⟨hlo, hhi⟩
    rcases hostCode_cases hlo hhi with h | h | h | h | h | h
    · exact ⟨_, decodeHost_discovery h⟩
    · exact ⟨_, decodeHost_txByte h⟩
    · exact ⟨_, decodeHost_rxByte h⟩
    · exact ⟨_, decodeHost_mfgId h⟩
    · exact ⟨_, decodeHost_readBlock h⟩
    · exact ⟨_, decodeHost_setSpeed h⟩

/-- Settles O4: the assigned codes of each format are one range. -/
theorem reservedWordsDecodeToNothing : Obligations.ReservedWordsDecodeToNothing := fun w =>
  ⟨(decodeChan_ok_iff w).trans (isOpcode_iff _), decodeHost_ok_iff w⟩

/-! ### Operands that fit their field -/

theorem threeBits_of_devOk {dev : Byte} (h : devOk dev = true) : (dev.extractLsb' 0 3).setWidth 8 = dev := by
  have hlt : dev.toNat < 8 := by simpa [devOk] using h
  apply BitVec.eq_of_toNat_eq
  simp
  omega

theorem oneBit_of_speedOk {speed : Byte} (h : speedOk speed = true) :
    (speed.extractLsb' 0 1).setWidth 8 = speed := by
  have hlt : speed.toNat < 2 := by simpa [speedOk] using h
  apply BitVec.eq_of_toNat_eq
  simp
  omega

/-! ### Format B: the fields of an assembled bus opcode byte -/

theorem getLsbD_devByte (bopc : BitVec 4) (dev : Byte) (rw : Bool) (i : Nat) :
    (devByte bopc dev rw).getLsbD i =
      if i < 1 then (BitVec.ofBool rw).getLsbD i
      else if i < 4 then (dev.extractLsb' 0 3).getLsbD (i - 1)
      else bopc.getLsbD (i - 4) := by
  refine (BitVec.getLsbD_append (x := bopc ++ dev.extractLsb' 0 3) (y := BitVec.ofBool rw)).trans ?_
  rw [BitVec.getLsbD_append]
  by_cases h : i < 1 <;> by_cases h2 : i < 4 <;>
    simp [h, h2, show i - 1 < 3 ↔ i < 4 by omega, Nat.sub_sub]

@[simp] theorem opcode_devByte (bopc : BitVec 4) (dev : Byte) (rw : Bool) :
    (devByte bopc dev rw).extractLsb' 4 4 = bopc := by
  apply BitVec.eq_of_getLsbD_eq
  intro i hi
  simp [getLsbD_devByte, hi]

@[simp] theorem readBit_devByte (bopc : BitVec 4) (dev : Byte) (rw : Bool) :
    (devByte bopc dev rw)[0] = rw := by
  rw [← BitVec.getLsbD_eq_getElem, getLsbD_devByte]
  simp

@[simp] theorem busDevField_devByte (bopc : BitVec 4) (dev : Byte) (rw : Bool) :
    busDevField (devByte bopc dev rw) = (dev.extractLsb' 0 3).setWidth 8 := by
  rw [busDevField]
  congr 1
  apply BitVec.eq_of_getLsbD_eq
  intro i hi
  have h : ¬ 1 + i < 1 ∧ 1 + i < 4 := by omega
  simp [getLsbD_devByte, hi, h]

theorem decodeBus_eepromW (dev : Byte) :
    decodeBus (devByte busOpcEeprom dev false) = .ok (.busEepromW ((dev.extractLsb' 0 3).setWidth 8)) := by
  simp [decodeBus]

theorem decodeBus_eepromR (dev : Byte) :
    decodeBus (devByte busOpcEeprom dev true) = .ok (.busEepromR ((dev.extractLsb' 0 3).setWidth 8)) := by
  simp [decodeBus]

theorem decodeBus_mfgidR (dev : Byte) :
    decodeBus (devByte busOpcMfgId dev true) = .ok (.busMfgidR ((dev.extractLsb' 0 3).setWidth 8)) := by
  simp [decodeBus, show busOpcMfgId ≠ busOpcEeprom by decide]

/-! ### The round trip -/

/-- Settles O1: the code selects the row, and each field is the operand it was assembled from. -/
theorem decodeOfEncodeIsTheInstruction : Obligations.DecodeOfEncodeIsTheInstruction := by
  intro i hi
  cases i with
  | chanTransmitByte payload => simp [encode, decode, decodeChan_tx]
  | chanDiscovery => simp [encode, decode, decodeChan_disc]
  | chanReceiveByte payload => simp [encode, decode, decodeChan_rx]
  | hostDiscovery => simp [encode, decode, decodeHost_discovery]
  | hostTransmitByte byte => simp [encode, decode, decodeHost_txByte]
  | hostReceiveByte => simp [encode, decode, decodeHost_rxByte]
  | hostManufacturerId dev => simp [encode, decode, decodeHost_mfgId, threeBits_of_devOk hi]
  | hostReadBlock dev start length => simp [encode, decode, decodeHost_readBlock, threeBits_of_devOk hi]
  | hostSetSpeed speed => simp [encode, decode, decodeHost_setSpeed, oneBit_of_speedOk hi]
  | busEepromW dev => simp [encode, decode, decodeBus_eepromW, threeBits_of_devOk hi]
  | busEepromR dev => simp [encode, decode, decodeBus_eepromR, threeBits_of_devOk hi]
  | busMfgidR dev => simp [encode, decode, decodeBus_mfgidR, threeBits_of_devOk hi]

/-- Settles O3: what the decoder accepts is what it was encoded from, and the round trip is the converse. -/
theorem busByteDecodesExactly : Obligations.BusByteDecodesExactly := by
  intro b i
  constructor
  · intro h
    exact ⟨decodeBus_wf h, decodeBus_devByte b i h⟩
  · rintro ⟨hwf, henc⟩
    have h := decodeOfEncodeIsTheInstruction i hwf
    rwa [henc] at h

/-! ### Ignored bits (R91, R102) -/

/-- A request word is read by its bits 31:24 and 7:0 alone. -/
theorem decodeChan_congr {w v : Word} (hop : opcodeField w = opcodeField v) (hlow : lowField w = lowField v) :
    decodeChan w = decodeChan v := by
  rw [decodeChan, hop, hlow, decodeChan]

/-- A host word is read by its bits 31:24 and 18:0 alone. -/
theorem decodeHost_congr {w v : Word} (hop : opcodeField w = opcodeField v)
    (hlow : w.extractLsb' 0 19 = v.extractLsb' 0 19) : decodeHost w = decodeHost v := by
  have hfield (k n : Nat) (hkn : k + n ≤ 19) : w.extractLsb' k n = v.extractLsb' k n := by
    apply BitVec.eq_of_getLsbD_eq
    intro i hi
    have hbit := congrArg (fun x => x.getLsbD (k + i)) hlow
    have hlt : k + i < 19 := by omega
    simpa [hi, hlt] using hbit
  have hdev : devField w = devField v := by rw [devField, hfield 16 3 (by decide), devField]
  have harg1 : arg1Field w = arg1Field v := hfield 8 8 (by decide)
  have harg2 : lowField w = lowField v := hfield 0 8 (by decide)
  have hspeed : speedField w = speedField v := by rw [speedField, hfield 8 1 (by decide), speedField]
  rw [decodeHost, hop, hdev, harg1, harg2, hspeed, decodeHost]

/-- Bit 8 alone is the speed index (R101). -/
theorem speedField_congr {w v : Word} (h : w.getLsbD 8 = v.getLsbD 8) : speedField w = speedField v := by
  rw [speedField, speedField]
  congr 1
  apply BitVec.eq_of_getLsbD_eq
  intro i hi
  obtain rfl : i = 0 := by omega
  simpa using h

/-- Settles O5: each decoder reads the fields of the selected row only. -/
theorem ignoredBitsDoNotMatter : Obligations.IgnoredBitsDoNotMatter := by
  intro w v hop
  refine ⟨decodeChan_congr hop, decodeHost_congr hop, ?_⟩
  intro hset hbit
  rw [decodeHost_setSpeed hset, decodeHost_setSpeed (hop.symm.trans hset), speedField_congr hbit]

/-! ### Words of the spec -/

/-- Settles O6: the ten words, run through the decoder. -/
theorem wordsOfTheSpecDecode : Obligations.WordsOfTheSpecDecode := by
  unfold Obligations.WordsOfTheSpecDecode
  decide

end Sys2Proof

/-! ## A bus opcode byte sent alone (R105, log 6) -/

namespace Sys2Proof.Machine

open Sys2Proof

/-- Settles O29: each of the three bytes is one TransmitByte round trip. -/
theorem busOpcodeBytesComplete : Obligations.BusOpcodeBytesComplete := by
  intro dev s hq
  have hsend (b : Byte) : whenQuiet .requestOutstanding (chan opcTx b) s = .next (txTrip 8 b s) := by
    rw [whenQuiet_quiet _ _ hq, chanTx_trip b s hq]
  exact ⟨8, hsend (devByte busOpcEeprom dev false), hsend (devByte busOpcEeprom dev true),
    hsend (devByte busOpcMfgId dev true)⟩

end Sys2Proof.Machine

/-! ## The line driver and the delays (R121, R122, R126 to R128)

A delay is a load, a count and an event, in either context; what a tick does in each of the three is said once, and the
count once for any counter. -/

namespace Sys2Proof.Machine

open Sys2Proof

/-- Settles O48: a step is one action or one of three whole instructions, and each is a run of actions. -/
theorem stepIsARunOfTheClockedMachine : Obligations.StepIsARunOfTheClockedMachine := fun _ _ => reaches_of_step

/-! ### Counting -/

/-- A counter that one tick lowers by one stands at `n - k` after `k` ticks. -/
theorem ticks_lowerCounter {f : Word → State} (hcount : ∀ c, c ≠ 0 → tick (f c) = f (c - 1)) {n k : Nat}
    (hn : n < 2 ^ 32) (hk : k ≤ n) : ticks k (f (BitVec.ofNat 32 n)) = f (BitVec.ofNat 32 (n - k)) := by
  induction k generalizing n with
  | zero => rfl
  | succ k ih =>
    have hne : BitVec.ofNat 32 n ≠ 0 := by bv_omega
    have hpred : BitVec.ofNat 32 n - 1 = BitVec.ofNat 32 (n - 1) := by bv_omega
    show ticks k (tick (f (BitVec.ofNat 32 n))) = _
    rw [hcount _ hne, hpred, ih (by omega) (by omega), Nat.sub_sub, Nat.add_comm 1 k]

/-- One tick loads the counter, `n` ticks count it to 0, one more ends the delay. -/
theorem ticks_loadCountEnd {s t : State} {f : Word → State} {n : Nat} (hn : n < 2 ^ 32)
    (hload : tick s = f (BitVec.ofNat 32 n)) (hcount : ∀ c, c ≠ 0 → tick (f c) = f (c - 1)) (hend : tick (f 0) = t) :
    (∀ k ≤ n, ticks (1 + k) s = f (BitVec.ofNat 32 (n - k))) ∧ ticks (n + 2) s = t := by
  have hrun (k : Nat) (hk : k ≤ n) : ticks (1 + k) s = f (BitVec.ofNat 32 (n - k)) := by
    rw [ticks_add]
    show ticks k (tick s) = _
    rw [hload, ticks_lowerCounter hcount hn hk]
  refine ⟨hrun, ?_⟩
  rw [show n + 2 = 1 + n + 1 by omega, ticks_add, hrun n le_rfl, Nat.sub_self]
  exact hend

/-! ### A delay of the executor -/

/-- In `Delay(us)` of the executor, the counter at `c`, the lines `l` to follow. -/
def inDelay (s : State) (us : Nat) (l : List Act) (c : Word) : State :=
  { s with exStep := .counting us :: l, dlyCnt := c }

/-- In `EX_RUN` a tick takes the next line. -/
theorem tick_exLine {s : State} {a : Act} {l : List Act} (hr : resetAwaited s = false) (hx : s.exState = .run)
    (hs : s.exStep = a :: l) : tick s = doAct a { s with exStep := l } := by
  rw [tick_noReset hr]
  simp [executorReady, tickExecutor, runLine, hx, hs]

/-- A delay of the executor tick by tick (R121). -/
theorem ticks_delay {s : State} {us : Nat} {l : List Act} (hx : s.exState = .run) (hs : s.exStep = .delay us :: l)
    (hr : resetAwaited s = false) (hfit : us * s.cfg.params.cyclesPerUs < 2 ^ 32) :
    (∀ k ≤ us * s.cfg.params.cyclesPerUs,
      ticks (1 + k) s = inDelay s us l (BitVec.ofNat 32 (us * s.cfg.params.cyclesPerUs - k))) ∧
    ticks (us * s.cfg.params.cyclesPerUs + 2) s = delayEx us { s with exStep := l } := by
  have hline (c : Word) : tick (inDelay s us l c) = doAct (.counting us) { s with exStep := l, dlyCnt := c } :=
    tick_exLine (s := inDelay s us l c) hr hx rfl
  refine ticks_loadCountEnd hfit (tick_exLine hr hx hs) (fun c hc => ?_) (hline 0)
  rw [hline]
  exact if_neg hc

/-! ### A settle delay of the dispatch sequencer -/

/-- In a settle delay, the counter at `c`, the line `d` to follow. -/
def inSettle (s : State) (d : DStep) (c : Word) : State := { s with dState := .delay, dStep := d, dlyD := c }

/-- A settle delay tick by tick, from the line that starts it to the line `d'` (R121, R175). -/
theorem ticks_settle {s : State} {us : Nat} {d d' : DStep} (h : AtLine s) (hr : resetAwaited s = false)
    (hfit : us * s.cfg.params.cyclesPerUs < 2 ^ 32) (hstart : runDispatchLine s = startSettle us d s)
    (hend : countSettle (inSettle s d 0) = endSettle us d' (inSettle s d 0)) :
    (∀ k ≤ us * s.cfg.params.cyclesPerUs,
      ticks (1 + k) s = inSettle s d (BitVec.ofNat 32 (us * s.cfg.params.cyclesPerUs - k))) ∧
    ticks (us * s.cfg.params.cyclesPerUs + 2) s = goto d' (delayDispatch us s) := by
  have hcycle (c : Word) : tick (inSettle s d c) = countSettle (inSettle s d c) :=
    tick_quiet (s := inSettle s d c) h.quiet hr
  refine ticks_loadCountEnd hfit ?_ (fun c hc => ?_) ((hcycle 0).trans hend)
  · rw [tick_quiet h.quiet hr]
    simp only [tickDispatch, h.run]
    exact hstart
  · rw [hcycle]
    exact if_neg hc

/-- Every duration of a configuration fits the counters (R7). -/
theorem duration_fits (c : Config) {us : Nat} (h : us ∈ c.params.durations) : us * c.params.cyclesPerUs < 2 ^ 32 := by
  have hwf := c.wf
  simp only [Params.wf, Bool.and_eq_true, List.all_eq_true, decide_eq_true_eq] at hwf
  exact hwf.2 us h

/-- Settles O10: a load, a count to 0 and an event, in the executor and at both settle lines. -/
theorem delayCountsExactly : Obligations.DelayCountsExactly := by
  refine ⟨fun s us l hx hs hr hfit => ticks_delay hx hs hr hfit, fun s us d d' hd hq hr hlines => ?_⟩
  have hrun : goto d' (delayDispatch us s) = { s with dlyD := 0, dStep := d', trace := s.trace ++ [.idle us] } := by
    rw [hd]; rfl
  rw [← hrun]
  rcases hlines with ⟨k, hs, hack, rfl, rfl, rfl⟩ | ⟨k, hs, rfl, rfl, rfl⟩
  · refine ticks_settle ⟨hq, hd⟩ hr (duration_fits s.cfg (by simp [Params.durations])) ?_ rfl
    simp [runDispatchLine, hs, hack]
  · refine ticks_settle ⟨hq, hd⟩ hr (duration_fits s.cfg (by simp [Params.durations])) ?_ rfl
    simp [runDispatchLine, hs]

/-! ### The line driver -/

/-- While the pin drives, the line has the latch's 0 (R42, R129). -/
theorem lineLevel_driving {s : State} (hd : s.pinDir = true) (hl : s.pinLatch = false) (others : Bool) :
    lineLevel s others = false := by
  simp [lineLevel, hd, hl]

/-- With the pin released the line is the others' (R127). -/
theorem lineLevel_released {s : State} (hd : s.pinDir = false) (others : Bool) : lineLevel s others = others := by
  simp [lineLevel, hd]

/-- Settles O7: the pin drives the hardwired 0. -/
theorem driveLowForcesTheLineLow : Obligations.DriveLowForcesTheLineLow := by
  intro s hl
  exact ⟨rfl, rfl, lineLevel_driving (s := driveLow s) rfl hl, fun hd => by rw [driveLow, ← hd]⟩

/-- Settles O8: a released pin does not show on the line. -/
theorem releaseHighLeavesTheLineToOthers : Obligations.ReleaseHighLeavesTheLineToOthers := by
  intro s
  exact ⟨rfl, rfl, lineLevel_released (s := releaseHigh s) rfl, fun hd => by rw [releaseHigh, ← hd]⟩

/-- Settles O9: the pin is released when the level is read, so the bit is the environment's. -/
theorem sampleReleasesThenReads : Obligations.SampleReleasesThenReads := by
  intro s
  have hbit : sampledBit s = levelAt s 0 := (sampledBit_eq s).trans (nextLevel_eq s)
  refine ⟨hbit, ?_⟩
  rw [sample, hbit, List.drop_one]
  rfl

end Sys2Proof.Machine

/-! ## The bit codec (R140 to R144)

What a symbol lasts is said of its events, once for either transmit symbol; under the profile invariants each is one bit
period. -/

namespace Sys2Proof.Machine

open Sys2Proof

/-! ### The active profile -/

/-- The invariants of a Timing Profile (R31). -/
theorem profile_wf_iff (p : Profile) :
    p.wf = true ↔ p.tLow1 ≤ p.tBit ∧ p.tLow0 ≤ p.tBit ∧ p.tRd + p.tMr < p.tBit ∧ p.tLow1 < p.tLow0 := by
  simp [Profile.wf, and_assoc]

/-- A configuration is well-formed, so either profile it holds is (R7). -/
theorem profile_wf (s : State) : s.profile.wf = true := by
  have hwf := s.cfg.wf
  simp only [Params.wf, Bool.and_eq_true] at hwf
  obtain ⟨⟨⟨-, h0⟩, h1⟩, -⟩ := hwf
  unfold State.profile
  split
  · exact h1
  · exact h0

/-! ### Nominal time -/

theorem traceTime_append (l l' : List Event) : traceTime (l ++ l') = traceTime l + traceTime l' := by
  induction l with
  | nil => simp [traceTime]
  | cons e l ih => simp [traceTime, ih, Nat.add_assoc]

/-- A transmit symbol lasts one bit period: its low pulse fits the period (R31 (i)). -/
theorem traceTime_symbolEvents {p : Profile} (hp : p.wf = true) (bit : Bool) :
    traceTime (symbolEvents p bit) = p.tBit := by
  obtain ⟨hlow1, hlow0, -, -⟩ := (profile_wf_iff p).mp hp
  cases bit
  · exact Nat.add_sub_of_le hlow0
  · exact Nat.add_sub_of_le hlow1

/-- A read symbol lasts one bit period: pulse and recovery fit the period (R31 (ii)), and the sample takes no time. -/
theorem traceTime_readEvents {p : Profile} (hp : p.wf = true) (b : Bool) : traceTime (readEvents p b) = p.tBit := by
  obtain ⟨-, -, hread, -⟩ := (profile_wf_iff p).mp hp
  simp only [readEvents, traceTime, Event.time]
  omega

/-! ### The four operations -/

/-- Settles O11: both symbols, their events written out. -/
theorem transmitSymbolShapes : Obligations.TransmitSymbolShapes := fun s =>
  ⟨transmitOne_eq s, transmitZero_eq s⟩

/-- Settles O12: the read symbol, its events written out; the acknowledge read is the same operation. -/
theorem readBitShape : Obligations.ReadBitShape := fun s =>
  ⟨readBit_eq s, rfl, rfl, rfl⟩

/-- Settles O13: each operation releases the pin and adds the events of one symbol, which last one bit period. -/
theorem everySymbolLastsOneBitPeriod : Obligations.EverySymbolLastsOneBitPeriod := by
  intro s f hf
  have hp : s.profile.wf = true := profile_wf s
  have hread : traceTime (readBit s).trace = traceTime s.trace + s.profile.tBit ∧ (readBit s).pinDir = false := by
    rw [readBit_eq]
    exact ⟨by rw [traceTime_append, traceTime_readEvents hp], rfl⟩
  simp only [List.mem_cons, List.not_mem_nil, or_false] at hf
  rcases hf with rfl | rfl | rfl | rfl
  · rw [transmitOne_eq]
    exact ⟨by rw [traceTime_append, traceTime_symbolEvents hp], rfl⟩
  · rw [transmitZero_eq]
    exact ⟨by rw [traceTime_append, traceTime_symbolEvents hp], rfl⟩
  · exact hread
  · exact hread

end Sys2Proof.Machine

/-! ## The byte codec (R150, R151)

What either procedure does to the state is said in Laws/Codec.lean; here its events last one bit period each, eight data
symbols and one acknowledge symbol. -/

namespace Sys2Proof.Machine

open Sys2Proof

/-! ### Nominal time -/

/-- Symbols that last one time each last it as many times as there are symbols. -/
theorem traceTime_flatMap {α : Type} {f : α → List Event} {t : Nat} (hf : ∀ a, traceTime (f a) = t) (l : List α) :
    traceTime (l.flatMap f) = l.length * t := by
  induction l with
  | nil => simp [traceTime]
  | cons a l ih =>
    rw [List.flatMap_cons, traceTime_append, hf, ih, List.length_cons, Nat.succ_mul, Nat.add_comm]

/-- Eight data symbols and the acknowledge read (R150). -/
theorem traceTime_transmitEvents {p : Profile} (hp : p.wf = true) (v : Byte) (a : Bool) :
    traceTime (transmitEvents p v a) = 9 * p.tBit := by
  rw [transmitEvents, byteEvents, traceTime_append, traceTime_flatMap fun _ => traceTime_symbolEvents hp _,
    traceTime_readEvents hp, List.length_range]
  omega

/-- Eight samples and the acknowledge sent (R151). -/
theorem traceTime_receiveEvents {p : Profile} (hp : p.wf = true) (f : Nat → Bool) (sendAck : Bool) :
    traceTime (receiveEvents p f sendAck) = 9 * p.tBit := by
  rw [receiveEvents, traceTime_append, traceTime_flatMap fun _ => traceTime_readEvents hp _,
    traceTime_symbolEvents hp, List.length_range]
  omega

/-! ### The two operations -/

/-- Settles O14: the data symbols, then the read symbol; nine symbols of one bit period. -/
theorem transmitByteShape : Obligations.TransmitByteShape := by
  intro b s
  rw [transmitByte_eq]
  refine ⟨⟨8, ?_⟩, ?_⟩
  · rw [transmitEvents, byteEvents, ← List.append_assoc]
  · rw [traceTime_append, traceTime_transmitEvents (profile_wf s)]

/-- Settles O15: the samples, then the acknowledge symbol; the samples of a device that sends `v` spell `v`. -/
theorem receiveByteShape : Obligations.ReceiveByteShape := by
  intro sendAck s
  rw [receiveByte_eq]
  refine ⟨⟨8, ?_⟩, ?_, fun v hv => byteMsbFirst_of_bits hv⟩
  · rw [receiveEvents, ← List.append_assoc]
  · rw [traceTime_append, traceTime_receiveEvents (profile_wf s)]

end Sys2Proof.Machine

/-! ## Discovery (R160) -/

namespace Sys2Proof.Machine

open Sys2Proof

/-- The request answers with the response code of the level it sampled (R160, R201). -/
theorem runDiscovery_exRsp (s : State) : (runDiscovery s).exRsp = rspOfLevel (levelAt s 0) := by
  rw [runDiscovery, discovery_eq]
  exact rspOfLevel_eq (levelAt s 0)

/-- Settles O16: the record update of `discovery`, and the response code of the presence bit it leaves. -/
theorem discoveryShape : Obligations.DiscoveryShape := by
  intro s
  exact ⟨discovery_eq s, runDiscovery_exRsp s⟩

end Sys2Proof.Machine

/-! ## `loadAddress`, `readByte` and the vote, outcome by outcome (R171, R175, R177) -/

namespace Sys2Proof.Machine

open Sys2Proof

/-! ### An address outside the device -/

/-- No request is made of it (R171). -/
theorem loadAddress_outOfRange (dev : Byte) {a : Byte} (ha : 127 < a.toNat) (s : State) :
    loadAddress dev a s = (some .badAddr, s) := by
  have hout : addrOutOfRange a = true := decide_eq_true ha
  rw [loadAddress, if_pos hout]

/-- `readByte` passes the error through (R175). -/
theorem readByte_outOfRange (dev : Byte) {a : Byte} (ha : 127 < a.toNat) (s : State) :
    readByte dev a s = (.err .badAddr, s) := by
  rw [readByte, loadAddress_outOfRange dev ha]

/-! ### The round trips -/

/-- Settles O26: an address out of range, or the two round trips. -/
theorem loadAddressOutcomes : Obligations.LoadAddressOutcomes := by
  intro dev a s hq
  refine ⟨8, ?_⟩
  by_cases ha : 127 < a.toNat
  · rw [if_pos ha, loadAddress_outOfRange dev ha]
  · rw [if_neg ha, loadAddress_trips hq (Nat.le_of_not_lt ha)]
    rfl

/-- Settles O27: an address out of range, or the four round trips; the byte is made of the levels after the three
acknowledges. -/
theorem readByteOutcomes : Obligations.ReadByteOutcomes := by
  intro dev a s hq
  refine ⟨8, ?_⟩
  dsimp only
  by_cases ha : 127 < a.toNat
  · rw [if_pos ha, readByte_outOfRange dev ha]
  · have hbits : levelAt (intentTrip dev a s) = fun j => levelAt s (3 + j) := funext (intentTrip_levelAt dev a s)
    rw [if_neg ha, readByte_trips hq (Nat.le_of_not_lt ha), hbits]
    rfl

/-! ### The vote -/

/-- `verifiedRead` by the results of its reads: a later read leaves the samples taken before it, so the samples compared
are these results (R177). -/
theorem verifiedRead_byResults (dev a : Byte) {s : State} (h : AtLine s) :
    let s1 := takeSample .first dev a s
    let s2 := takeSample .second dev a s1
    let s3 := takeSample .third dev a s2
    let r0 := (readByte dev a s).1
    let r1 := (readByte dev a s1).1
    let r2 := (readByte dev a s2).1
    verifiedRead dev a s =
      if r0 = r1 then (r0, s2) else (if r0 = r2 then r0 else if r1 = r2 then r1 else .err .integrity, s3) := by
  intro s1 s2 s3 r0 r1 r2
  have h1 : AtLine s1 := (takeSample_frame .first dev a h).2
  have h2 : AtLine s2 := (takeSample_frame .second dev a h1).2
  have kept1 : SameSamples s1 (readByte dev a s1).2 := (readByte_frame dev a h1).2.1
  have kept2 : SameSamples s2 (readByte dev a s2).2 := (readByte_frame dev a h2).2.1
  have second0 : s2.samp0 = r0 := kept1.samp0
  have second1 : s2.samp1 = r1 := rfl
  have third0 : s3.samp0 = r0 := kept2.samp0.trans second0
  have third1 : s3.samp1 = r1 := kept2.samp1
  have third2 : s3.samp2 = r2 := rfl
  have hvote : voteThird s3 = if r0 = r2 then r0 else if r1 = r2 then r1 else .err .integrity := by
    rw [voteThird, third0, third1, third2]
  change (if s2.samp0 = s2.samp1 then (s2.samp0, s2) else (voteThird s3, s3)) = _
  rw [second0, second1, hvote]

/-- Settles O28: the first two results agree, or the third agrees with the first, with the second, or with neither. -/
theorem verifiedReadVotes : Obligations.VerifiedReadVotes := by
  intro dev a s hq hd r0 s1 r1 s2 r2 s3
  have hv : verifiedRead dev a s =
      if r0 = r1 then (r0, s2) else (if r0 = r2 then r0 else if r1 = r2 then r1 else .err .integrity, s3) :=
    verifiedRead_byResults dev a ⟨hq, hd⟩
  rw [hv]
  refine ⟨fun h01 => ?_, fun h01 h02 => ?_, fun h01 h12 => ?_, fun h01 h02 h12 => ?_⟩
  · rw [if_pos h01]
  · rw [if_neg h01, if_pos h02]
  · have h02 : r0 ≠ r2 := fun h02 => h01 (h02.trans h12.symm)
    rw [if_neg h01, if_neg h02, if_pos h12]
  · rw [if_neg h01, if_neg h02, if_neg h12]

end Sys2Proof.Machine

/-! ## Channel requests in the executor (R201 to R205)

What the executor makes of each request is said in Laws/Channel.lean; here is where a word is fetched, what a step then
runs, and where the channel waits. -/

namespace Sys2Proof.Machine

open Sys2Proof

/-! ### What a step runs -/

/-- A fetched word that is an instruction is run. -/
theorem step_fetched {s s' : State} {c : Code} {i : Instr} (hf : fetch s = some (c, s')) (hd : decode c = .ok i) :
    step s = exec i s' := by
  simp only [step, hf, hd]

/-- A fetched word that is none has the effect the spec gives it (R204, R227). -/
theorem step_fetchedUnknown {s s' : State} {c : Code} {e : DecodeError} (hf : fetch s = some (c, s'))
    (hd : decode c = .error e) : step s = runUnknownCode c s' := by
  simp only [step, hf, hd]

/-- Where nothing is fetched a step is one action. -/
theorem step_notFetched {s : State} (hf : fetch s = none) : step s = .next (tick s) := by
  simp only [step, hf]

/-! ### Where an instruction is fetched -/

/-- A waiting executor pops the request word (R200). -/
theorem fetch_requested {s : State} {w : Word} (hr : resetAwaited s = false) (hx : s.exState = .wait)
    (hw : s.reqSlot = some w) : fetch s = some (.chan w, popRequest s) := by
  have hpending : pendingRequest s = some w := by rw [pendingRequest, if_pos hx, hw]
  simp only [fetch, hr, hpending, Bool.false_eq_true, if_false]

/-- A running sequencer with nothing outstanding sends the byte on its line (log 6). -/
theorem fetch_selected {s : State} {b : Byte} (hr : resetAwaited s = false) (hd : s.dState = .run)
    (hs : s.dStep = .select b) (hq : s.quiet = true) : fetch s = some (.bus b, goto .ret s) := by
  have hselect : selectByte s = some b := by simp only [selectByte, hs, hd, hq, and_self, if_true]
  simp only [fetch, hr, pendingRequest_quiet hq, hselect, Bool.false_eq_true, if_false]

/-- Outside `D_IDLE` no host word is accepted (R220). -/
theorem presentedWord_notIdle {s : State} (hd : s.dState ≠ .idle) : presentedWord s = none := by
  unfold presentedWord
  split
  · exact if_neg fun h => hd h.1
  · rfl

/-- With nothing outstanding, an instruction starts in `D_RUN` and `D_IDLE` alone. -/
theorem fetch_quiet {s : State} (hq : s.quiet = true) (hrun : s.dState ≠ .run) (hidle : s.dState ≠ .idle) :
    fetch s = none := by
  unfold fetch
  rw [pendingRequest_quiet hq, selectByte_notRunning hrun, presentedWord_notIdle hidle]
  exact ite_self _

/-- The popped request stands in `cur_req`, the executor in `EX_MASK` (R200). -/
theorem popRequest_full {s : State} {w : Word} (hw : s.reqSlot = some w) :
    popRequest s = { s with curReq := w, reqSlot := none, exState := .mask } := by
  simp only [popRequest, hw]

/-- Settles O47: each of the three places of `fetch`, and `exec` of what stands there. -/
theorem stepRunsTheDecodedInstruction : Obligations.StepRunsTheDecodedInstruction := by
  refine ⟨fun s w i hr hx hw hi => ?_, fun s w rest i hh hr hd hq hi => ?_, fun s b i hr hd hs hq hi => ?_⟩
  · rw [step_fetched (fetch_requested hr hx hw) hi, popRequest_full hw]
  · rw [step_fetched (fetch_presented hh hr hd hq) hi, acceptHost, hh, List.tail_cons]
  · rw [step_fetched (fetch_selected hr hd hs hq) hi, goto]

/-! ### The requests -/

/-- Settles O18: the word selects the row, and the row is served with room for its response. -/
theorem chanDiscoveryAnswersPresence : Obligations.ChanDiscoveryAnswersPresence := by
  intro w s hw hroom
  refine ⟨decodeChan_disc hw, ?_⟩
  rw [exec, execChanDiscovery, serveDiscovery_eq s hroom]
  rfl

/-- Settles O19: the word selects the row, and the row is served with room for its response. -/
theorem chanTransmitByteAnswersAcknowledge : Obligations.ChanTransmitByteAnswersAcknowledge := by
  intro w s hw hroom
  refine ⟨decodeChan_tx hw, 8, ?_⟩
  rw [exec, execChanTransmitByte, serveTransmitByte_eq _ s hroom]
  rfl

/-- Settles O20: the word selects the row, and the row is served with room for its response. -/
theorem chanReceiveByteAnswersTheByte : Obligations.ChanReceiveByteAnswersTheByte := by
  intro w s hw hroom
  refine ⟨decodeChan_rx hw, 8, ?_⟩
  rw [exec, execChanReceiveByte, serveReceiveByte_eq _ s hroom]
  rfl

/-- Settles O21: the word is fetched, decodes to nothing, and is served without a line action. -/
theorem unknownRequestAnswersNack : Obligations.UnknownRequestAnswersNack := by
  intro w s hw hx hreq hrsp hr
  have hopc : ¬ IsOpcode (opcodeField w) := by
    simpa [IsOpcode, opcodeField, opcTx, opcDisc, opcRx] using hw
  have hroom : (popRequest s).rspSlot = none := by rw [popRequest_full hreq]; exact hrsp
  rw [step_fetchedUnknown (fetch_requested hr hx hreq) (decodeChan_unknown hopc), runUnknownCode, execChanUnknown,
    serveUnknown_eq _ hroom, popRequest_full hreq, hx]
  rfl

/-! ### Waiting (R205) -/

/-- An operation that leaves a full `rsp_slot` alone ends before its push (R200). -/
theorem serve_waits {body : State → State} {s : State} {r : Byte} (hfull : s.rspSlot = some r)
    (hbody : (body (maskIrq s)).rspSlot = (maskIrq s).rspSlot) :
    (serve body s).exState = .push ∧ (serve body s).rspSlot = some r := by
  have h : (body (maskIrq s)).rspSlot = some r := hbody.trans hfull
  rw [serve_blocked body s r h]
  exact ⟨rfl, h⟩

theorem runDiscovery_rspSlot (s : State) : (runDiscovery s).rspSlot = s.rspSlot := by
  rw [runDiscovery, discovery_eq]; rfl

theorem runTransmitByte_rspSlot (payload : Byte) (s : State) : (runTransmitByte payload s).rspSlot = s.rspSlot := by
  rw [runTransmitByte, transmitByte_eq]; rfl

theorem runReceiveByte_rspSlot (payload : Byte) (s : State) : (runReceiveByte payload s).rspSlot = s.rspSlot := by
  rw [runReceiveByte, receiveByte_eq]; rfl

/-- The pop of an empty `rsp_slot` changes nothing. -/
theorem popResponse_empty {s : State} (h : s.rspSlot = none) : popResponse s = s := by
  simp only [popResponse, h]

/-- Settles O22: no request touches `rsp_slot` before its push, and with nothing outstanding the pop is the step. -/
theorem pushAndPopWait : Obligations.PushAndPopWait := by
  refine ⟨fun i s r hfull hi => ?_, fun s hd hq hr => ?_⟩
  · rcases hi with rfl | ⟨p, rfl | rfl⟩
    · exact ⟨_, rfl, serve_waits hfull (runDiscovery_rspSlot _)⟩
    · exact ⟨_, rfl, serve_waits hfull (runTransmitByte_rspSlot p _)⟩
    · exact ⟨_, rfl, serve_waits hfull (runReceiveByte_rspSlot p _)⟩
  · obtain ⟨-, hempty, -⟩ := (quiet_iff s).1 hq
    have htick : tick s = popResponse s := by
      rw [tick_quiet hq hr, tickDispatch, hd]
    rw [step_notFetched (fetch_quiet hq (by simp [hd]) (by simp [hd])), htick, popResponse_empty hempty]

/-! ### A busy channel (R207, R290, R291, R294) -/

/-- With a request outstanding no dispatch-side operation starts. -/
theorem whenQuiet_busy (why : Refusal) (f : State → State) {s : State} (h : s.quiet = false) :
    whenQuiet why f s = .refused why := by
  simp [whenQuiet, h]

/-- Settles O41: every one of these meanings begins with the test of the channel. -/
theorem operationOnABusyChannelIsRefused : Obligations.OperationOnABusyChannelIsRefused := by
  intro s dev start length b hbusy
  refine ⟨fun i hi => ?_, whenQuiet_busy _ (fun t => finish 0 0 0 (setSpeed b t)) hbusy⟩
  simp only [List.mem_cons, List.not_mem_nil, or_false] at hi
  rcases hi with rfl | rfl | rfl | rfl | rfl | rfl | rfl | rfl
  · exact whenQuiet_busy _ (singleRequest opcDisc 0) hbusy
  · exact whenQuiet_busy _ (singleRequest opcTx b) hbusy
  · exact whenQuiet_busy _ (singleRequest opcRx (ackPayload rxDefaultAck)) hbusy
  · exact whenQuiet_busy _ (finishManufacturerId dev) hbusy
  · exact whenQuiet_busy _ (fun t => finishBlock length (readBlock dev start length t)) hbusy
  · exact whenQuiet_busy _ (sendEepromW dev) hbusy
  · exact whenQuiet_busy _ (sendEepromR dev) hbusy
  · exact whenQuiet_busy _ (sendMfgidR dev) hbusy

end Sys2Proof.Machine

/-! ## Two contexts, two sets of registers (R209, R260)

`DispatchSide` and `ExecutorSide` say most of it; here are the registers they do not speak of. -/

namespace Sys2Proof.Machine

open Sys2Proof

/-! ### The executor -/

/-- The samples, the response and the result: what the dispatch sequencer keeps beside the registers of
`DispatchSide`. -/
def State.readings (s : State) : Result × Result × Result × Byte × Byte × Word :=
  (s.samp0, s.samp1, s.samp2, s.rsp, s.resStatus, s.resData)

theorem doAct_readings (a : Act) (s : State) : (doAct a s).readings = s.readings := by
  cases a with
  | counting us =>
    simp only [doAct]
    split <;> rfl
  | _ => rfl

theorem runLine_readings (s : State) : (runLine s).readings = s.readings := by
  unfold runLine
  split
  · rfl
  · exact doAct_readings _ _

theorem popRequest_readings (s : State) : (popRequest s).readings = s.readings := by
  unfold popRequest
  split <;> rfl

theorem pushResponse_readings (s : State) : (pushResponse s).readings = s.readings := by
  unfold pushResponse
  split <;> rfl

theorem tickExecutor_readings (s : State) : (tickExecutor s).readings = s.readings := by
  unfold tickExecutor
  split
  · exact popRequest_readings s
  · rfl
  · exact runLine_readings s
  · rfl
  · exact pushResponse_readings s

/-! ### The dispatch sequencer -/

/-- The codec's registers, the request and its response, and the line's levels: what the executor keeps beside the
registers of `ExecutorSide`. -/
def State.codec (s : State) : Byte × BitVec 4 × Bool × Word × Byte × List Bool × Nat :=
  (s.sh, s.bitcnt, s.ackbit, s.curReq, s.exRsp, s.lineIn, s.drawn)

theorem codec_ite {s t u : State} {p : Prop} [Decidable p] (ht : t.codec = s.codec) (hu : u.codec = s.codec) :
    (if p then t else u).codec = s.codec := by
  split <;> assumption

theorem request_codec (opc payload : Byte) (d : DStep) (s : State) : (request opc payload d s).codec = s.codec := by
  unfold request
  split <;> rfl

theorem setSample_codec (k : Pass) (r : Result) (s : State) : (setSample k r s).codec = s.codec := by
  cases k <;> rfl

theorem endVerified_codec (r : Result) (s : State) : (endVerified r s).codec = s.codec := by
  cases r <;> rfl

theorem endRead_codec (k : Pass) (r : Result) (s : State) : (endRead k r s).codec = s.codec := by
  have hsample := setSample_codec k r s
  cases k with
  | first => exact hsample
  | second => exact codec_ite ((endVerified_codec _ _).trans hsample) hsample
  | third => exact (endVerified_codec _ _).trans hsample

theorem startOperation_codec (s : State) : (startOperation s).codec = s.codec := by
  unfold startOperation
  split
  · exact request_codec ..
  · exact request_codec ..
  · exact request_codec ..
  · exact request_codec ..
  · exact codec_ite rfl (request_codec ..)
  · rfl
  · rfl

theorem runDispatchLine_codec (s : State) : (runDispatchLine s).codec = s.codec := by
  cases hd : s.dStep <;> simp only [runDispatchLine, hd]
  case entry => exact startOperation_codec s
  case mfgDisc => exact codec_ite rfl (request_codec ..)
  case mfgOpcode => exact codec_ite rfl (request_codec ..)
  case mfgByte0 => exact request_codec ..
  case mfgByte1 => exact request_codec ..
  case blkDisc => exact codec_ite rfl rfl
  case blkLoop => exact codec_ite rfl rfl
  case loadAddr => exact codec_ite (endRead_codec ..) (request_codec ..)
  case wsel => exact codec_ite (endRead_codec ..) (request_codec ..)
  case addr => exact codec_ite (endRead_codec ..) rfl
  case rselSend => exact request_codec ..
  case rsel => exact codec_ite (endRead_codec ..) (request_codec ..)
  case returnVal => exact endRead_codec ..
  case select => exact request_codec ..
  all_goals rfl

theorem countSettle_codec (s : State) : (countSettle s).codec = s.codec := by
  unfold countSettle
  split
  · split <;> rfl
  · rfl

theorem popResponse_codec (s : State) : (popResponse s).codec = s.codec := by
  unfold popResponse
  split <;> rfl

theorem tickDispatch_codec (s : State) : (tickDispatch s).codec = s.codec := by
  unfold tickDispatch
  split
  · split <;> rfl
  · exact runDispatchLine_codec s
  · exact popResponse_codec s
  · exact countSettle_codec s
  · split <;> rfl

/-- Settles O46: the frames of either sequencer's action, register by register. -/
theorem contextsWriteTheirOwnRegisters : Obligations.ContextsWriteTheirOwnRegisters := by
  intro s
  have hx := tickExecutor_dispatchSide s
  have hd := tickDispatch_executorSide s
  obtain ⟨hsamp0, hsamp1, hsamp2, hrsp, hstatus, hdata⟩ :
      (tickExecutor s).samp0 = s.samp0 ∧ (tickExecutor s).samp1 = s.samp1 ∧ (tickExecutor s).samp2 = s.samp2 ∧
        (tickExecutor s).rsp = s.rsp ∧ (tickExecutor s).resStatus = s.resStatus ∧
        (tickExecutor s).resData = s.resData := by
    simpa only [State.readings, Prod.mk.injEq] using tickExecutor_readings s
  obtain ⟨hsh, hbitcnt, hackbit, hcurReq, hexRsp, hlineIn, hdrawn⟩ :
      (tickDispatch s).sh = s.sh ∧ (tickDispatch s).bitcnt = s.bitcnt ∧ (tickDispatch s).ackbit = s.ackbit ∧
        (tickDispatch s).curReq = s.curReq ∧ (tickDispatch s).exRsp = s.exRsp ∧
        (tickDispatch s).lineIn = s.lineIn ∧ (tickDispatch s).drawn = s.drawn := by
    simpa only [State.codec, Prod.mk.injEq] using tickDispatch_codec s
  exact ⟨⟨hx.profSel, hsamp0, hsamp1, hsamp2, hx.acc, hx.idx, hx.curAddr, hx.buf, hx.dlyD, hx.opWord, hrsp, hx.dState,
      hx.dStep, hx.resValid, hstatus, hdata, hx.resLen⟩,
    hd.pinDir, hd.pinLatch, hd.dlyCnt, hd.irqDis, hsh, hbitcnt, hackbit, hcurReq, hexRsp, hd.exState, hd.exStep,
    hlineIn, hdrawn⟩

end Sys2Proof.Machine

/-! ## A reset lands on its edge (R280)

With a reset awaited no instruction runs whole, so a step is one action (log 4); `ticks_beforeReset` says what the actions
before the reset are, `tick_resetNow` what the one after them is. -/

namespace Sys2Proof.Machine

open Sys2Proof

/-! ### Steps that are one action -/

/-- With a reset awaited no instruction starts (R280). -/
theorem fetch_resetAwaited {s : State} (hr : resetAwaited s = true) : fetch s = none := if_pos hr

theorem step_resetAwaited {s : State} (hr : resetAwaited s = true) : step s = .next (tick s) :=
  step_notFetched (fetch_resetAwaited hr)

theorem presentedWord_beforeReset {s : State} {w : Word} {rest : List HostInput} (hh : s.hostIn = .op w :: rest)
    (hr : resetNext rest = true) : presentedWord s = none := by
  simp only [presentedWord, hh, hr, Bool.true_eq_false, and_false, if_false]

/-- A word presented to an idle engine is accepted by one action, whatever stands behind it (R220). -/
theorem tick_wordPresented {s : State} {w : Word} {rest : List HostInput} (hh : s.hostIn = .op w :: rest)
    (hd : s.dState = .idle) (hq : s.quiet = true) : tick s = acceptHost w s := by
  rw [tick_quiet hq (by simp [resetAwaited, hh, resetNext])]
  simp only [tickDispatch, hd, hh]

/-- A word with a reset behind it is accepted, and its operation does not run whole (R220, R280). -/
theorem step_wordBeforeReset {s : State} {w : Word} {rest : List HostInput} (hh : s.hostIn = .op w :: rest)
    (hr : resetNext rest = true) (hd : s.dState = .idle) (hq : s.quiet = true) : step s = .next (acceptHost w s) := by
  have hfetch : fetch s = none := by
    unfold fetch
    rw [pendingRequest_quiet hq, selectByte_notRunning (by simp [hd]), presentedWord_beforeReset hh hr]
    exact ite_self _
  rw [step_notFetched hfetch, tick_wordPresented hh hd hq]

/-! ### Up to the edge -/

/-- The next action after `k` others. -/
theorem tick_ticks (k : Nat) (s : State) : tick (ticks k s) = ticks (k + 1) s := (ticks_add k 1 s).symm

/-- No action changes the configuration (R21), so no run of actions does. -/
theorem ticks_cfg (n : Nat) (s : State) : (ticks n s).cfg = s.cfg :=
  Reaches.keeps (P := fun u => u.cfg = s.cfg) (fun u hu => (tick_cfg u).trans hu) ⟨n, rfl⟩ rfl

section

variable {s : State} {n : Nat} {rest : List HostInput} (hh : s.hostIn = .rst n :: rest)
include hh

/-- After `k` of the `n` actions before a reset the engine is where it would be with no input, the reset `n - k` away. -/
theorem ticks_awaitingReset {k : Nat} (hk : k ≤ n) :
    ticks k s = withInputs (.rst (n - k) :: rest) (ticks k (withInputs [] s)) := by
  have h := ticks_beforeReset k (n - k) rest s
  rwa [Nat.add_sub_cancel' hk, withInputs_eq hh] at h

/-- Up to the reset and at it each step is one action. -/
theorem step_ticks_awaitingReset {k : Nat} (hk : k ≤ n) : step (ticks k s) = .next (ticks (k + 1) s) := by
  have hr : resetAwaited (ticks k s) = true := by rw [ticks_awaitingReset hh hk]; rfl
  rw [step_resetAwaited hr, tick_ticks]

/-- The action after these `n` is the reset; the configuration, the line and the later inputs stay (R281). -/
theorem ticks_reset : ticks (n + 1) s = { State.resetOf s.cfg with
    hostIn := rest, lineIn := (ticks n (withInputs [] s)).lineIn, drawn := (ticks n (withInputs [] s)).drawn } := by
  have hcfg : (ticks n (withInputs [] s)).cfg = s.cfg := ticks_cfg n (withInputs [] s)
  rw [← tick_ticks, ticks_awaitingReset hh le_rfl, Nat.sub_self, tick_resetNow rfl, ← hcfg]
  rfl

end

/-- Settles O59: the actions before the reset and the one at it, from the state with the word accepted where one is
presented first. -/
theorem aResetLandsOnItsEdge : Obligations.AResetLandsOnItsEdge := by
  refine ⟨fun s n rest hh => ⟨fun k hk => ⟨step_ticks_awaitingReset hh hk, ticks_awaitingReset hh hk⟩, ticks_reset hh⟩,
    fun s w n rest hh hd hq => ?_⟩
  have hstep : step s = .next (acceptHost w s) := step_wordBeforeReset hh rfl hd hq
  have hin : (acceptHost w s).hostIn = .rst n :: rest := congrArg List.tail hh
  have hticks (k : Nat) : ticks (k + 1) s = ticks k (acceptHost w s) := congrArg (ticks k) (tick_wordPresented hh hd hq)
  refine ⟨by rw [hstep, acceptHost, hh, List.tail_cons], fun k hk => ?_, ?_⟩
  · cases k with
    | zero => rw [hticks]; exact hstep
    | succ k => rw [hticks, hticks]; exact step_ticks_awaitingReset hin (Nat.le_of_succ_le_succ hk)
  · rw [hticks, ticks_reset hin]
    exact ⟨rfl, rfl, rfl, rfl, rfl, rfl⟩

end Sys2Proof.Machine

/-! ## Nothing stops the engine, and the errors it reports (R240, R241)

`fetch` hands a dispatch-side meaning a state with nothing outstanding, so no refusal of `whenQuiet` is reached (log 14). -/

namespace Sys2Proof.Machine

open Sys2Proof

/-! ### A next state for each place of `fetch` -/

/-- A popped request is served, known or unknown (R200, R204). -/
theorem step_fetchedRequest {s s' : State} {w : Word} (hf : fetch s = some (.chan w, s')) :
    step s = .next (executorTurn s) := by
  obtain ⟨-, -, hw, rfl⟩ := fetch_chan hf
  have hcur : (popRequest s).curReq = w := by rw [popRequest_full hw]
  cases hd : decodeChan w with
  | ok i => exact (step_fetched hf hd).trans (exec_chan _ hcur hd)
  | error e => exact (step_fetchedUnknown hf hd).trans (exec_chanUnknown _ hcur hd)

/-- A byte on the sequencer's line is sent, a bus opcode byte or not (R206, log 6). -/
theorem step_fetchedByte {s s' : State} {b : Byte} (hf : fetch s = some (.bus b, s')) :
    step s = .next (chan opcTx b s') := by
  obtain ⟨-, -, hq, -, rfl⟩ := fetch_bus hf
  have hq' : (goto .ret s).quiet = true := hq
  cases hd : decodeBus b with
  | ok i => exact (step_fetched hf hd).trans (exec_bus _ hq' hd)
  | error e => exact (step_fetchedUnknown hf hd).trans (whenQuiet_quiet _ (chan opcTx b) hq')

/-- An accepted host word runs its operation, which is `E_UNKNOWN_OP` where it selects none (R220, R227). -/
theorem step_fetchedHostWord {s s' : State} {w : Word} (hf : fetch s = some (.host w, s')) :
    step s = .next (runHostOperation s') := by
  obtain ⟨-, -, hq, -, rfl⟩ := fetch_host hf
  have hq' : (acceptHost w s).quiet = true := hq
  cases hd : decodeHost w with
  | ok i => exact (step_fetched hf hd).trans (exec_host hq' hd)
  | error e =>
    rw [step_fetchedUnknown hf hd, runHostOperation_unknown (s := acceptHost w s) hd]
    rfl

/-- Settles O45: by what `fetch` finds, a request, a byte to send, a host word, or nothing. -/
theorem stepNeverStops : Obligations.StepNeverStops := by
  intro s
  cases hf : fetch s with
  | none => exact ⟨_, step_notFetched hf⟩
  | some p =>
    obtain ⟨c, s'⟩ := p
    cases c with
    | chan w => exact ⟨_, step_fetchedRequest hf⟩
    | bus b => exact ⟨_, step_fetchedByte hf⟩
    | host w => exact ⟨_, step_fetchedHostWord hf⟩

/-! ### The error codes (R241) -/

/-- The codes count down from -1 in the order of the table. -/
theorem ErrCode.number_eq (e : ErrCode) : e.number = -((e.ctorIdx : Int) + 1) := by cases e <;> rfl

theorem ErrCode.number_neg (e : ErrCode) : e.number < 0 := by
  rw [e.number_eq]
  omega

/-- Eight bits hold every code: `res_status` read as two's complement is the code (R36). -/
theorem ErrCode.toInt_status (e : ErrCode) : e.status.toInt = e.number := by cases e <;> rfl

theorem ErrCode.number_injective : Function.Injective ErrCode.number := by
  intro e e' h
  rw [e.number_eq, e'.number_eq] at h
  have hidx : e.ctorIdx = e'.ctorIdx := by omega
  rw [← ErrCode.ofNat_ctorIdx e, hidx, ErrCode.ofNat_ctorIdx]

/-- Settles O44: the table row by row; the sign and the difference are those of the codes, which `res_status` keeps. -/
theorem errorCodesAreDistinctAndNegative : Obligations.ErrorCodesAreDistinctAndNegative := by
  refine ⟨rfl, rfl, rfl, rfl, rfl, rfl, rfl, rfl, fun e => ?_, fun e e' h => ErrCode.number_injective ?_⟩
  · rw [e.toInt_status]
    exact e.number_neg
  · rw [← e.toInt_status, ← e'.toInt_status, h]

end Sys2Proof.Machine

/-! ## Reset at an edge, and an engine with nothing to do (R280, R282) -/

namespace Sys2Proof.Machine

open Sys2Proof

/-- Settles O49: with a reset awaited a step is one action, and at its edge the action is the reset. -/
theorem resetAbandonsEverything : Obligations.ResetAbandonsEverything := by
  intro s rest hh
  have hr : resetAwaited s = true := by rw [resetAwaited, hh]; rfl
  rw [step_resetAwaited hr, tick_resetNow hh, resetEngine, hh, List.tail_cons]

/-- With nothing outstanding and nothing presented, an instruction starts in `D_RUN` alone. -/
theorem fetch_nothingPresented {s : State} (hh : s.hostIn = []) (hq : s.quiet = true) (hd : s.dState ≠ .run) :
    fetch s = none := by
  have hpresented : presentedWord s = none := by rw [presentedWord, hh]
  unfold fetch
  rw [pendingRequest_quiet hq, selectByte_notRunning hd, hpresented]
  exact ite_self _

/-- Settles O56: nothing is fetched, and in `D_IDLE` the action without an input changes nothing. -/
theorem idleEngineWaits : Obligations.IdleEngineWaits := by
  intro s hh hd hq
  have hr : resetAwaited s = false := by rw [resetAwaited, hh]; rfl
  have htick : tick s = s := by
    rw [tick_quiet hq hr]
    simp only [tickDispatch, hd, hh]
  rw [step_notFetched (fetch_nothingPresented hh hq (by simp [hd])), htick]

end Sys2Proof.Machine

/-! ## Nominal durations (R300)

A procedure lasts what its round trips and settle delays last, and a round trip what its events do: nine bit periods or
a Discovery. -/

namespace Sys2Proof.Machine

open Sys2Proof

/-- From `s` to `t` the trace has grown by the nominal time `d`. -/
def Lasts (d : Nat) (s t : State) : Prop := traceTime t.trace = traceTime s.trace + d

theorem Lasts.trans {d d' : Nat} {s t u : State} (h : Lasts d s t) (h' : Lasts d' t u) : Lasts (d + d') s u := by
  unfold Lasts at *
  omega

/-- Events added to the trace last what they last. -/
theorem lasts_of_events {l : List Event} {d : Nat} {s t : State} (ht : t.trace = s.trace ++ l)
    (hl : traceTime l = d) : Lasts d s t := by
  rw [Lasts, ht, traceTime_append, hl]

/-- The mask takes no time (R123). -/
theorem traceTime_underMask (l : List Event) : traceTime (underMask l) = traceTime l := by
  simp [underMask, traceTime, traceTime_append, Event.time]

/-- The nominal time of a Discovery (R160). -/
def discTime (c : Params) : Nat :=
  c.tDscStart + c.tDscReset + c.tDscRec + c.tDscReq + c.tDscSmp + c.tDscEnd

theorem traceTime_discoveryEvents (c : Params) (b : Bool) : traceTime (discoveryEvents c b) = discTime c := by
  simp only [discoveryEvents, traceTime, Event.time, discTime]
  omega

/-! ### Requests in the executor -/

/-- The push of the response adds no event, whether it waits or not (R200, R205). -/
theorem pushResponse_trace (s : State) : (pushResponse s).trace = s.trace := by
  unfold pushResponse
  split <;> rfl

/-- A request lasts what its operation lasts: mask and push take no time. -/
theorem serve_lasts {body : State → State} {d : Nat} {s : State} (hbody : Lasts d (maskIrq s) (body (maskIrq s))) :
    Lasts d s (serve body s) := by
  have hmask : Lasts 0 s (maskIrq s) := lasts_of_events rfl rfl
  have hunmask : Lasts 0 (body (maskIrq s)) (unmaskIrq (body (maskIrq s))) := lasts_of_events rfl rfl
  have hserve := (hmask.trans hbody).trans hunmask
  rw [Nat.zero_add, Nat.add_zero] at hserve
  rwa [Lasts, serve, pushResponse_trace]

theorem runTransmitByte_lasts (payload : Byte) (s : State) :
    Lasts (9 * s.profile.tBit) s (runTransmitByte payload s) := by
  rw [runTransmitByte, transmitByte_eq]
  exact lasts_of_events rfl (traceTime_transmitEvents (profile_wf s) ..)

theorem runReceiveByte_lasts (payload : Byte) (s : State) :
    Lasts (9 * s.profile.tBit) s (runReceiveByte payload s) := by
  rw [runReceiveByte, receiveByte_eq]
  exact lasts_of_events rfl (traceTime_receiveEvents (profile_wf s) ..)

theorem runDiscovery_lasts (s : State) : Lasts (discTime s.cfg.params) s (runDiscovery s) := by
  rw [runDiscovery, discovery_eq]
  exact lasts_of_events rfl (traceTime_discoveryEvents ..)

/-- A request word with none of the three opcodes takes no time, with or without room for its response (R204). -/
theorem executorTurn_unknown_lasts {s : State} {w : Word} (hw : s.reqSlot = some w) (ho : ¬ IsOpcode (opcodeField w)) :
    Lasts 0 s (executorTurn s) := by
  have hcur : (popRequest s).curReq = w := by rw [popRequest_full hw]
  have hpop : (popRequest s).trace = s.trace := by rw [popRequest_full hw]
  have hserve : Lasts 0 (popRequest s) (serve runUnknown (popRequest s)) := serve_lasts rfl
  rwa [executorTurn, serveRequest_unknown (by rwa [hcur]), Lasts, ← hpop]

/-! ### Round trips -/

theorem Advance.lasts {n r d : Nat} {l : List Event} {s t : State} (h : Advance n r l s t) (hl : traceTime l = d) :
    Lasts d s t := lasts_of_events h.trace hl

theorem txTrip_lasts (n : BitVec 4) (b : Byte) (s : State) : Lasts (9 * s.profile.tBit) s (txTrip n b s) :=
  (txTrip_advance n b s).lasts (by rw [traceTime_underMask, traceTime_transmitEvents (profile_wf s)])

theorem rxTrip_lasts (n : BitVec 4) (a : Bool) (s : State) : Lasts (9 * s.profile.tBit) s (rxTrip n a s) :=
  (rxTrip_advance n a s).lasts (by rw [traceTime_underMask, traceTime_receiveEvents (profile_wf s)])

theorem discTrip_lasts (s : State) : Lasts (discTime s.cfg.params) s (discTrip s) :=
  (discTrip_advance s).lasts (by rw [traceTime_underMask, traceTime_discoveryEvents])

theorem idleFor_lasts (us : Nat) (s : State) : Lasts us s (idleFor us s) := (idleFor_advance us s).lasts rfl

/-! ### Procedures -/

/-- Two bytes (R171). -/
theorem addressTrip_lasts (dev a : Byte) (s : State) : Lasts (18 * s.profile.tBit) s (addressTrip dev a s) := by
  have hselect : Lasts (9 * s.profile.tBit) s (selectTrip dev s) := txTrip_lasts ..
  have haddress : Lasts (9 * s.profile.tBit) (selectTrip dev s) (addressTrip dev a s) := txTrip_lasts ..
  have htwo := hselect.trans haddress
  rwa [← Nat.add_mul] at htwo

/-- The nominal time of a `readByte` that succeeds (R175). -/
def readTime (s : State) : Nat := 36 * s.profile.tBit + s.cfg.params.tSettleA + s.cfg.params.tSettleB

/-- Four bytes and both settle delays (R175). -/
theorem readTrip_lasts (dev a : Byte) (s : State) : Lasts (readTime s) s (readTrip dev a s) := by
  have haddress := addressTrip_lasts dev a s
  have hsettleA := idleFor_lasts s.cfg.params.tSettleA (addressTrip dev a s)
  have hintent : Lasts (9 * s.profile.tBit) (idleFor s.cfg.params.tSettleA (addressTrip dev a s))
      (intentTrip dev a s) := txTrip_lasts ..
  have hbyte : Lasts (9 * s.profile.tBit) (intentTrip dev a s) (rxTrip 8 false (intentTrip dev a s)) := rxTrip_lasts ..
  have hsettleB : Lasts s.cfg.params.tSettleB (rxTrip 8 false (intentTrip dev a s)) (readTrip dev a s) :=
    idleFor_lasts ..
  have hread := (((haddress.trans hsettleA).trans hintent).trans hbyte).trans hsettleB
  unfold Lasts readTime at *
  omega

/-- A `loadAddress` that succeeds has made both its round trips: every other branch of it answers an error (R171). -/
theorem loadAddress_succeeds {dev a : Byte} {s : State} (hq : s.quiet = true) (hok : (loadAddress dev a s).1 = none) :
    (loadAddress dev a s).2 = addressTrip dev a s := by
  by_cases ha : 127 < a.toNat
  · rw [loadAddress_outOfRange dev ha] at hok
    cases hok
  · rw [loadAddress_trips hq (Nat.le_of_not_lt ha)] at hok ⊢
    split_ifs at hok ⊢
    rfl

/-- A `readByte` that succeeds has made its four round trips and both settle delays: every other branch of it answers
an error (R175). -/
theorem readByte_succeeds {dev a v : Byte} {s : State} (hq : s.quiet = true) (hok : (readByte dev a s).1 = .val v) :
    (readByte dev a s).2 = readTrip dev a s := by
  by_cases ha : 127 < a.toNat
  · rw [readByte_outOfRange dev ha] at hok
    cases hok
  · rw [readByte_trips hq (Nat.le_of_not_lt ha)] at hok ⊢
    split_ifs at hok ⊢
    rfl

/-- Writing the sample takes no time (R177). -/
theorem takeSample_lasts (k : Pass) {dev a v : Byte} {s : State} (hq : s.quiet = true)
    (hok : (readByte dev a s).1 = .val v) : Lasts (readTime s) s (takeSample k dev a s) := by
  have hread : Lasts (readTime s) s (readByte dev a s).2 := by
    rw [readByte_succeeds hq hok]
    exact readTrip_lasts dev a s
  unfold takeSample
  cases k <;> exact hread

theorem readTime_sameOp {s t : State} (h : SameOp s t) : readTime t = readTime s := by
  rw [readTime, h.profile, h.cfg, readTime]

/-- Three bytes (R172). -/
theorem receiveId_lasts {s : State} (hq : s.quiet = true) : Lasts (27 * s.profile.tBit) s (receiveId s) := by
  have hbyte0 : Lasts (9 * s.profile.tBit) s (rxTrip 8 true s) := rxTrip_lasts ..
  have hbyte1 : Lasts (9 * s.profile.tBit) (rxTrip 8 true s) (rxTrip 8 true (rxTrip 8 true s)) := rxTrip_lasts ..
  have hbyte2 : Lasts (9 * s.profile.tBit) (rxTrip 8 true (rxTrip 8 true s))
      (rxTrip 8 false (rxTrip 8 true (rxTrip 8 true s))) := rxTrip_lasts ..
  have hthree := (hbyte0.trans hbyte1).trans hbyte2
  rw [← Nat.add_mul, ← Nat.add_mul] at hthree
  rw [receiveId_trips hq]
  exact hthree

/-- Discovery, the opcode byte and three bytes (R172). -/
theorem readManufacturerId_lasts {dev : Byte} {s : State} (hq : s.quiet = true) (hpresent : levelAt s 0 = false)
    (hack : levelAt s 1 = false) :
    Lasts (discTime s.cfg.params + 36 * s.profile.tBit) s (readManufacturerId dev s).2 := by
  have hdisc := discTrip_lasts s
  have hopcode : Lasts (9 * s.profile.tBit) (discTrip s) (txTrip 8 (devByte busOpcMfgId dev true) (discTrip s)) :=
    txTrip_lasts ..
  have hid : Lasts (27 * s.profile.tBit) (txTrip 8 (devByte busOpcMfgId dev true) (discTrip s))
      (receiveId (txTrip 8 (devByte busOpcMfgId dev true) (discTrip s))) := receiveId_lasts hq
  have hall := (hdisc.trans hopcode).trans hid
  rw [Nat.add_assoc, ← Nat.add_mul] at hall
  rw [readManufacturerId_trips hq, hpresent, hack]
  exact hall

/-- The reads of a `verifiedRead` one after another, each from where the one before left off (R177). -/
theorem verifiedRead_lasts {dev a v0 v1 : Byte} {s : State} (h : AtLine s) :
    let s1 := takeSample .first dev a s
    let s2 := takeSample .second dev a s1
    (readByte dev a s).1 = .val v0 → (readByte dev a s1).1 = .val v1 →
      (v0 = v1 → Lasts (2 * readTime s) s (verifiedRead dev a s).2) ∧
      ∀ v2, v0 ≠ v1 → (readByte dev a s2).1 = .val v2 → Lasts (3 * readTime s) s (verifiedRead dev a s).2 := by
  intro s1 s2 h0 h1
  obtain ⟨hsame1, hline1⟩ := takeSample_frame .first dev a h
  obtain ⟨hsame2, hline2⟩ := takeSample_frame .second dev a hline1
  have hread0 : Lasts (readTime s) s s1 := takeSample_lasts .first h.quiet h0
  have hread1 : Lasts (readTime s) s1 s2 := readTime_sameOp hsame1 ▸ takeSample_lasts .second hline1.quiet h1
  rw [verifiedRead_byResults dev a h, h0, h1]
  refine ⟨fun hv => ?_, fun v2 hv h2 => ?_⟩
  · rw [if_pos (congrArg Result.val hv), Nat.two_mul]
    exact hread0.trans hread1
  · have hread2 : Lasts (readTime s) s2 (takeSample .third dev a s2) :=
      readTime_sameOp (hsame1.trans hsame2) ▸ takeSample_lasts .third hline2.quiet h2
    rw [if_neg fun heq => hv (Result.val.inj heq), Nat.succ_mul, Nat.two_mul]
    exact (hread0.trans hread1).trans hread2

/-! ### The two statements -/

/-- Settles O17: what is served, or the round trips made. -/
theorem nominalDurations : Obligations.NominalDurations := by
  intro s
  refine ⟨⟨_, rfl, serve_lasts (runDiscovery_lasts _)⟩,
    fun p => ⟨_, rfl, serve_lasts (runTransmitByte_lasts p _)⟩,
    fun p => ⟨_, rfl, serve_lasts (runReceiveByte_lasts p _)⟩,
    fun w hw hx hreq hr => ?_, fun dev a hq hok => ?_, fun dev a v hq hok => ?_⟩
  · have hopc : ¬ IsOpcode (opcodeField w) := by
      simpa [IsOpcode, opcodeField, opcTx, opcDisc, opcRx] using hw
    exact ⟨_, step_fetchedRequest (fetch_requested hr hx hreq), executorTurn_unknown_lasts hreq hopc⟩
  · rw [loadAddress_succeeds hq hok]
    exact addressTrip_lasts dev a s
  · rw [readByte_succeeds hq hok]
    exact readTrip_lasts dev a s

/-- Settles O57: the reads, the round trips of the id, and the operations that add no event. -/
theorem nominalDurationsOfProcedures : Obligations.NominalDurationsOfProcedures := by
  refine ⟨fun dev a v0 v1 s hq hd => verifiedRead_lasts ⟨hq, hd⟩, fun dev s hq h0 h1 => ?_,
    fun dev start length speed s hq => ⟨?_, fun hr => ?_⟩, fun w rest s hw hh hr hd hq => ?_⟩
  · have hid : Lasts _ s (readManufacturerId dev s).2 := readManufacturerId_lasts hq h0 h1
    exact ⟨_, whenQuiet_quiet _ (finishManufacturerId dev) hq, Eq.trans hid (Nat.add_assoc ..).symm⟩
  · exact ⟨_, whenQuiet_quiet _ (fun t => finish 0 0 0 (setSpeed speed t)) hq, rfl⟩
  · exact ⟨_, blockOutOfRangeIsRejected dev start length s hq hr, rfl⟩
  · exact ⟨_, unknownHostOperationIsAnError w rest s hw hh hr hd hq, rfl⟩

end Sys2Proof.Machine
